-- ==== Sys2Proof/Word.lean ====
section
/-! DEFINITION. The word types of the COS375P2 core (00_scope.md R8, R14). -/

namespace Sys2Proof

/-- A 64-bit value: register contents, addresses and computed values (R8, R14). -/
abbrev Word := BitVec 64

/-- A byte of the memory store. -/
abbrev Byte := BitVec 8

/-- A 32-bit instruction word (R71). -/
abbrev InstrWord := BitVec 32

/-- A 5-bit register number (10_state.md R19). -/
abbrev RegIdx := BitVec 5

end Sys2Proof
end

