-- ==== Sys2Proof/Config.lean ====
section
/-! DEFINITION. What the host or an implementation fixes (00_scope.md R9, R10), and the model's free values. -/

namespace Sys2Proof

/-- A cache configuration (00_scope.md R10): sizes in bytes, the miss latency in cycles. -/
structure CacheConfig where
  size        : Nat
  blockSize   : Nat
  ways        : Nat
  missLatency : Nat
deriving DecidableEq, Repr

/-- The configuration registers the host writes before a run (10_state.md R28). -/
structure Configuration where
  ic             : CacheConfig
  dc             : CacheConfig
  excHandlerAddr : Word
  memSize        : Nat
deriving DecidableEq, Repr

/-- The open parameters of `reset` (00_scope.md R9, 10_state.md R44): the first fetch address, the image and where
it is loaded, the values of x1..x31 (entry 0 is ignored: x0 is hardwired), and the bytes the image does not cover
(addresses not listed hold `unlistedByte`). -/
structure BootParams where
  resetPc   : Word
  imageBase : Word
  image     : List Byte
  initRegs  : Vector Word 32
  initMem   : List Host.Cell
deriving DecidableEq, Repr

/-- What a byte of memory that is not listed reads as. DESIGN CHOICE (log 3): the spec leaves INIT_MEM open (P6); the
value 0 is the convention of 95_test_vectors.md. Unsafe. -/
def unlistedByte : Byte := 0#8

/-- The configuration State.reset carries. DESIGN CHOICE (log 4): the configuration registers have "no reset value"
(10_state.md R44); these are the values 95_test_vectors.md uses. Unsafe. -/
def Configuration.default : Configuration where
  ic := ⟨256, 16, 2, 2⟩
  dc := ⟨256, 16, 2, 3⟩
  excHandlerAddr := 0x8000#64
  memSize := 0x10000

/-- The boot parameters State.reset stands for. DESIGN CHOICE (log 1, 2, 3): all of them are open parameters
(10_state.md R44); zero registers, a zero reset pc and no image are the conventions of 95_test_vectors.md. Unsafe. -/
def BootParams.default : BootParams where
  resetPc := 0#64
  imageBase := 0#64
  image := []
  initRegs := Vector.replicate 32 0#64
  initMem := []

/-- The value fields of an instruction record that a stage fills in later (10_state.md R30, R31). -/
inductive ValueField where
  | operand1 | operand2 | arithResult | memAddress | memResult | nextPc
deriving DecidableEq, Repr

/-- FREE VALUE (log 10): what a value field of the record with identifier `dynId` holds before a stage fills it. The
spec gives the fields no value at fetch. It has no body, so nothing can be proved about it. -/
opaque Config.unsetField (dynId : Nat) (field : ValueField) : Word

end Sys2Proof
end

