-- ==== Sys2Proof/Decode.lean ====
section
/-! DEFINITION. The bit-field codec, decode and legality (30_encoding.md R71 to R89), and after them the encoder. -/

namespace Sys2Proof

/-! ### The codec -/

/-- `word[hi:lo]` (R74). -/
def extractBits (w : InstrWord) (hi lo : Nat) : BitVec (hi - lo + 1) := w.extractLsb hi lo

def opcodeOf (w : InstrWord) : BitVec 7 := extractBits w 6 0
def rdOf (w : InstrWord) : RegIdx := extractBits w 11 7
def funct3Of (w : InstrWord) : BitVec 3 := extractBits w 14 12
def rs1Of (w : InstrWord) : RegIdx := extractBits w 19 15
def rs2Of (w : InstrWord) : RegIdx := extractBits w 24 20
def funct7Of (w : InstrWord) : BitVec 7 := extractBits w 31 25
/-- `w[31:26]`, the field the 64-bit immediate shifts check (R73, R86). -/
def funct6Of (w : InstrWord) : BitVec 6 := extractBits w 31 26

/-- The six fields decode extracts from every word, whatever its format (R72). -/
structure Fields where
  opcode : BitVec 7
  funct3 : BitVec 3
  funct7 : BitVec 7
  rd     : RegIdx
  rs1    : RegIdx
  rs2    : RegIdx
deriving DecidableEq, Repr

/-- R72. -/
def Fields.ofWord (w : InstrWord) : Fields :=
  ⟨opcodeOf w, funct3Of w, funct7Of w, rdOf w, rs1Of w, rs2Of w⟩

/-! ### Immediate fields, as the word holds them (R73); their extension is in Machine/Operands.lean -/

/-- `w[31:20]` (R76). -/
def immIOf (w : InstrWord) : BitVec 12 := extractBits w 31 20
/-- `w[31:25], w[11:7]` (R77). -/
def immSOf (w : InstrWord) : BitVec 12 := extractBits w 31 25 ++ extractBits w 11 7
/-- `w[31], w[7], w[30:25], w[11:8], 0` (R78). -/
def immBOf (w : InstrWord) : BitVec 13 :=
  extractBits w 31 31 ++ extractBits w 7 7 ++ extractBits w 30 25 ++ extractBits w 11 8 ++ 0#1
/-- `w[31:12]` (R79). -/
def immUOf (w : InstrWord) : BitVec 20 := extractBits w 31 12
/-- `w[31], w[19:12], w[20], w[30:21], 0` (R80). -/
def immJOf (w : InstrWord) : BitVec 21 :=
  extractBits w 31 31 ++ extractBits w 19 12 ++ extractBits w 20 20 ++ extractBits w 30 21 ++ 0#1
/-- `w[25:20]`, the 64-bit immediate shift amount (R81). -/
def shamt64Of (w : InstrWord) : BitVec 6 := extractBits w 25 20
/-- `w[24:20]`, the word-form immediate shift amount (R81). -/
def shamt32Of (w : InstrWord) : BitVec 5 := extractBits w 24 20

/-! ### Decode -/

/-- Why a word is no instruction (R87). The names are the model's (log 12): the spec says only "illegal". -/
inductive DecodeReject where
  /-- Fewer than four bytes. -/
  | truncated
  /-- No row of R86 has the opcode. -/
  | unknownOpcode
  /-- The opcode has rows, none with this funct3. -/
  | unknownFunct3
  /-- The opcode and funct3 have rows, none with this funct7 (funct6 for the 64-bit immediate shifts). -/
  | unknownFunct7
deriving DecidableEq, Repr

/-- The halt sentinel (R84). -/
def haltWord : InstrWord := 0xFEEDFEED#32
/-- The no-op sentinel (R85). -/
def nopWord : InstrWord := 0x00000013#32

/-- Rows of opcode 0110011 (R86). -/
def decodeOp (w : InstrWord) : Except DecodeReject Instr :=
  match funct7Of w with
  | 0b0000000#7 =>
    match funct3Of w with
    | 0b000#3 => .ok (.add (rdOf w) (rs1Of w) (rs2Of w))
    | 0b001#3 => .ok (.sll (rdOf w) (rs1Of w) (rs2Of w))
    | 0b010#3 => .ok (.slt (rdOf w) (rs1Of w) (rs2Of w))
    | 0b011#3 => .ok (.sltu (rdOf w) (rs1Of w) (rs2Of w))
    | 0b100#3 => .ok (.xor (rdOf w) (rs1Of w) (rs2Of w))
    | 0b101#3 => .ok (.srl (rdOf w) (rs1Of w) (rs2Of w))
    | 0b110#3 => .ok (.or (rdOf w) (rs1Of w) (rs2Of w))
    | _       => .ok (.and (rdOf w) (rs1Of w) (rs2Of w))
  | 0b0100000#7 =>
    match funct3Of w with
    | 0b000#3 => .ok (.sub (rdOf w) (rs1Of w) (rs2Of w))
    | 0b101#3 => .ok (.sra (rdOf w) (rs1Of w) (rs2Of w))
    | _       => .error .unknownFunct7
  | _ => .error .unknownFunct7

/-- Rows of opcode 0010011 (R86). -/
def decodeOpImm (w : InstrWord) : Except DecodeReject Instr :=
  match funct3Of w with
  | 0b000#3 => .ok (.addi (rdOf w) (rs1Of w) (immIOf w))
  | 0b010#3 => .ok (.slti (rdOf w) (rs1Of w) (immIOf w))
  | 0b011#3 => .ok (.sltiu (rdOf w) (rs1Of w) (immIOf w))
  | 0b100#3 => .ok (.xori (rdOf w) (rs1Of w) (immIOf w))
  | 0b110#3 => .ok (.ori (rdOf w) (rs1Of w) (immIOf w))
  | 0b111#3 => .ok (.andi (rdOf w) (rs1Of w) (immIOf w))
  | 0b001#3 =>
    match funct6Of w with
    | 0b000000#6 => .ok (.slli (rdOf w) (rs1Of w) (shamt64Of w))
    | _          => .error .unknownFunct7
  | _ =>
    match funct6Of w with
    | 0b000000#6 => .ok (.srli (rdOf w) (rs1Of w) (shamt64Of w))
    | 0b010000#6 => .ok (.srai (rdOf w) (rs1Of w) (shamt64Of w))
    | _          => .error .unknownFunct7

/-- Rows of opcode 0011011 (R86). -/
def decodeOpImm32 (w : InstrWord) : Except DecodeReject Instr :=
  match funct3Of w with
  | 0b000#3 => .ok (.addiw (rdOf w) (rs1Of w) (immIOf w))
  | 0b001#3 =>
    match funct7Of w with
    | 0b0000000#7 => .ok (.slliw (rdOf w) (rs1Of w) (shamt32Of w))
    | _           => .error .unknownFunct7
  | 0b101#3 =>
    match funct7Of w with
    | 0b0000000#7 => .ok (.srliw (rdOf w) (rs1Of w) (shamt32Of w))
    | 0b0100000#7 => .ok (.sraiw (rdOf w) (rs1Of w) (shamt32Of w))
    | _           => .error .unknownFunct7
  | _ => .error .unknownFunct3

/-- Rows of opcode 0111011 (R86). -/
def decodeOp32 (w : InstrWord) : Except DecodeReject Instr :=
  match funct3Of w with
  | 0b000#3 =>
    match funct7Of w with
    | 0b0000000#7 => .ok (.addw (rdOf w) (rs1Of w) (rs2Of w))
    | 0b0100000#7 => .ok (.subw (rdOf w) (rs1Of w) (rs2Of w))
    | _           => .error .unknownFunct7
  | 0b001#3 =>
    match funct7Of w with
    | 0b0000000#7 => .ok (.sllw (rdOf w) (rs1Of w) (rs2Of w))
    | _           => .error .unknownFunct7
  | 0b101#3 =>
    match funct7Of w with
    | 0b0000000#7 => .ok (.srlw (rdOf w) (rs1Of w) (rs2Of w))
    | 0b0100000#7 => .ok (.sraw (rdOf w) (rs1Of w) (rs2Of w))
    | _           => .error .unknownFunct7
  | _ => .error .unknownFunct3

/-- Rows of opcode 0000011 (R86). -/
def decodeLoad (w : InstrWord) : Except DecodeReject Instr :=
  match funct3Of w with
  | 0b000#3 => .ok (.lb (rdOf w) (rs1Of w) (immIOf w))
  | 0b001#3 => .ok (.lh (rdOf w) (rs1Of w) (immIOf w))
  | 0b010#3 => .ok (.lw (rdOf w) (rs1Of w) (immIOf w))
  | 0b011#3 => .ok (.ld (rdOf w) (rs1Of w) (immIOf w))
  | 0b100#3 => .ok (.lbu (rdOf w) (rs1Of w) (immIOf w))
  | 0b101#3 => .ok (.lhu (rdOf w) (rs1Of w) (immIOf w))
  | 0b110#3 => .ok (.lwu (rdOf w) (rs1Of w) (immIOf w))
  | _       => .error .unknownFunct3

/-- Rows of opcode 0100011 (R86). -/
def decodeStore (w : InstrWord) : Except DecodeReject Instr :=
  match funct3Of w with
  | 0b000#3 => .ok (.sb (rs1Of w) (rs2Of w) (immSOf w))
  | 0b001#3 => .ok (.sh (rs1Of w) (rs2Of w) (immSOf w))
  | 0b010#3 => .ok (.sw (rs1Of w) (rs2Of w) (immSOf w))
  | 0b011#3 => .ok (.sd (rs1Of w) (rs2Of w) (immSOf w))
  | _       => .error .unknownFunct3

/-- Rows of opcode 1100011 (R86). -/
def decodeBranch (w : InstrWord) : Except DecodeReject Instr :=
  match funct3Of w with
  | 0b000#3 => .ok (.beq (rs1Of w) (rs2Of w) (immBOf w))
  | 0b001#3 => .ok (.bne (rs1Of w) (rs2Of w) (immBOf w))
  | 0b100#3 => .ok (.blt (rs1Of w) (rs2Of w) (immBOf w))
  | 0b101#3 => .ok (.bge (rs1Of w) (rs2Of w) (immBOf w))
  | 0b110#3 => .ok (.bltu (rs1Of w) (rs2Of w) (immBOf w))
  | 0b111#3 => .ok (.bgeu (rs1Of w) (rs2Of w) (immBOf w))
  | _       => .error .unknownFunct3

/-- The legality table (R86). -/
def decodeRow (w : InstrWord) : Except DecodeReject Instr :=
  match opcodeOf w with
  | 0b0110011#7 => decodeOp w
  | 0b0010011#7 => decodeOpImm w
  | 0b0011011#7 => decodeOpImm32 w
  | 0b0111011#7 => decodeOp32 w
  | 0b0000011#7 => decodeLoad w
  | 0b0100011#7 => decodeStore w
  | 0b1100011#7 => decodeBranch w
  | 0b1101111#7 => .ok (.jal (rdOf w) (immJOf w))
  | 0b1100111#7 =>
    match funct3Of w with
    | 0b000#3 => .ok (.jalr (rdOf w) (rs1Of w) (immIOf w))
    | _       => .error .unknownFunct3
  | 0b0110111#7 => .ok (.lui (rdOf w) (immUOf w))
  | 0b0010111#7 => .ok (.auipc (rdOf w) (immUOf w))
  | _ => .error .unknownOpcode

/-- Decode of a word (R83): the two sentinels first, then the table. `.error` is the illegal record of R87. -/
def decode (w : InstrWord) : Except DecodeReject Instr :=
  if w = haltWord then .ok .halt
  else if w = nopWord then .ok .nop
  else decodeRow w

/-- The word of four bytes in fetch order, little-endian (20_memory.md R49). -/
def wordOfBytes (b0 b1 b2 b3 : Byte) : InstrWord := b3 ++ b2 ++ b1 ++ b0

/-- Decode the instruction at the head of a list of bytes; every instruction is four bytes (R71). -/
def decodeBytes : List Byte → Except DecodeReject (Instr × List Byte)
  | b0 :: b1 :: b2 :: b3 :: rest => (decode (wordOfBytes b0 b1 b2 b3)).map (fun i => (i, rest))
  | _ => .error .truncated

/-- The bytes of a word as memory stores them, the first at the lowest address. -/
def bytesOfWord (w : InstrWord) : List Byte :=
  [extractBits w 7 0, extractBits w 15 8, extractBits w 23 16, extractBits w 31 24]

/-- The instruction read from the word whose bits are `w`, numbered as spec/opcode_table.json numbers them; bits at
and above `nbits` are 0. No instruction is longer than 32 bits. -/
def decodeTableWord (nbits w : Nat) : Option Instr :=
  if nbits ≤ 32 then
    match decodeBytes (bytesOfWord (BitVec.ofNat 32 (w % 2 ^ nbits))) with
    | .ok (i, _) => some i
    | .error _   => none
  else none

/-! ### The encoder, from the formats of R73 -/

def encR (f7 : BitVec 7) (rs2 rs1 : RegIdx) (f3 : BitVec 3) (rd : RegIdx) (op : BitVec 7) : InstrWord :=
  f7 ++ rs2 ++ rs1 ++ f3 ++ rd ++ op
def encI (imm : BitVec 12) (rs1 : RegIdx) (f3 : BitVec 3) (rd : RegIdx) (op : BitVec 7) : InstrWord :=
  imm ++ rs1 ++ f3 ++ rd ++ op
def encShift64 (f6 : BitVec 6) (shamt : BitVec 6) (rs1 : RegIdx) (f3 : BitVec 3) (rd : RegIdx) (op : BitVec 7) :
    InstrWord :=
  f6 ++ shamt ++ rs1 ++ f3 ++ rd ++ op
def encS (imm : BitVec 12) (rs2 rs1 : RegIdx) (f3 : BitVec 3) (op : BitVec 7) : InstrWord :=
  imm.extractLsb 11 5 ++ rs2 ++ rs1 ++ f3 ++ imm.extractLsb 4 0 ++ op
def encB (off : BitVec 13) (rs2 rs1 : RegIdx) (f3 : BitVec 3) (op : BitVec 7) : InstrWord :=
  off.extractLsb 12 12 ++ off.extractLsb 10 5 ++ rs2 ++ rs1 ++ f3 ++ off.extractLsb 4 1 ++ off.extractLsb 11 11 ++ op
def encU (imm : BitVec 20) (rd : RegIdx) (op : BitVec 7) : InstrWord := imm ++ rd ++ op
def encJ (off : BitVec 21) (rd : RegIdx) (op : BitVec 7) : InstrWord :=
  off.extractLsb 20 20 ++ off.extractLsb 10 1 ++ off.extractLsb 11 11 ++ off.extractLsb 19 12 ++ rd ++ op

/-- The word of an instruction (R73, R84 to R86). -/
def encode : Instr → InstrWord
  | .add rd rs1 rs2 => encR 0b0000000#7 rs2 rs1 0b000#3 rd 0b0110011#7
  | .sub rd rs1 rs2 => encR 0b0100000#7 rs2 rs1 0b000#3 rd 0b0110011#7
  | .sll rd rs1 rs2 => encR 0b0000000#7 rs2 rs1 0b001#3 rd 0b0110011#7
  | .slt rd rs1 rs2 => encR 0b0000000#7 rs2 rs1 0b010#3 rd 0b0110011#7
  | .sltu rd rs1 rs2 => encR 0b0000000#7 rs2 rs1 0b011#3 rd 0b0110011#7
  | .xor rd rs1 rs2 => encR 0b0000000#7 rs2 rs1 0b100#3 rd 0b0110011#7
  | .srl rd rs1 rs2 => encR 0b0000000#7 rs2 rs1 0b101#3 rd 0b0110011#7
  | .sra rd rs1 rs2 => encR 0b0100000#7 rs2 rs1 0b101#3 rd 0b0110011#7
  | .or rd rs1 rs2 => encR 0b0000000#7 rs2 rs1 0b110#3 rd 0b0110011#7
  | .and rd rs1 rs2 => encR 0b0000000#7 rs2 rs1 0b111#3 rd 0b0110011#7
  | .addi rd rs1 imm => encI imm rs1 0b000#3 rd 0b0010011#7
  | .slti rd rs1 imm => encI imm rs1 0b010#3 rd 0b0010011#7
  | .sltiu rd rs1 imm => encI imm rs1 0b011#3 rd 0b0010011#7
  | .xori rd rs1 imm => encI imm rs1 0b100#3 rd 0b0010011#7
  | .ori rd rs1 imm => encI imm rs1 0b110#3 rd 0b0010011#7
  | .andi rd rs1 imm => encI imm rs1 0b111#3 rd 0b0010011#7
  | .slli rd rs1 shamt => encShift64 0b000000#6 shamt rs1 0b001#3 rd 0b0010011#7
  | .srli rd rs1 shamt => encShift64 0b000000#6 shamt rs1 0b101#3 rd 0b0010011#7
  | .srai rd rs1 shamt => encShift64 0b010000#6 shamt rs1 0b101#3 rd 0b0010011#7
  | .addiw rd rs1 imm => encI imm rs1 0b000#3 rd 0b0011011#7
  | .slliw rd rs1 shamt => encR 0b0000000#7 shamt rs1 0b001#3 rd 0b0011011#7
  | .srliw rd rs1 shamt => encR 0b0000000#7 shamt rs1 0b101#3 rd 0b0011011#7
  | .sraiw rd rs1 shamt => encR 0b0100000#7 shamt rs1 0b101#3 rd 0b0011011#7
  | .addw rd rs1 rs2 => encR 0b0000000#7 rs2 rs1 0b000#3 rd 0b0111011#7
  | .subw rd rs1 rs2 => encR 0b0100000#7 rs2 rs1 0b000#3 rd 0b0111011#7
  | .sllw rd rs1 rs2 => encR 0b0000000#7 rs2 rs1 0b001#3 rd 0b0111011#7
  | .srlw rd rs1 rs2 => encR 0b0000000#7 rs2 rs1 0b101#3 rd 0b0111011#7
  | .sraw rd rs1 rs2 => encR 0b0100000#7 rs2 rs1 0b101#3 rd 0b0111011#7
  | .lui rd imm => encU imm rd 0b0110111#7
  | .auipc rd imm => encU imm rd 0b0010111#7
  | .lb rd rs1 imm => encI imm rs1 0b000#3 rd 0b0000011#7
  | .lh rd rs1 imm => encI imm rs1 0b001#3 rd 0b0000011#7
  | .lw rd rs1 imm => encI imm rs1 0b010#3 rd 0b0000011#7
  | .ld rd rs1 imm => encI imm rs1 0b011#3 rd 0b0000011#7
  | .lbu rd rs1 imm => encI imm rs1 0b100#3 rd 0b0000011#7
  | .lhu rd rs1 imm => encI imm rs1 0b101#3 rd 0b0000011#7
  | .lwu rd rs1 imm => encI imm rs1 0b110#3 rd 0b0000011#7
  | .sb rs1 rs2 imm => encS imm rs2 rs1 0b000#3 0b0100011#7
  | .sh rs1 rs2 imm => encS imm rs2 rs1 0b001#3 0b0100011#7
  | .sw rs1 rs2 imm => encS imm rs2 rs1 0b010#3 0b0100011#7
  | .sd rs1 rs2 imm => encS imm rs2 rs1 0b011#3 0b0100011#7
  | .beq rs1 rs2 off => encB off rs2 rs1 0b000#3 0b1100011#7
  | .bne rs1 rs2 off => encB off rs2 rs1 0b001#3 0b1100011#7
  | .blt rs1 rs2 off => encB off rs2 rs1 0b100#3 0b1100011#7
  | .bge rs1 rs2 off => encB off rs2 rs1 0b101#3 0b1100011#7
  | .bltu rs1 rs2 off => encB off rs2 rs1 0b110#3 0b1100011#7
  | .bgeu rs1 rs2 off => encB off rs2 rs1 0b111#3 0b1100011#7
  | .jal rd off => encJ off rd 0b1101111#7
  | .jalr rd rs1 imm => encI imm rs1 0b000#3 rd 0b1100111#7
  | .halt => haltWord
  | .nop => nopWord

/-! ### The opcode table as rows, for statements about the decoder -/

/-- A row of spec/opcode_table.json: a word is in the row when `w &&& mask = bits`. -/
structure TableRow where
  name : String
  mask : InstrWord
  bits : InstrWord
deriving DecidableEq, Repr

/-- The word is in the row. -/
def TableRow.covers (r : TableRow) (w : InstrWord) : Bool := w &&& r.mask == r.bits

/-- The two sentinel rows (R84, R85). -/
def sentinelRows : List TableRow :=
  [⟨"HALT", 0xFFFFFFFF#32, 0xFEEDFEED#32⟩, ⟨"NOP", 0xFFFFFFFF#32, 0x00000013#32⟩]

/-- Rows of R86: 41_alu_register.md. -/
def aluRows : List TableRow :=
  [⟨"ADD", 0xFE00707F#32, 0x00000033#32⟩,
   ⟨"SUB", 0xFE00707F#32, 0x40000033#32⟩,
   ⟨"SLL", 0xFE00707F#32, 0x00001033#32⟩,
   ⟨"SLT", 0xFE00707F#32, 0x00002033#32⟩,
   ⟨"SLTU", 0xFE00707F#32, 0x00003033#32⟩,
   ⟨"XOR", 0xFE00707F#32, 0x00004033#32⟩,
   ⟨"SRL", 0xFE00707F#32, 0x00005033#32⟩,
   ⟨"SRA", 0xFE00707F#32, 0x40005033#32⟩,
   ⟨"OR", 0xFE00707F#32, 0x00006033#32⟩,
   ⟨"AND", 0xFE00707F#32, 0x00007033#32⟩]

/-- Rows of R86: 42_alu_immediate.md. -/
def immRows : List TableRow :=
  [⟨"ADDI", 0x0000707F#32, 0x00000013#32⟩,
   ⟨"SLTI", 0x0000707F#32, 0x00002013#32⟩,
   ⟨"SLTIU", 0x0000707F#32, 0x00003013#32⟩,
   ⟨"XORI", 0x0000707F#32, 0x00004013#32⟩,
   ⟨"ORI", 0x0000707F#32, 0x00006013#32⟩,
   ⟨"ANDI", 0x0000707F#32, 0x00007013#32⟩,
   ⟨"SLLI", 0xFC00707F#32, 0x00001013#32⟩,
   ⟨"SRLI", 0xFC00707F#32, 0x00005013#32⟩,
   ⟨"SRAI", 0xFC00707F#32, 0x40005013#32⟩]

/-- Rows of R86: 43_alu_word.md. -/
def wordRows : List TableRow :=
  [⟨"ADDIW", 0x0000707F#32, 0x0000001B#32⟩,
   ⟨"SLLIW", 0xFE00707F#32, 0x0000101B#32⟩,
   ⟨"SRLIW", 0xFE00707F#32, 0x0000501B#32⟩,
   ⟨"SRAIW", 0xFE00707F#32, 0x4000501B#32⟩,
   ⟨"ADDW", 0xFE00707F#32, 0x0000003B#32⟩,
   ⟨"SUBW", 0xFE00707F#32, 0x4000003B#32⟩,
   ⟨"SLLW", 0xFE00707F#32, 0x0000103B#32⟩,
   ⟨"SRLW", 0xFE00707F#32, 0x0000503B#32⟩,
   ⟨"SRAW", 0xFE00707F#32, 0x4000503B#32⟩]

/-- Rows of R86: 44_upper_immediate.md, 45_loads_stores.md, 46_control_transfer.md. -/
def otherRows : List TableRow :=
  [⟨"LUI", 0x0000007F#32, 0x00000037#32⟩,
   ⟨"AUIPC", 0x0000007F#32, 0x00000017#32⟩,
   ⟨"LB", 0x0000707F#32, 0x00000003#32⟩,
   ⟨"LH", 0x0000707F#32, 0x00001003#32⟩,
   ⟨"LW", 0x0000707F#32, 0x00002003#32⟩,
   ⟨"LD", 0x0000707F#32, 0x00003003#32⟩,
   ⟨"LBU", 0x0000707F#32, 0x00004003#32⟩,
   ⟨"LHU", 0x0000707F#32, 0x00005003#32⟩,
   ⟨"LWU", 0x0000707F#32, 0x00006003#32⟩,
   ⟨"SB", 0x0000707F#32, 0x00000023#32⟩,
   ⟨"SH", 0x0000707F#32, 0x00001023#32⟩,
   ⟨"SW", 0x0000707F#32, 0x00002023#32⟩,
   ⟨"SD", 0x0000707F#32, 0x00003023#32⟩,
   ⟨"BEQ", 0x0000707F#32, 0x00000063#32⟩,
   ⟨"BNE", 0x0000707F#32, 0x00001063#32⟩,
   ⟨"BLT", 0x0000707F#32, 0x00004063#32⟩,
   ⟨"BGE", 0x0000707F#32, 0x00005063#32⟩,
   ⟨"BLTU", 0x0000707F#32, 0x00006063#32⟩,
   ⟨"BGEU", 0x0000707F#32, 0x00007063#32⟩,
   ⟨"JAL", 0x0000007F#32, 0x0000006F#32⟩,
   ⟨"JALR", 0x0000707F#32, 0x00000067#32⟩]

/-- The 49 rows of R86. -/
def legalRows : List TableRow := aluRows ++ immRows ++ wordRows ++ otherRows

end Sys2Proof
end

