-- ==== Sys2Proof/Machine/State.lean ====
section
/-! DEFINITION. The state of the machine as plain data, its reset, and the reasons a step can stop
(10_state.md R19 to R44). -/

namespace Sys2Proof.Machine

/-- The run-status register (10_state.md R29). -/
inductive RunStatus where
  | running
  | halt
  | illegal
deriving DecidableEq, Repr

/-- The two run modes (00_scope.md R18). The run-mode variable of 10_state.md R39 is an `Option RunMode`: `none` is
NONE. -/
inductive RunMode where
  | functional
  | pipelined
deriving DecidableEq, Repr

/-- The classification flags of an instruction record (10_state.md R30, 30_encoding.md R88). -/
structure Flags where
  legal     : Bool
  halt      : Bool
  nop       : Bool
  readsMem  : Bool
  writesMem : Bool
  doesArith : Bool
  writesRd  : Bool
  readsRs1  : Bool
  readsRs2  : Bool
deriving DecidableEq, Repr

/-- The instruction record (10_state.md R30). `raw = none` is the mark NOWORD, and then there are no decoded fields
(log 11). `op` is the mnemonic field, with the operands decoded: `none` is ILLEGAL. The stage-status tag is in
`Slot`. -/
structure Record where
  pc          : Word
  raw         : Option InstrWord
  fields      : Option Fields
  op          : Option Instr
  flags       : Flags
  operand1    : Word
  operand2    : Word
  arithResult : Word
  memAddress  : Word
  memResult   : Word
  nextPc      : Word
  dynId       : Nat
  fetchFault  : Bool
  memFault    : Bool
deriving DecidableEq, Repr

/-- The stage-status tag of a slot that holds an instruction (10_state.md R32). -/
inductive Tag where
  | normal
  | speculative
  | squashed
deriving DecidableEq, Repr

/-- A pipeline slot (10_state.md R32, R33): "A BUBBLE or IDLE slot holds no instruction". -/
inductive Slot where
  | idle
  | bubble
  | full (tag : Tag) (r : Record)
deriving DecidableEq, Repr

/-- A cache (10_state.md R38, R40): per set index the resident tags, most recently used last, as a list of
(index, tags) in rising order that lists no empty set (log 13); and its two counters. -/
structure Cache where
  sets   : List (Nat × List Nat)
  hits   : Nat
  misses : Nat
deriving DecidableEq, Repr

/-- The machine. Every field names its rule of 10_state.md. -/
structure State where
  /-- R28: the instruction cache's configuration. -/
  ic             : CacheConfig
  /-- R28: the data cache's configuration. -/
  dc             : CacheConfig
  /-- R28: EXC_HANDLER_ADDR. -/
  excHandlerAddr : Word
  /-- R28: MEM_SIZE. -/
  memSize        : Nat
  /-- R19: x0 .. x31; read and written through `State.readReg` and `State.writeReg` only (R20). -/
  regs           : Vector Word 32
  /-- R23: the functional program counter. -/
  pc             : Word
  /-- R24: PC, the fetch program counter of pipelined mode. -/
  fetchPc        : Word
  /-- R29. -/
  status         : RunStatus
  /-- R39: `none` is NONE. -/
  mode           : Option RunMode
  /-- R33. -/
  slotIF         : Slot
  /-- R33. -/
  slotID         : Slot
  /-- R33. -/
  slotEX         : Slot
  /-- R33. -/
  slotMEM        : Slot
  /-- R33. -/
  slotWB         : Slot
  /-- R33: edges since reset. -/
  cycle          : Nat
  /-- R34. -/
  iStall         : Nat
  /-- R35. -/
  dStall         : Nat
  /-- R36: sticky. -/
  excRaised      : Bool
  /-- R37. -/
  fetchStopped   : Bool
  /-- R38. -/
  dynInstrCount  : Nat
  /-- R38. -/
  loadUseStalls  : Nat
  /-- R38; also the counter the free values of a new record are applied to (log 10). -/
  nextDynId      : Nat
  /-- R38, R40: the instruction cache's tags and counters. -/
  icache         : Cache
  /-- R38, R40: the data cache's tags and counters. -/
  dcache         : Cache
  /-- R41: the memory store, in the canonical form `Memory.wf` of Machine/Ops.lean. -/
  mem            : List Host.Cell
deriving DecidableEq, Repr

/-- Why an access of the memory store fails. No step of the machine stops with a fault: `step` and `exec` turn this
into the exception the spec describes (60_exceptions.md R162), so the type's one use is inside the machine. -/
inductive Fault where
  /-- The range error of 20_memory.md R46, answered by `State.memRead` and `State.memWrite`. Safe: it is what the spec
  says the memory store reports. -/
  | rangeError
deriving DecidableEq, Repr

/-- Why the machine refuses what it is asked. -/
inductive Refusal where
  /-- Answered by an arm of `exec` for an instruction with no meaning yet; no arm answers it. Safe. -/
  | notModelled (mnemonic : String)
  /-- CONFIG_ERROR (70_reset_and_hazards.md R185): `step` and the run commands, when a cache configuration is not
  legal; nothing changes. Safe: the spec refuses the command. -/
  | configError
  /-- MODE_ERROR (70_reset_and_hazards.md R186): a run command of the other mode; nothing changes. Safe: the spec
  refuses the command. -/
  | modeError
  /-- A `loadImage` that would place a byte out of range (20_memory.md R50); nothing changes. Safe: the spec rejects
  the load. -/
  | imageOutOfRange
deriving DecidableEq, Repr

/-- An empty cache with zero counters (10_state.md R44). -/
def Cache.empty : Cache := ⟨[], 0, 0⟩

/-- The machine right after reset (10_state.md R44, 70_reset_and_hazards.md R182) with the configuration and the open
boot parameters of Config.lean (DESIGN CHOICE, log 1 to 4). The reset command for any parameters is
`State.hostReset`. -/
def State.reset : State where
  ic             := Configuration.default.ic
  dc             := Configuration.default.dc
  excHandlerAddr := Configuration.default.excHandlerAddr
  memSize        := Configuration.default.memSize
  regs           := BootParams.default.initRegs
  pc             := BootParams.default.resetPc
  fetchPc        := BootParams.default.resetPc
  status         := .running
  mode           := none
  slotIF         := .idle
  slotID         := .idle
  slotEX         := .idle
  slotMEM        := .idle
  slotWB         := .idle
  cycle          := 0
  iStall         := 0
  dStall         := 0
  excRaised      := false
  fetchStopped   := false
  dynInstrCount  := 0
  loadUseStalls  := 0
  nextDynId      := 0
  icache         := Cache.empty
  dcache         := Cache.empty
  mem            := []

end Sys2Proof.Machine
end

