-- ==== Sys2Proof/Machine/Ops.lean ====
section
/-! DEFINITION. The named operations over registers, memory and the run status that every meaning uses:
registers (10_state.md R20), the memory store (20_memory.md R45 to R49), taking an exception
(60_exceptions.md R162 to R167) and retiring an instruction (30_encoding.md R92, R93). -/

namespace Sys2Proof.Machine

/-- What `step` and every meaning answer. -/
abbrev StepResult := Host.Outcome State Fault Refusal

/-! ### Sparse tables: sorted lists that list no default value -/

/-- The value at key `k`; a key not listed has the value `d`. -/
def sparseGet {α : Type} (d : α) : List (Nat × α) → Nat → α
  | [], _ => d
  | (k', v) :: t, k => if k' = k then v else sparseGet d t k

/-- Set the value at key `k`, keeping the keys rising and listing no `d`. -/
def sparsePut {α : Type} [DecidableEq α] (d : α) (k : Nat) (v : α) : List (Nat × α) → List (Nat × α)
  | [] => if v = d then [] else [(k, v)]
  | (k', v') :: t =>
    if k < k' then (if v = d then (k', v') :: t else (k, v) :: (k', v') :: t)
    else if k = k' then (if v = d then t else (k, v) :: t)
    else (k', v') :: sparsePut d k v t

/-- The canonical form: keys strictly rising, no value `d` listed. -/
def sparseWf {α : Type} [DecidableEq α] (d : α) (l : List (Nat × α)) : Bool :=
  decide ((l.map Prod.fst).Pairwise (· < ·)) && l.all (fun p => decide (p.2 ≠ d))

/-! ### The memory store -/

/-- The canonical form of memory: addresses strictly rising and no entry equal to what an unlisted address reads as. -/
def Memory.wf (m : List Host.Cell) : Bool := sparseWf unlistedByte m

/-- One byte of memory. -/
def Memory.byte (m : List Host.Cell) (a : Nat) : Byte := sparseGet unlistedByte m a

/-- Write one byte of memory. -/
def Memory.setByte (m : List Host.Cell) (a : Nat) (b : Byte) : List Host.Cell := sparsePut unlistedByte a b m

/-- The `n` bytes at `a`, little-endian, in the low `8n` bits (20_memory.md R47). -/
def Memory.load (m : List Host.Cell) (a : Nat) : Nat → Word
  | 0 => 0#64
  | n + 1 => (Memory.load m (a + 1) n <<< 8) ||| (Memory.byte m a).setWidth 64

/-- Write the low `8n` bits of `v` at `a`, little-endian (20_memory.md R48). -/
def Memory.store (m : List Host.Cell) (a : Nat) : Nat → Word → List Host.Cell
  | 0, _ => m
  | n + 1, v => Memory.store (Memory.setByte m a (v.setWidth 8)) (a + 1) n (v >>> 8)

/-- Write a list of bytes from address `a` up. -/
def Memory.putBytes (m : List Host.Cell) (a : Nat) : List Byte → List Host.Cell
  | [] => m
  | b :: bs => Memory.putBytes (Memory.setByte m a b) (a + 1) bs

/-- One byte of the machine's memory. -/
def State.readByte (s : State) (a : Nat) : Byte := Memory.byte s.mem a

/-- An access of `n` bytes at `a` is in range (20_memory.md R46); the sum is unbounded. -/
def State.inRange (s : State) (a : Word) (n : Nat) : Bool := decide (a.toNat + n ≤ s.memSize)

/-- `MemRead(a, n)` (20_memory.md R46, R47). -/
def State.memRead (s : State) (a : Word) (n : Nat) : Except Fault Word :=
  if s.inRange a n then .ok (Memory.load s.mem a.toNat n) else .error .rangeError

/-- `MemWrite(a, n, v)` (20_memory.md R46, R48). -/
def State.memWrite (s : State) (a : Word) (n : Nat) (v : Word) : Except Fault State :=
  if s.inRange a n then .ok { s with mem := Memory.store s.mem a.toNat n v } else .error .rangeError

/-- The instruction-fetch port (10_state.md R42(a)): the four bytes at `a` (20_memory.md R49). -/
def State.fetchWord (s : State) (a : Word) : Except Fault InstrWord :=
  (s.memRead a 4).map (fun v => v.setWidth 32)

/-! ### Registers -/

/-- Read register `r`; x0 reads 0 (10_state.md R20). -/
def State.readReg (s : State) (r : RegIdx) : Word :=
  if r = 0#5 then 0#64 else s.regs[r.toNat]'r.isLt

/-- Write register `r`; a write to x0 is discarded (10_state.md R20). -/
def State.writeReg (s : State) (r : RegIdx) (v : Word) : State :=
  if r = 0#5 then s else { s with regs := s.regs.set r.toNat v r.isLt }

/-! ### Exceptions -/

/-- The three kinds of exception (60_exceptions.md R162). -/
inductive ExcKind where
  | illegalInstruction
  | fetchRange
  | memoryRange
deriving DecidableEq, Repr

/-- The numbers the spec gives the kinds for reporting; no rule reads them (60_exceptions.md R163). -/
def ExcKind.number : ExcKind → Nat
  | .illegalInstruction => 1
  | .fetchRange => 2
  | .memoryRange => 3

/-- Take an exception. In functional mode the run stops with status ILLEGAL and nothing else changes
(30_encoding.md R93). In pipelined mode control goes to EXC_HANDLER_ADDR, the pending fetch is cancelled and the
sticky flag is set; a MEMORY_RANGE exception also restarts fetching; nothing is saved (60_exceptions.md R164 to R167).
The pipeline squashes the records behind and fetches the handler itself (Machine/Pipeline.lean). There is no return
from an exception (60_exceptions.md R170), so no operation undoes this one. -/
def State.takeException (m : RunMode) (k : ExcKind) (s : State) : State :=
  match m with
  | .functional => { s with status := .illegal }
  | .pipelined =>
    { s with
      fetchPc := s.excHandlerAddr
      iStall := 0
      excRaised := true
      fetchStopped := if k = .memoryRange then false else s.fetchStopped }

/-! ### Completing an instruction in functional mode (30_encoding.md R92, R93) -/

/-- `pc + 4` modulo 2^64: the default successor and the link value (46_control_transfer.md R146, R154). -/
def pcPlus4 (pc : Word) : Word := pc + 4#64

/-- Go on at `npc` and count the instruction. -/
def State.finish (s : State) (npc : Word) : State :=
  { s with pc := npc, dynInstrCount := s.dynInstrCount + 1 }

/-- Commit `v` to `rd`, go on at `npc` and count the instruction. -/
def State.commit (s : State) (rd : RegIdx) (v npc : Word) : State :=
  (s.writeReg rd v).finish npc

/-- Commit `v` to `rd` and go on at the default successor `pc + 4` (46_control_transfer.md R146). -/
def State.commitNext (s : State) (rd : RegIdx) (v : Word) : State :=
  s.commit rd v (pcPlus4 s.pc)

end Sys2Proof.Machine
end

