-- ==== Sys2Proof/Machine/Alu.lean ====
section
/-! DEFINITION. The arithmetic and logic of families 41 to 43, one function per operation. The register and the
immediate form of an operation, in functional and in pipelined mode, share the function. -/

namespace Sys2Proof.Machine

/-- `low32(v)` (00_scope.md R14). -/
def low32 (v : Word) : BitVec 32 := v.setWidth 32

/-- `sext_64(r32, 32)` (43_alu_word.md R118). -/
def sextWord (r : BitVec 32) : Word := r.signExtend 64

/-- The shift amount of a 64-bit register shift, `v[5:0]` (30_encoding.md R81). -/
def shiftAmount64 (v : Word) : BitVec 6 := v.setWidth 6

/-- The shift amount of a word register shift, `v[4:0]` (30_encoding.md R81). -/
def shiftAmount32 (v : Word) : BitVec 5 := v.setWidth 5

/-- A comparison's result, 1 or 0. -/
def boolWord (b : Bool) : Word := if b then 1#64 else 0#64

/-- R97, R109. -/
def aluAdd (a b : Word) : Word := a + b
/-- R98. -/
def aluSub (a b : Word) : Word := a - b
/-- R99, R115. -/
def aluSll (a : Word) (sh : BitVec 6) : Word := a <<< sh.toNat
/-- R100, R110: signed. -/
def aluSlt (a b : Word) : Word := boolWord (a.slt b)
/-- R101, R111: unsigned. -/
def aluSltu (a b : Word) : Word := boolWord (a.ult b)
/-- R102, R112. -/
def aluXor (a b : Word) : Word := a ^^^ b
/-- R103, R116. -/
def aluSrl (a : Word) (sh : BitVec 6) : Word := a >>> sh.toNat
/-- R104, R117. -/
def aluSra (a : Word) (sh : BitVec 6) : Word := a.sshiftRight sh.toNat
/-- R105, R113. -/
def aluOr (a b : Word) : Word := a ||| b
/-- R106, R114. -/
def aluAnd (a b : Word) : Word := a &&& b
/-- R119, R123. -/
def aluAddw (a b : Word) : Word := sextWord (low32 a + low32 b)
/-- R124. -/
def aluSubw (a b : Word) : Word := sextWord (low32 a - low32 b)
/-- R120, R125. -/
def aluSllw (a : Word) (sh : BitVec 5) : Word := sextWord (low32 a <<< sh.toNat)
/-- R121, R126. -/
def aluSrlw (a : Word) (sh : BitVec 5) : Word := sextWord (low32 a >>> sh.toNat)
/-- R122, R127: bit 31 is the sign. -/
def aluSraw (a : Word) (sh : BitVec 5) : Word := sextWord ((low32 a).sshiftRight sh.toNat)

end Sys2Proof.Machine
end

