-- ==== Sys2Proof/Machine/Operands.lean ====
section
/-! DEFINITION. The operand forms: immediates (30_encoding.md R76 to R80), the one addressing mode
(45_loads_stores.md R130), widths and extension of loads (R53, R132), branch conditions (46_control_transfer.md R147)
and jump targets. -/

namespace Sys2Proof.Machine

/-- R76: the I-immediate. -/
def immI (imm : BitVec 12) : Word := imm.signExtend 64
/-- R77: the S-immediate. -/
def immS (imm : BitVec 12) : Word := imm.signExtend 64
/-- R78: the branch offset. -/
def immB (off : BitVec 13) : Word := off.signExtend 64
/-- R79: the U-immediate, `sext_64({imm20, 12'b0}, 32)`. -/
def immU (imm : BitVec 20) : Word := (imm ++ 0#12).signExtend 64
/-- R80: the JAL offset. -/
def immJ (off : BitVec 21) : Word := off.signExtend 64

/-- The address of a load (R130). -/
def loadAddress (base : Word) (imm : BitVec 12) : Word := base + immI imm
/-- The address of a store (R130). -/
def storeAddress (base : Word) (imm : BitVec 12) : Word := base + immS imm

/-- A loaded `8n`-bit value, sign-extended (R132). -/
def signedLoad (n : Nat) (v : Word) : Word := (v.setWidth (8 * n)).signExtend 64
/-- A loaded `8n`-bit value, zero-extended (R132). -/
def unsignedLoad (n : Nat) (v : Word) : Word := (v.setWidth (8 * n)).setWidth 64

/-- R148. -/
def condEq (a b : Word) : Bool := a == b
/-- R149. -/
def condNe (a b : Word) : Bool := a != b
/-- R150: signed. -/
def condLt (a b : Word) : Bool := a.slt b
/-- R151: signed. -/
def condGe (a b : Word) : Bool := !a.slt b
/-- R152: unsigned. -/
def condLtu (a b : Word) : Bool := a.ult b
/-- R153: unsigned. -/
def condGeu (a b : Word) : Bool := !a.ult b

/-- R147: the target of a taken branch or the fall-through. -/
def branchTarget (cond : Bool) (pc : Word) (off : BitVec 13) : Word :=
  if cond then pc + immB off else pcPlus4 pc
/-- R154. -/
def jalTarget (pc : Word) (off : BitVec 21) : Word := pc + immJ off
/-- R155: bit 0 is cleared. -/
def jalrTarget (base : Word) (imm : BitVec 12) : Word := (base + immI imm) &&& ~~~(1#64)
/-- R128. -/
def luiValue (imm : BitVec 20) : Word := immU imm
/-- R129. -/
def auipcValue (pc : Word) (imm : BitVec 20) : Word := pc + immU imm

end Sys2Proof.Machine
end

