-- ==== Sys2Proof/Machine/Flags.lean ====
section
/-! DEFINITION. The classification flags (30_encoding.md R88). The core has no condition flags (10_state.md R26): these
are outputs of decode, and no instruction reads or writes them. -/

namespace Sys2Proof.Machine

/-- The classes of R88. -/
inductive InstrClass where
  | regReg | regImm | upper | load | store | branch | jal | jalr | halt | nop
deriving DecidableEq, Repr

/-- The class of an instruction (R88). -/
def classOf : Instr → InstrClass
  | .add _ _ _ => .regReg
  | .sub _ _ _ => .regReg
  | .sll _ _ _ => .regReg
  | .slt _ _ _ => .regReg
  | .sltu _ _ _ => .regReg
  | .xor _ _ _ => .regReg
  | .srl _ _ _ => .regReg
  | .sra _ _ _ => .regReg
  | .or _ _ _ => .regReg
  | .and _ _ _ => .regReg
  | .addi _ _ _ => .regImm
  | .slti _ _ _ => .regImm
  | .sltiu _ _ _ => .regImm
  | .xori _ _ _ => .regImm
  | .ori _ _ _ => .regImm
  | .andi _ _ _ => .regImm
  | .slli _ _ _ => .regImm
  | .srli _ _ _ => .regImm
  | .srai _ _ _ => .regImm
  | .addiw _ _ _ => .regImm
  | .slliw _ _ _ => .regImm
  | .srliw _ _ _ => .regImm
  | .sraiw _ _ _ => .regImm
  | .addw _ _ _ => .regReg
  | .subw _ _ _ => .regReg
  | .sllw _ _ _ => .regReg
  | .srlw _ _ _ => .regReg
  | .sraw _ _ _ => .regReg
  | .lui _ _ => .upper
  | .auipc _ _ => .upper
  | .lb _ _ _ => .load
  | .lh _ _ _ => .load
  | .lw _ _ _ => .load
  | .ld _ _ _ => .load
  | .lbu _ _ _ => .load
  | .lhu _ _ _ => .load
  | .lwu _ _ _ => .load
  | .sb _ _ _ => .store
  | .sh _ _ _ => .store
  | .sw _ _ _ => .store
  | .sd _ _ _ => .store
  | .beq _ _ _ => .branch
  | .bne _ _ _ => .branch
  | .blt _ _ _ => .branch
  | .bge _ _ _ => .branch
  | .bltu _ _ _ => .branch
  | .bgeu _ _ _ => .branch
  | .jal _ _ => .jal
  | .jalr _ _ _ => .jalr
  | .halt => .halt
  | .nop => .nop

/-- No flag set: the ILLEGAL row of R88 and the NOWORD record of 60_exceptions.md R165. -/
def noFlags : Flags := ⟨false, false, false, false, false, false, false, false, false⟩

/-- The table of R88, row by row. -/
def classFlags : InstrClass → Flags
  | .regReg => { noFlags with legal := true, readsRs1 := true, readsRs2 := true, writesRd := true, doesArith := true }
  | .regImm => { noFlags with legal := true, readsRs1 := true, writesRd := true, doesArith := true }
  | .upper  => { noFlags with legal := true, writesRd := true, doesArith := true }
  | .load   => { noFlags with legal := true, readsRs1 := true, writesRd := true, readsMem := true }
  | .store  => { noFlags with legal := true, readsRs1 := true, readsRs2 := true, writesMem := true }
  | .branch => { noFlags with legal := true, readsRs1 := true, readsRs2 := true }
  | .jal    => { noFlags with legal := true, writesRd := true }
  | .jalr   => { noFlags with legal := true, readsRs1 := true, writesRd := true }
  | .halt   => { noFlags with legal := true, halt := true }
  | .nop    => { noFlags with legal := true, nop := true }

/-- The flags of a decoded operation; `none` is ILLEGAL (R87, R88). -/
def flagsOf : Option Instr → Flags
  | some i => classFlags (classOf i)
  | none   => noFlags

/-- The derived predicate `isControl` (R88): the six branches, JAL and JALR. -/
def isControl (i : Instr) : Bool :=
  match classOf i with
  | .branch | .jal | .jalr => true
  | .regReg | .regImm | .upper | .load | .store | .halt | .nop => false

end Sys2Proof.Machine
end

