-- ==== Sys2Proof/Machine/AluImmediate.lean ====
section
/-! DEFINITION. Register-immediate arithmetic and logic (42_alu_immediate.md R108 to R117). -/

namespace Sys2Proof.Machine

/-- ADDI (R109). -/
def execAddi (rd rs1 : RegIdx) (imm : BitVec 12) (s : State) : StepResult :=
  .next (s.commitNext rd (aluAdd (s.readReg rs1) (immI imm)))

/-- SLTI (R110). -/
def execSlti (rd rs1 : RegIdx) (imm : BitVec 12) (s : State) : StepResult :=
  .next (s.commitNext rd (aluSlt (s.readReg rs1) (immI imm)))

/-- SLTIU (R111). -/
def execSltiu (rd rs1 : RegIdx) (imm : BitVec 12) (s : State) : StepResult :=
  .next (s.commitNext rd (aluSltu (s.readReg rs1) (immI imm)))

/-- XORI (R112). -/
def execXori (rd rs1 : RegIdx) (imm : BitVec 12) (s : State) : StepResult :=
  .next (s.commitNext rd (aluXor (s.readReg rs1) (immI imm)))

/-- ORI (R113). -/
def execOri (rd rs1 : RegIdx) (imm : BitVec 12) (s : State) : StepResult :=
  .next (s.commitNext rd (aluOr (s.readReg rs1) (immI imm)))

/-- ANDI (R114). -/
def execAndi (rd rs1 : RegIdx) (imm : BitVec 12) (s : State) : StepResult :=
  .next (s.commitNext rd (aluAnd (s.readReg rs1) (immI imm)))

/-- SLLI (R115). -/
def execSlli (rd rs1 : RegIdx) (shamt : BitVec 6) (s : State) : StepResult :=
  .next (s.commitNext rd (aluSll (s.readReg rs1) shamt))

/-- SRLI (R116). -/
def execSrli (rd rs1 : RegIdx) (shamt : BitVec 6) (s : State) : StepResult :=
  .next (s.commitNext rd (aluSrl (s.readReg rs1) shamt))

/-- SRAI (R117). -/
def execSrai (rd rs1 : RegIdx) (shamt : BitVec 6) (s : State) : StepResult :=
  .next (s.commitNext rd (aluSra (s.readReg rs1) shamt))

end Sys2Proof.Machine
end

