-- ==== Sys2Proof/Machine/AluRegister.lean ====
section
/-! DEFINITION. Register-register arithmetic and logic (41_alu_register.md R96 to R107): both operands are read before
`rd` is written. -/

namespace Sys2Proof.Machine

/-- ADD (R97). -/
def execAdd (rd rs1 rs2 : RegIdx) (s : State) : StepResult :=
  .next (s.commitNext rd (aluAdd (s.readReg rs1) (s.readReg rs2)))

/-- SUB (R98). -/
def execSub (rd rs1 rs2 : RegIdx) (s : State) : StepResult :=
  .next (s.commitNext rd (aluSub (s.readReg rs1) (s.readReg rs2)))

/-- SLL (R99). -/
def execSll (rd rs1 rs2 : RegIdx) (s : State) : StepResult :=
  .next (s.commitNext rd (aluSll (s.readReg rs1) (shiftAmount64 (s.readReg rs2))))

/-- SLT (R100). -/
def execSlt (rd rs1 rs2 : RegIdx) (s : State) : StepResult :=
  .next (s.commitNext rd (aluSlt (s.readReg rs1) (s.readReg rs2)))

/-- SLTU (R101). -/
def execSltu (rd rs1 rs2 : RegIdx) (s : State) : StepResult :=
  .next (s.commitNext rd (aluSltu (s.readReg rs1) (s.readReg rs2)))

/-- XOR (R102). -/
def execXor (rd rs1 rs2 : RegIdx) (s : State) : StepResult :=
  .next (s.commitNext rd (aluXor (s.readReg rs1) (s.readReg rs2)))

/-- SRL (R103). -/
def execSrl (rd rs1 rs2 : RegIdx) (s : State) : StepResult :=
  .next (s.commitNext rd (aluSrl (s.readReg rs1) (shiftAmount64 (s.readReg rs2))))

/-- SRA (R104). -/
def execSra (rd rs1 rs2 : RegIdx) (s : State) : StepResult :=
  .next (s.commitNext rd (aluSra (s.readReg rs1) (shiftAmount64 (s.readReg rs2))))

/-- OR (R105). -/
def execOr (rd rs1 rs2 : RegIdx) (s : State) : StepResult :=
  .next (s.commitNext rd (aluOr (s.readReg rs1) (s.readReg rs2)))

/-- AND (R106). -/
def execAnd (rd rs1 rs2 : RegIdx) (s : State) : StepResult :=
  .next (s.commitNext rd (aluAnd (s.readReg rs1) (s.readReg rs2)))

end Sys2Proof.Machine
end

