-- ==== Sys2Proof/Machine/AluWord.lean ====
section
/-! DEFINITION. 32-bit-word arithmetic (43_alu_word.md R118 to R127). -/

namespace Sys2Proof.Machine

/-- ADDIW (R119). -/
def execAddiw (rd rs1 : RegIdx) (imm : BitVec 12) (s : State) : StepResult :=
  .next (s.commitNext rd (aluAddw (s.readReg rs1) (immI imm)))

/-- SLLIW (R120). -/
def execSlliw (rd rs1 : RegIdx) (shamt : BitVec 5) (s : State) : StepResult :=
  .next (s.commitNext rd (aluSllw (s.readReg rs1) shamt))

/-- SRLIW (R121). -/
def execSrliw (rd rs1 : RegIdx) (shamt : BitVec 5) (s : State) : StepResult :=
  .next (s.commitNext rd (aluSrlw (s.readReg rs1) shamt))

/-- SRAIW (R122). -/
def execSraiw (rd rs1 : RegIdx) (shamt : BitVec 5) (s : State) : StepResult :=
  .next (s.commitNext rd (aluSraw (s.readReg rs1) shamt))

/-- ADDW (R123). -/
def execAddw (rd rs1 rs2 : RegIdx) (s : State) : StepResult :=
  .next (s.commitNext rd (aluAddw (s.readReg rs1) (s.readReg rs2)))

/-- SUBW (R124). -/
def execSubw (rd rs1 rs2 : RegIdx) (s : State) : StepResult :=
  .next (s.commitNext rd (aluSubw (s.readReg rs1) (s.readReg rs2)))

/-- SLLW (R125). -/
def execSllw (rd rs1 rs2 : RegIdx) (s : State) : StepResult :=
  .next (s.commitNext rd (aluSllw (s.readReg rs1) (shiftAmount32 (s.readReg rs2))))

/-- SRLW (R126). -/
def execSrlw (rd rs1 rs2 : RegIdx) (s : State) : StepResult :=
  .next (s.commitNext rd (aluSrlw (s.readReg rs1) (shiftAmount32 (s.readReg rs2))))

/-- SRAW (R127). -/
def execSraw (rd rs1 rs2 : RegIdx) (s : State) : StepResult :=
  .next (s.commitNext rd (aluSraw (s.readReg rs1) (shiftAmount32 (s.readReg rs2))))

end Sys2Proof.Machine
end

