-- ==== Sys2Proof/Machine/ControlTransfer.lean ====
section
/-! DEFINITION. Control transfer (46_control_transfer.md R146 to R157). No target is checked (R156). -/

namespace Sys2Proof.Machine

/-- A conditional branch (R147): it writes no register and no memory. -/
def branchIf (cond : Word → Word → Bool) (rs1 rs2 : RegIdx) (off : BitVec 13) (s : State) : StepResult :=
  .next (s.finish (branchTarget (cond (s.readReg rs1) (s.readReg rs2)) s.pc off))

/-- BEQ (R148). -/
def execBeq (rs1 rs2 : RegIdx) (off : BitVec 13) (s : State) : StepResult :=
  branchIf condEq rs1 rs2 off s

/-- BNE (R149). -/
def execBne (rs1 rs2 : RegIdx) (off : BitVec 13) (s : State) : StepResult :=
  branchIf condNe rs1 rs2 off s

/-- BLT (R150). -/
def execBlt (rs1 rs2 : RegIdx) (off : BitVec 13) (s : State) : StepResult :=
  branchIf condLt rs1 rs2 off s

/-- BGE (R151). -/
def execBge (rs1 rs2 : RegIdx) (off : BitVec 13) (s : State) : StepResult :=
  branchIf condGe rs1 rs2 off s

/-- BLTU (R152). -/
def execBltu (rs1 rs2 : RegIdx) (off : BitVec 13) (s : State) : StepResult :=
  branchIf condLtu rs1 rs2 off s

/-- BGEU (R153). -/
def execBgeu (rs1 rs2 : RegIdx) (off : BitVec 13) (s : State) : StepResult :=
  branchIf condGeu rs1 rs2 off s

/-- JAL (R154). The link value is its own pc + 4. -/
def execJal (rd : RegIdx) (off : BitVec 21) (s : State) : StepResult :=
  .next (s.commit rd (pcPlus4 s.pc) (jalTarget s.pc off))

/-- JALR (R155). The target uses the old value of `rs1`, also when `rd = rs1`. -/
def execJalr (rd rs1 : RegIdx) (imm : BitVec 12) (s : State) : StepResult :=
  .next (s.commit rd (pcPlus4 s.pc) (jalrTarget (s.readReg rs1) imm))

end Sys2Proof.Machine
end

