-- ==== Sys2Proof/Machine/LoadsStores.lean ====
section
/-! DEFINITION. Loads and stores (45_loads_stores.md R130 to R144). -/

namespace Sys2Proof.Machine

/-- A load of `n` bytes (R130 to R132): the address is computed from the old base; an access out of range raises
MEMORY_RANGE and writes nothing (R131). A load to x0 still reads memory. -/
def loadInto (n : Nat) (ext : Word → Word) (rd rs1 : RegIdx) (imm : BitVec 12) (s : State) : StepResult :=
  match s.memRead (loadAddress (s.readReg rs1) imm) n with
  | .ok v    => .next (s.commitNext rd (ext v))
  | .error _ => .next (s.takeException .functional .memoryRange)

/-- A store of the low `8n` bits of `rs2` (R130, R131, R140). -/
def storeFrom (n : Nat) (rs1 rs2 : RegIdx) (imm : BitVec 12) (s : State) : StepResult :=
  match s.memWrite (storeAddress (s.readReg rs1) imm) n (s.readReg rs2) with
  | .ok t    => .next (t.finish (pcPlus4 s.pc))
  | .error _ => .next (s.takeException .functional .memoryRange)

/-- LB (R133). -/
def execLb (rd rs1 : RegIdx) (imm : BitVec 12) (s : State) : StepResult :=
  loadInto 1 (signedLoad 1) rd rs1 imm s

/-- LH (R134). -/
def execLh (rd rs1 : RegIdx) (imm : BitVec 12) (s : State) : StepResult :=
  loadInto 2 (signedLoad 2) rd rs1 imm s

/-- LW (R135). -/
def execLw (rd rs1 : RegIdx) (imm : BitVec 12) (s : State) : StepResult :=
  loadInto 4 (signedLoad 4) rd rs1 imm s

/-- LD (R136). -/
def execLd (rd rs1 : RegIdx) (imm : BitVec 12) (s : State) : StepResult :=
  loadInto 8 (signedLoad 8) rd rs1 imm s

/-- LBU (R137). -/
def execLbu (rd rs1 : RegIdx) (imm : BitVec 12) (s : State) : StepResult :=
  loadInto 1 (unsignedLoad 1) rd rs1 imm s

/-- LHU (R138). -/
def execLhu (rd rs1 : RegIdx) (imm : BitVec 12) (s : State) : StepResult :=
  loadInto 2 (unsignedLoad 2) rd rs1 imm s

/-- LWU (R139). -/
def execLwu (rd rs1 : RegIdx) (imm : BitVec 12) (s : State) : StepResult :=
  loadInto 4 (unsignedLoad 4) rd rs1 imm s

/-- SB (R141). -/
def execSb (rs1 rs2 : RegIdx) (imm : BitVec 12) (s : State) : StepResult :=
  storeFrom 1 rs1 rs2 imm s

/-- SH (R142). -/
def execSh (rs1 rs2 : RegIdx) (imm : BitVec 12) (s : State) : StepResult :=
  storeFrom 2 rs1 rs2 imm s

/-- SW (R143). -/
def execSw (rs1 rs2 : RegIdx) (imm : BitVec 12) (s : State) : StepResult :=
  storeFrom 4 rs1 rs2 imm s

/-- SD (R144). -/
def execSd (rs1 rs2 : RegIdx) (imm : BitVec 12) (s : State) : StepResult :=
  storeFrom 8 rs1 rs2 imm s

end Sys2Proof.Machine
end

