-- ==== Sys2Proof/Machine/Sentinels.lean ====
section
/-! DEFINITION. The sentinels (47_sentinels.md R158, R159), in functional mode. -/

namespace Sys2Proof.Machine

/-- HALT (R158). The pc keeps the address of the halt. -/
def execHalt (s : State) : StepResult :=
  .next { s with status := .halt, dynInstrCount := s.dynInstrCount + 1 }

/-- NOP (R159). -/
def execNop (s : State) : StepResult :=
  .next (s.finish (pcPlus4 s.pc))

end Sys2Proof.Machine
end

