-- ==== Sys2Proof/Machine/UpperImmediate.lean ====
section
/-! DEFINITION. Upper-immediate instructions (44_upper_immediate.md R128, R129). -/

namespace Sys2Proof.Machine

/-- LUI (R128). -/
def execLui (rd : RegIdx) (imm : BitVec 20) (s : State) : StepResult :=
  .next (s.commitNext rd (luiValue imm))

/-- AUIPC (R129). `pc` is its own address. -/
def execAuipc (rd : RegIdx) (imm : BitVec 20) (s : State) : StepResult :=
  .next (s.commitNext rd (auipcValue s.pc imm))

end Sys2Proof.Machine
end

