-- ==== Sys2Proof/Machine/Functional.lean ====
section
/-! DEFINITION. One functional-mode step (30_encoding.md R93): fetch at `pc`, decode, run. -/

namespace Sys2Proof.Machine

/-- `FunctionalStep()` (R93). An out-of-range fetch and an illegal word stop the run with status ILLEGAL and change
nothing else; a stopped machine takes no step. -/
def functionalStep (s : State) : StepResult :=
  if s.status = .running then
    match s.fetchWord s.pc with
    | .error _ => .next (s.takeException .functional .fetchRange)
    | .ok w =>
      match decode w with
      | .error _ => .next (s.takeException .functional .illegalInstruction)
      | .ok i    => exec i s
  else .next s

end Sys2Proof.Machine
end

