-- ==== Sys2Proof/Machine/Cache.lean ====
section
/-! DEFINITION. The set-associative LRU caches, which hold tags only (20_memory.md R63 to R70). -/

namespace Sys2Proof.Machine

/-- A power of two at least 1. -/
def isPowerOfTwo (n : Nat) : Bool := n != 0 && 2 ^ n.log2 == n

/-- 20_memory.md R63: when a cache configuration is legal. `missLatency` may be any natural. -/
def cacheLegal (c : CacheConfig) : Bool :=
  isPowerOfTwo c.size && isPowerOfTwo c.blockSize && isPowerOfTwo c.ways
    && decide (c.blockSize * c.ways ≤ c.size)

/-- 20_memory.md R63: the number of sets. -/
def setCount (c : CacheConfig) : Nat := c.size / (c.blockSize * c.ways)

/-- 00_scope.md R11: the extra cycle of the instruction-cache stall counter, a literal of the source. -/
def icExtraStall : Nat := 1

/-- R64: `log2(blockSize)`. -/
def offsetBits (c : CacheConfig) : Nat := c.blockSize.log2

/-- R64: `log2(setCount)`. -/
def indexBits (c : CacheConfig) : Nat := (setCount c).log2

/-- R64: the middle bits. -/
def cacheIndex (c : CacheConfig) (a : Word) : Nat := (a.toNat >>> offsetBits c) &&& (setCount c - 1)

/-- R64: the remaining high bits. -/
def cacheTag (c : CacheConfig) (a : Word) : Nat := a.toNat >>> (offsetBits c + indexBits c)

/-- The tags of set `i`, least recently used first (10_state.md R40). -/
def Cache.set (k : Cache) (i : Nat) : List Nat := sparseGet [] k.sets i

/-- R65: the tags of a set after tag `g` is touched in a cache of `ways` ways. -/
def touch (ways g : Nat) (l : List Nat) : List Nat :=
  if g ∈ l then l.erase g ++ [g]
  else (if l.length = ways then l.tail else l) ++ [g]

/-- `access(a, op)` (R65): whether it hits, and the cache after it. The operation, READ or WRITE, changes nothing
(R66), so it is no argument. -/
def Cache.access (c : CacheConfig) (a : Word) (k : Cache) : Bool × Cache :=
  let i := cacheIndex c a
  let g := cacheTag c a
  let hit := decide (g ∈ k.set i)
  (hit,
    { sets := sparsePut [] i (touch c.ways g (k.set i)) k.sets
      hits := k.hits + (if hit then 1 else 0)
      misses := k.misses + (if hit then 0 else 1) })

/-- The instruction cache is accessed with a fetch address (R69); the stall counter it gives (70_reset_and_hazards.md
R205). -/
def State.accessIC (s : State) (a : Word) : State :=
  let r := s.icache.access s.ic a
  { s with icache := r.2, iStall := if r.1 then 0 else s.ic.missLatency + icExtraStall }

/-- The data cache is accessed with a data address (R69); a miss sets the stall counter (70_reset_and_hazards.md
R195 step 4). -/
def State.accessDC (s : State) (a : Word) : State :=
  let r := s.dcache.access s.dc a
  { s with dcache := r.2, dStall := if r.1 then s.dStall else s.dc.missLatency }

end Sys2Proof.Machine
end

