-- ==== Sys2Proof/Machine/Chain.lean ====
section
/-! DEFINITION. The stateless stage functions of the execution chain (30_encoding.md R90 to R92), which the pipeline's
stages apply to a record, and the chain composed as one functional instruction (R93). -/

namespace Sys2Proof.Machine

/-- Arithmetic/logic and the link value (R90): `arithResult` from the two operands and the instruction's own pc;
`none` where the family rule gives none. -/
def arithOf (i : Instr) (pc a b : Word) : Option Word :=
  match i with
  | .add _ _ _ => some (aluAdd a b)
  | .sub _ _ _ => some (aluSub a b)
  | .sll _ _ _ => some (aluSll a (shiftAmount64 b))
  | .slt _ _ _ => some (aluSlt a b)
  | .sltu _ _ _ => some (aluSltu a b)
  | .xor _ _ _ => some (aluXor a b)
  | .srl _ _ _ => some (aluSrl a (shiftAmount64 b))
  | .sra _ _ _ => some (aluSra a (shiftAmount64 b))
  | .or _ _ _ => some (aluOr a b)
  | .and _ _ _ => some (aluAnd a b)
  | .addi _ _ imm => some (aluAdd a (immI imm))
  | .slti _ _ imm => some (aluSlt a (immI imm))
  | .sltiu _ _ imm => some (aluSltu a (immI imm))
  | .xori _ _ imm => some (aluXor a (immI imm))
  | .ori _ _ imm => some (aluOr a (immI imm))
  | .andi _ _ imm => some (aluAnd a (immI imm))
  | .slli _ _ shamt => some (aluSll a shamt)
  | .srli _ _ shamt => some (aluSrl a shamt)
  | .srai _ _ shamt => some (aluSra a shamt)
  | .addiw _ _ imm => some (aluAddw a (immI imm))
  | .slliw _ _ shamt => some (aluSllw a shamt)
  | .srliw _ _ shamt => some (aluSrlw a shamt)
  | .sraiw _ _ shamt => some (aluSraw a shamt)
  | .addw _ _ _ => some (aluAddw a b)
  | .subw _ _ _ => some (aluSubw a b)
  | .sllw _ _ _ => some (aluSllw a (shiftAmount32 b))
  | .srlw _ _ _ => some (aluSrlw a (shiftAmount32 b))
  | .sraw _ _ _ => some (aluSraw a (shiftAmount32 b))
  | .lui _ imm => some (luiValue imm)
  | .auipc _ imm => some (auipcValue pc imm)
  | .lb _ _ _ => none
  | .lh _ _ _ => none
  | .lw _ _ _ => none
  | .ld _ _ _ => none
  | .lbu _ _ _ => none
  | .lhu _ _ _ => none
  | .lwu _ _ _ => none
  | .sb _ _ _ => none
  | .sh _ _ _ => none
  | .sw _ _ _ => none
  | .sd _ _ _ => none
  | .beq _ _ _ => none
  | .bne _ _ _ => none
  | .blt _ _ _ => none
  | .bge _ _ _ => none
  | .bltu _ _ _ => none
  | .bgeu _ _ _ => none
  | .jal _ _ => some (pcPlus4 pc)
  | .jalr _ _ _ => some (pcPlus4 pc)
  | .halt => none
  | .nop => none

/-- Address generation (45_loads_stores.md R130); `none` for an instruction that accesses no memory. -/
def addressOf (i : Instr) (a : Word) : Option Word :=
  match i with
  | .add _ _ _ => none
  | .sub _ _ _ => none
  | .sll _ _ _ => none
  | .slt _ _ _ => none
  | .sltu _ _ _ => none
  | .xor _ _ _ => none
  | .srl _ _ _ => none
  | .sra _ _ _ => none
  | .or _ _ _ => none
  | .and _ _ _ => none
  | .addi _ _ _ => none
  | .slti _ _ _ => none
  | .sltiu _ _ _ => none
  | .xori _ _ _ => none
  | .ori _ _ _ => none
  | .andi _ _ _ => none
  | .slli _ _ _ => none
  | .srli _ _ _ => none
  | .srai _ _ _ => none
  | .addiw _ _ _ => none
  | .slliw _ _ _ => none
  | .srliw _ _ _ => none
  | .sraiw _ _ _ => none
  | .addw _ _ _ => none
  | .subw _ _ _ => none
  | .sllw _ _ _ => none
  | .srlw _ _ _ => none
  | .sraw _ _ _ => none
  | .lui _ _ => none
  | .auipc _ _ => none
  | .lb _ _ imm => some (loadAddress a imm)
  | .lh _ _ imm => some (loadAddress a imm)
  | .lw _ _ imm => some (loadAddress a imm)
  | .ld _ _ imm => some (loadAddress a imm)
  | .lbu _ _ imm => some (loadAddress a imm)
  | .lhu _ _ imm => some (loadAddress a imm)
  | .lwu _ _ imm => some (loadAddress a imm)
  | .sb _ _ imm => some (storeAddress a imm)
  | .sh _ _ imm => some (storeAddress a imm)
  | .sw _ _ imm => some (storeAddress a imm)
  | .sd _ _ imm => some (storeAddress a imm)
  | .beq _ _ _ => none
  | .bne _ _ _ => none
  | .blt _ _ _ => none
  | .bge _ _ _ => none
  | .bltu _ _ _ => none
  | .bgeu _ _ _ => none
  | .jal _ _ => none
  | .jalr _ _ _ => none
  | .halt => none
  | .nop => none

/-- The access width in bytes (20_memory.md R53); 0 for an instruction that accesses no memory. -/
def widthOf (i : Instr) : Nat :=
  match i with
  | .add _ _ _ => 0
  | .sub _ _ _ => 0
  | .sll _ _ _ => 0
  | .slt _ _ _ => 0
  | .sltu _ _ _ => 0
  | .xor _ _ _ => 0
  | .srl _ _ _ => 0
  | .sra _ _ _ => 0
  | .or _ _ _ => 0
  | .and _ _ _ => 0
  | .addi _ _ _ => 0
  | .slti _ _ _ => 0
  | .sltiu _ _ _ => 0
  | .xori _ _ _ => 0
  | .ori _ _ _ => 0
  | .andi _ _ _ => 0
  | .slli _ _ _ => 0
  | .srli _ _ _ => 0
  | .srai _ _ _ => 0
  | .addiw _ _ _ => 0
  | .slliw _ _ _ => 0
  | .srliw _ _ _ => 0
  | .sraiw _ _ _ => 0
  | .addw _ _ _ => 0
  | .subw _ _ _ => 0
  | .sllw _ _ _ => 0
  | .srlw _ _ _ => 0
  | .sraw _ _ _ => 0
  | .lui _ _ => 0
  | .auipc _ _ => 0
  | .lb _ _ _ => 1
  | .lh _ _ _ => 2
  | .lw _ _ _ => 4
  | .ld _ _ _ => 8
  | .lbu _ _ _ => 1
  | .lhu _ _ _ => 2
  | .lwu _ _ _ => 4
  | .sb _ _ _ => 1
  | .sh _ _ _ => 2
  | .sw _ _ _ => 4
  | .sd _ _ _ => 8
  | .beq _ _ _ => 0
  | .bne _ _ _ => 0
  | .blt _ _ _ => 0
  | .bge _ _ _ => 0
  | .bltu _ _ _ => 0
  | .bgeu _ _ _ => 0
  | .jal _ _ => 0
  | .jalr _ _ _ => 0
  | .halt => 0
  | .nop => 0

/-- `memResult` of a load from the value read (45_loads_stores.md R132); `none` for an instruction that is no load. -/
def loadResultOf (i : Instr) (v : Word) : Option Word :=
  match i with
  | .add _ _ _ => none
  | .sub _ _ _ => none
  | .sll _ _ _ => none
  | .slt _ _ _ => none
  | .sltu _ _ _ => none
  | .xor _ _ _ => none
  | .srl _ _ _ => none
  | .sra _ _ _ => none
  | .or _ _ _ => none
  | .and _ _ _ => none
  | .addi _ _ _ => none
  | .slti _ _ _ => none
  | .sltiu _ _ _ => none
  | .xori _ _ _ => none
  | .ori _ _ _ => none
  | .andi _ _ _ => none
  | .slli _ _ _ => none
  | .srli _ _ _ => none
  | .srai _ _ _ => none
  | .addiw _ _ _ => none
  | .slliw _ _ _ => none
  | .srliw _ _ _ => none
  | .sraiw _ _ _ => none
  | .addw _ _ _ => none
  | .subw _ _ _ => none
  | .sllw _ _ _ => none
  | .srlw _ _ _ => none
  | .sraw _ _ _ => none
  | .lui _ _ => none
  | .auipc _ _ => none
  | .lb _ _ _ => some (signedLoad 1 v)
  | .lh _ _ _ => some (signedLoad 2 v)
  | .lw _ _ _ => some (signedLoad 4 v)
  | .ld _ _ _ => some (signedLoad 8 v)
  | .lbu _ _ _ => some (unsignedLoad 1 v)
  | .lhu _ _ _ => some (unsignedLoad 2 v)
  | .lwu _ _ _ => some (unsignedLoad 4 v)
  | .sb _ _ _ => none
  | .sh _ _ _ => none
  | .sw _ _ _ => none
  | .sd _ _ _ => none
  | .beq _ _ _ => none
  | .bne _ _ _ => none
  | .blt _ _ _ => none
  | .bge _ _ _ => none
  | .bltu _ _ _ => none
  | .bgeu _ _ _ => none
  | .jal _ _ => none
  | .jalr _ _ _ => none
  | .halt => none
  | .nop => none

/-- Next-pc resolution (46_control_transfer.md R146 to R155). A halt has no successor; its record gets the default
(70_reset_and_hazards.md R196, log 15). -/
def nextPcOf (i : Instr) (pc a b : Word) : Word :=
  match i with
  | .add _ _ _ => pcPlus4 pc
  | .sub _ _ _ => pcPlus4 pc
  | .sll _ _ _ => pcPlus4 pc
  | .slt _ _ _ => pcPlus4 pc
  | .sltu _ _ _ => pcPlus4 pc
  | .xor _ _ _ => pcPlus4 pc
  | .srl _ _ _ => pcPlus4 pc
  | .sra _ _ _ => pcPlus4 pc
  | .or _ _ _ => pcPlus4 pc
  | .and _ _ _ => pcPlus4 pc
  | .addi _ _ _ => pcPlus4 pc
  | .slti _ _ _ => pcPlus4 pc
  | .sltiu _ _ _ => pcPlus4 pc
  | .xori _ _ _ => pcPlus4 pc
  | .ori _ _ _ => pcPlus4 pc
  | .andi _ _ _ => pcPlus4 pc
  | .slli _ _ _ => pcPlus4 pc
  | .srli _ _ _ => pcPlus4 pc
  | .srai _ _ _ => pcPlus4 pc
  | .addiw _ _ _ => pcPlus4 pc
  | .slliw _ _ _ => pcPlus4 pc
  | .srliw _ _ _ => pcPlus4 pc
  | .sraiw _ _ _ => pcPlus4 pc
  | .addw _ _ _ => pcPlus4 pc
  | .subw _ _ _ => pcPlus4 pc
  | .sllw _ _ _ => pcPlus4 pc
  | .srlw _ _ _ => pcPlus4 pc
  | .sraw _ _ _ => pcPlus4 pc
  | .lui _ _ => pcPlus4 pc
  | .auipc _ _ => pcPlus4 pc
  | .lb _ _ _ => pcPlus4 pc
  | .lh _ _ _ => pcPlus4 pc
  | .lw _ _ _ => pcPlus4 pc
  | .ld _ _ _ => pcPlus4 pc
  | .lbu _ _ _ => pcPlus4 pc
  | .lhu _ _ _ => pcPlus4 pc
  | .lwu _ _ _ => pcPlus4 pc
  | .sb _ _ _ => pcPlus4 pc
  | .sh _ _ _ => pcPlus4 pc
  | .sw _ _ _ => pcPlus4 pc
  | .sd _ _ _ => pcPlus4 pc
  | .beq _ _ off => branchTarget (condEq a b) pc off
  | .bne _ _ off => branchTarget (condNe a b) pc off
  | .blt _ _ off => branchTarget (condLt a b) pc off
  | .bge _ _ off => branchTarget (condGe a b) pc off
  | .bltu _ _ off => branchTarget (condLtu a b) pc off
  | .bgeu _ _ off => branchTarget (condGeu a b) pc off
  | .jal _ off => jalTarget pc off
  | .jalr _ _ imm => jalrTarget a imm
  | .halt => pcPlus4 pc
  | .nop => pcPlus4 pc

/-- The fields of an instruction's word (R72). -/
def fieldsOf (i : Instr) : Fields := Fields.ofWord (encode i)

/-- Operand collection (R91): an operand whose flag is clear is 0. -/
def collect (reads : Bool) (r : RegIdx) (s : State) : Word := if reads then s.readReg r else 0#64

/-- The memory access of an instruction with operand 2 `b` at address `a`: what it loads, if it is a load, and the state
after it (R131). -/
def accessOf (i : Instr) (a b : Word) (s : State) : Except Fault (Option Word × State) :=
  if (flagsOf (some i)).readsMem then
    (s.memRead a (widthOf i)).map (fun v => (loadResultOf i v, s))
  else
    (s.memWrite a (widthOf i) b).map (fun t => (none, t))

/-- Commit (R92): the loaded value if there is one, else the arithmetic result, to `rd` if the flag is set. -/
def commitOf (i : Instr) (arith loaded : Option Word) (s : State) : State :=
  if (flagsOf (some i)).writesRd then
    match loaded.or arith with
    | some v => s.writeReg (fieldsOf i).rd v
    | none   => s
  else s

/-- The body of the functional step (R93) as the chain of R90: the reference the meanings of the instructions agree
with (Certificates/Slice0/Obligations.lean states it). -/
def chainExec (i : Instr) (s : State) : State :=
  let f := flagsOf (some i)
  if f.halt then { s with dynInstrCount := s.dynInstrCount + 1, status := .halt }
  else
    let a := collect f.readsRs1 (fieldsOf i).rs1 s
    let b := collect f.readsRs2 (fieldsOf i).rs2 s
    match addressOf i a with
    | none => (commitOf i (arithOf i s.pc a b) none s).finish (nextPcOf i s.pc a b)
    | some m =>
      match accessOf i m b s with
      | .error _ => s.takeException .functional .memoryRange
      | .ok (v, t) => (commitOf i (arithOf i s.pc a b) v t).finish (nextPcOf i s.pc a b)

end Sys2Proof.Machine
end

