-- ==== Sys2Proof/Machine/Pipeline.lean ====
section
/-! DEFINITION. The five-stage pipeline: one edge is the per-cycle algorithm of 70_reset_and_hazards.md R192. In every
definition `o` is the state at the start of the edge, whose slots are the previous cycle's occupants, and `s` the state
as the steps written before have left it (R191). -/

namespace Sys2Proof.Machine

/-! ### Slots and records -/

/-- The record of a live slot: NORMAL or SPECULATIVE (00_scope.md R16). -/
def Slot.live? : Slot → Option Record
  | .full .normal r      => some r
  | .full .speculative r => some r
  | .full .squashed _    => none
  | .bubble              => none
  | .idle                => none

/-- `sq` of R192: a live record becomes SQUASHED, any other slot is unchanged. -/
def Slot.squash : Slot → Slot
  | .full _ r => .full .squashed r
  | .bubble   => .bubble
  | .idle     => .idle

/-- Entering ID: SPECULATIVE becomes NORMAL (R192 step 6, R210). -/
def Slot.settle : Slot → Slot
  | .full .speculative r => .full .normal r
  | sl => sl

/-- The five values of the stage-status tag (10_state.md R32), as the snapshot shows them. -/
inductive StageStatus where
  | normal | bubble | idle | speculative | squashed
deriving DecidableEq, Repr

/-- The stage-status tag of a slot (10_state.md R32). -/
def Slot.status : Slot → StageStatus
  | .idle                => .idle
  | .bubble              => .bubble
  | .full .normal _      => .normal
  | .full .speculative _ => .speculative
  | .full .squashed _    => .squashed

/-- The register number in a field of the record; a NOWORD record has no fields, reads and writes no register, and no
match is made on register 0 (10_state.md R20). -/
def Record.regField (r : Record) (f : Fields → RegIdx) : RegIdx :=
  match r.fields with
  | some x => f x
  | none   => 0#5

def Record.rd (r : Record) : RegIdx := r.regField Fields.rd
def Record.rs1 (r : Record) : RegIdx := r.regField Fields.rs1
def Record.rs2 (r : Record) : RegIdx := r.regField Fields.rs2

/-- The derived predicate `isControl` of a record (30_encoding.md R88). -/
def Record.isControl (r : Record) : Bool :=
  match r.op with
  | some i => Sys2Proof.Machine.isControl i
  | none   => false

/-- The record produces register `i`: it writes it, and `i` is not x0 (10_state.md R20). -/
def Record.writes (r : Record) (i : RegIdx) : Bool := r.flags.writesRd && r.rd == i && i != 0#5

/-- What Commit writes (30_encoding.md R92). -/
def Record.result (r : Record) : Word := if r.flags.readsMem then r.memResult else r.arithResult

/-- A new record. Its value fields hold free values until a stage fills them (log 10). -/
def freshRecord (pc : Word) (raw : Option InstrWord) (op : Option Instr) (dynId : Nat) : Record where
  pc          := pc
  raw         := raw
  fields      := raw.map Fields.ofWord
  op          := op
  flags       := flagsOf op
  operand1    := Config.unsetField dynId .operand1
  operand2    := Config.unsetField dynId .operand2
  arithResult := Config.unsetField dynId .arithResult
  memAddress  := Config.unsetField dynId .memAddress
  memResult   := Config.unsetField dynId .memResult
  nextPc      := Config.unsetField dynId .nextPc
  dynId       := dynId
  fetchFault  := raw.isNone
  memFault    := false

/-- The decoded operation of a word; `none` is ILLEGAL (30_encoding.md R83, R87). -/
def operationOf (w : InstrWord) : Option Instr :=
  match decode w with
  | .ok i    => some i
  | .error _ => none

/-- The record of a fetched word (R205). -/
def fetchedRecord (pc : Word) (w : InstrWord) (dynId : Nat) : Record := freshRecord pc (some w) (operationOf w) dynId

/-- The FETCH_RANGE record (60_exceptions.md R165). -/
def noWordRecord (pc : Word) (dynId : Nat) : Record := freshRecord pc none none dynId

/-! ### Fetch -/

/-- `Fetch(tag)` into IF (R205), after this edge's memory access (20_memory.md R61). -/
def fetch (tag : Tag) (s : State) : State :=
  let a := s.fetchPc
  let t := { s with fetchPc := pcPlus4 a, nextDynId := s.nextDynId + 1 }
  match s.fetchWord a with
  | .ok w    => { t.accessIC a with slotIF := .full tag (fetchedRecord a w s.nextDynId) }
  | .error _ => { t with iStall := 0, slotIF := .full tag (noWordRecord a s.nextDynId) }

/-! ### Step 0: the data-cache freeze -/

/-- A freeze edge (R193); `cycle` has been counted. -/
def freeze (s : State) : State :=
  { s with dStall := s.dStall - 1, iStall := s.iStall - 1, slotWB := .bubble }

/-! ### Step 1: WB -/

/-- Retire a record (R194, 60_exceptions.md R172). -/
def retire (r : Record) (s : State) : State :=
  let t := if r.flags.writesRd then s.writeReg r.rd r.result else s
  { t with
    dynInstrCount := s.dynInstrCount + 1
    status := if r.flags.halt then (if s.excRaised then .illegal else .halt) else s.status }

/-- The MEM occupant's access was out of range (60_exceptions.md R166). -/
def memFaulting (o : State) : Bool :=
  match o.slotMEM.live? with
  | some r => r.memFault
  | none   => false

/-- WB (R194): the MEM occupant moves in and, if live, retires; a faulting one moves in SQUASHED. -/
def wbStage (o s : State) : State :=
  if memFaulting o then { s with slotWB := o.slotMEM.squash }
  else
    match o.slotMEM.live? with
    | some r => { retire r s with slotWB := o.slotMEM }
    | none   => { s with slotWB := o.slotMEM }

/-! ### Step 2: taking a memory range exception -/

/-- R192 step 2, 60_exceptions.md R166. -/
def takeMemoryRange (o s : State) : State :=
  fetch .normal
    ({ s with slotMEM := o.slotEX.squash, slotEX := o.slotID.squash, slotID := o.slotIF.squash }.takeException
      .pipelined .memoryRange)

/-! ### Step 3: MEM -/

/-- A store's data operand is refreshed from the record that has just moved into WB (R195 step 1). -/
def refreshStoreData (wb : Slot) (m : Record) : Record :=
  if m.flags.writesMem then
    match wb.live? with
    | some p => if p.writes m.rs2 then { m with operand2 := p.result } else m
    | none   => m
  else m

/-- `MemStage` (R195) of the live load or store `m`, tagged `tag`. -/
def memAccess (tag : Tag) (m : Record) (s : State) : State :=
  let r := refreshStoreData s.slotWB m
  match r.op with
  | none   => { s with slotMEM := .full tag r }
  | some i =>
    match accessOf i r.memAddress r.operand2 s with
    | .error _ => { s with slotMEM := .full tag { r with memFault := true } }
    | .ok (v, t) => { t.accessDC r.memAddress with slotMEM := .full tag { r with memResult := v.getD r.memResult } }

/-- MEM (R195): the EX occupant moves in and, if it is a live load or store, performs its access. -/
def memStage (o s : State) : State :=
  match o.slotEX with
  | .full tag r =>
    if o.slotEX.live?.isSome && (r.flags.readsMem || r.flags.writesMem) then memAccess tag r s
    else { s with slotMEM := o.slotEX }
  | .bubble => { s with slotMEM := .bubble }
  | .idle   => { s with slotMEM := .idle }

/-! ### Step 4: the ID-stage event -/

/-- The ID-stage event (R198); the two stalls are told apart because only one is counted (R212). -/
inductive IdEvent where
  | none
  | exception (k : ExcKind)
  | halt
  | controlStall
  | loadUseStall
  | redirect (target : Word)
deriving DecidableEq, Repr

/-- `d` reads register `i` through `rs1` or `rs2`. -/
def Record.readsRs1Of (d p : Record) : Bool := d.flags.readsRs1 && p.writes d.rs1
def Record.readsRs2Of (d p : Record) : Bool := d.flags.readsRs2 && p.writes d.rs2

/-- The load-use hazard (R199) of the ID record `d` behind the EX occupant. A store's data register is exempt. -/
def loadUseHazard (d : Record) (ex : Slot) : Bool :=
  match ex.live? with
  | some e => e.flags.readsMem && (d.readsRs1Of e || (d.readsRs2Of e && !d.flags.writesMem))
  | none   => false

/-- The control-hazard condition (R200) of the ID record `d`, behind the EX and MEM occupants. -/
def controlHazard (d : Record) (ex mem : Slot) : Bool :=
  (match ex.live? with
   | some e => d.readsRs1Of e || d.readsRs2Of e
   | none   => false) ||
  (match mem.live? with
   | some m => m.flags.readsMem && (d.readsRs1Of m || d.readsRs2Of m)
   | none   => false)

/-- Branch resolution (R201): the `nextPc` of a control transfer, its operands read from the register file after this
edge's commit. -/
def resolvedNextPc (d : Record) (s : State) : Word :=
  match d.op with
  | some i => nextPcOf i d.pc (collect d.flags.readsRs1 d.rs1 s) (collect d.flags.readsRs2 d.rs2 s)
  | none   => d.nextPc

/-- Which exception an illegal record raises (60_exceptions.md R162). -/
def Record.excKind (d : Record) : ExcKind := if d.fetchFault then .fetchRange else .illegalInstruction

/-- `IdEvent(d, e, m)` (R198), with `s` the state after this edge's WB and MEM steps. -/
def idEvent (o s : State) : IdEvent :=
  match o.slotID.live? with
  | none   => .none
  | some d =>
    if !d.flags.legal then .exception d.excKind
    else if d.flags.halt then .halt
    else if d.isControl then
      if controlHazard d o.slotEX o.slotMEM then .controlStall
      else if resolvedNextPc d s = pcPlus4 d.pc then .none
      else .redirect (resolvedNextPc d s)
    else if loadUseHazard d o.slotEX then .loadUseStall
    else .none

/-! ### Step 5: EX -/

/-- `Fwd(i)` (R197), with `ex` the previous EX occupant. -/
def forward (ex : Slot) (s : State) (i : RegIdx) : Word :=
  match ex.live? with
  | some e => if e.writes i && !e.flags.readsMem then e.arithResult else s.readReg i
  | none   => s.readReg i

/-- `Execute(d, e)` of a live record (R196). A control transfer's `nextPc` is the one it was resolved to in ID. -/
def execute (d : Record) (ex : Slot) (s : State) : Record :=
  match d.op with
  | none => d
  | some i =>
    let a := if d.flags.readsRs1 then forward ex s d.rs1 else 0#64
    let b := if d.flags.readsRs2 then forward ex s d.rs2 else 0#64
    { d with
      operand1    := a
      operand2    := b
      arithResult := (arithOf i d.pc a b).getD d.arithResult
      memAddress  := (addressOf i a).getD d.memAddress
      nextPc      := if d.isControl then resolvedNextPc d s else pcPlus4 d.pc }

/-- The ID occupant as it moves into EX (R196): a live record is executed, any other is unchanged. -/
def intoEX (o s : State) : Slot :=
  match o.slotID.live? with
  | some d => .full .normal (execute d o.slotEX s)
  | none   => o.slotID

/-! ### Steps 5 and 6 together, by event -/

/-- A stall edge (R199, R200): EX becomes a BUBBLE, ID and IF hold, a pending fetch goes on (R207). -/
def stall (s : State) : State := { s with slotEX := .bubble, iStall := s.iStall - 1 }

/-- Redirect to `target` (R203): the IF occupant is squashed into ID and the target is fetched. -/
def redirectTo (o : State) (target : Word) (s : State) : State :=
  fetch .normal { s with slotEX := intoEX o s, slotID := o.slotIF.squash, fetchPc := target, iStall := 0 }

/-- An illegal record leaves ID (60_exceptions.md R164, R165). -/
def takeIdException (o : State) (k : ExcKind) (s : State) : State :=
  fetch .normal
    ({ s with slotEX := o.slotID.squash, slotID := o.slotIF.squash }.takeException .pipelined k)

/-- A halt leaves ID (R204). -/
def haltInId (o s : State) : State :=
  { s with
    slotEX := intoEX o s, slotID := o.slotIF.squash, slotIF := .bubble, iStall := 0, fetchStopped := true }

/-- The tag of the fetch behind the record entering ID (R202, R210). -/
def fetchTag (id : Slot) : Tag :=
  match id.live? with
  | some d => if d.isControl then .speculative else .normal
  | none   => .normal

/-- No event: the ID occupant moves into EX, and IF moves into ID unless its fetch is pending (R206). -/
def flow (o s : State) : State :=
  if s.iStall > 0 then { s with slotEX := intoEX o s, slotID := .bubble, iStall := s.iStall - 1 }
  else if s.fetchStopped then
    { s with slotEX := intoEX o s, slotID := o.slotIF.settle, slotIF := .bubble }
  else fetch (fetchTag o.slotIF.settle) { s with slotEX := intoEX o s, slotID := o.slotIF.settle }

/-- Steps 5 and 6 of R192. -/
def frontEnd (o s : State) : State :=
  match idEvent o s with
  | .controlStall => stall s
  | .loadUseStall => stall { s with loadUseStalls := s.loadUseStalls + 1 }
  | .exception k  => takeIdException o k s
  | .redirect t   => redirectTo o t s
  | .halt         => haltInId o s
  | .none         => flow o s

/-! ### The edge -/

/-- Every edge counts a cycle (10_state.md R33). -/
def State.tick (s : State) : State := { s with cycle := s.cycle + 1 }

/-- One edge (R192). A stopped machine has no further edge. -/
def edge (o : State) : State :=
  if o.status = .running then
    if o.dStall > 0 then freeze o.tick
    else if memFaulting o then takeMemoryRange o (wbStage o o.tick)
    else frontEnd o (memStage o (wbStage o o.tick))
  else o

end Sys2Proof.Machine
end

