-- ==== Sys2Proof/Machine/HostCommands.lean ====
section
/-! DEFINITION. The host's commands (10_state.md R42, 70_reset_and_hazards.md R182 to R189). A host read changes
nothing (R184): it is a field of the state, `State.readReg`, `State.readByte` or `State.snapshot`. -/

namespace Sys2Proof.Machine

/-- Both cache configurations are legal (R185, 20_memory.md R63). -/
def State.configLegal (s : State) : Bool := cacheLegal s.ic && cacheLegal s.dc

/-- The host writes the configuration registers (10_state.md R28). -/
def State.configure (c : Configuration) (s : State) : State :=
  { s with ic := c.ic, dc := c.dc, excHandlerAddr := c.excHandlerAddr, memSize := c.memSize }

/-- `loadImage(base, bytes)` (20_memory.md R50): rejected whole if any byte would be out of range. -/
def loadImage (base : Word) (bytes : List Byte) (s : State) : StepResult :=
  if bytes.isEmpty || decide (base.toNat + bytes.length ≤ s.memSize) then
    .next { s with mem := Memory.putBytes s.mem base.toNat bytes }
  else .refused .imageOutOfRange

/-- INIT_MEM as a memory in canonical form, for a store of `size` bytes. -/
def initialMemory (size : Nat) : List Host.Cell → List Host.Cell
  | [] => []
  | (a, b) :: t =>
    if a < size then Memory.setByte (initialMemory size t) a b else initialMemory size t

/-- `reset` (R182, 10_state.md R44): every piece of state but the configuration registers. An image that does not fit
is refused whole and leaves INIT_MEM (P4). -/
def State.hostReset (b : BootParams) (s : State) : State :=
  let t := { State.reset with
    ic := s.ic, dc := s.dc, excHandlerAddr := s.excHandlerAddr, memSize := s.memSize
    regs := b.initRegs.set 0 0#64, pc := b.resetPc, fetchPc := b.resetPc
    mem := initialMemory s.memSize b.initMem }
  match loadImage b.imageBase b.image t with
  | .next u => u
  | .fault _ => t
  | .refused _ => t

/-- The checks every run command makes (R185, R186): `none` if it may run in mode `m`. -/
def runRefusal (m : RunMode) (s : State) : Option Refusal :=
  if !s.configLegal then some .configError
  else if s.mode = some m || s.mode = none then none
  else some .modeError

/-- `n` edges; an edge of a stopped machine changes nothing (R187). -/
def edges : Nat → State → State
  | 0, s     => s
  | n + 1, s => edges n (edge s)

/-- `n` functional steps; a step of a stopped machine changes nothing (R188). -/
def functionalSteps : Nat → State → StepResult
  | 0, s     => .next s
  | n + 1, s =>
    match functionalStep s with
    | .next t    => functionalSteps n t
    | .fault f   => .fault f
    | .refused r => .refused r

/-- `runCycles(n)` (R187). -/
def runCycles (n : Nat) (s : State) : StepResult :=
  match runRefusal .pipelined s with
  | some r => .refused r
  | none   => .next (edges n { s with mode := some .pipelined })

/-- `runInstructions(n)` (R188). -/
def runInstructions (n : Nat) (s : State) : StepResult :=
  match runRefusal .functional s with
  | some r => .refused r
  | none   => functionalSteps n { s with mode := some .functional }

/-- One unit of a run in mode `m`: `runCycles(1)` or `runInstructions(1)`. -/
def runOne : RunMode → State → StepResult
  | .pipelined  => runCycles 1
  | .functional => runInstructions 1

/-- `runUntilStop(m)` (R189) under `fuel`: the command has no budget of its own, and a run may never end (log 14). -/
def runUntilStop (m : RunMode) : Nat → State → StepResult
  | 0, s => .next s
  | fuel + 1, s =>
    if s.status = .running then
      match runOne m s with
      | .next t    => runUntilStop m fuel t
      | .fault f   => .fault f
      | .refused r => .refused r
    else .next s

/-- A host command (10_state.md R42(c), (d)). -/
inductive HostCommand where
  | configure (c : Configuration)
  | reset (b : BootParams)
  | loadImage (base : Word) (bytes : List Byte)
  | runCycles (n : Nat)
  | runInstructions (n : Nat)
  | runUntilStop (m : RunMode) (fuel : Nat)
deriving DecidableEq, Repr

/-- What a host command does (R184); it returns the status with the state. -/
def hostCommand (c : HostCommand) (s : State) : StepResult :=
  match c with
  | .configure c        => .next (s.configure c)
  | .reset b            => .next (s.hostReset b)
  | .loadImage a bs     => loadImage a bs s
  | .runCycles n        => runCycles n s
  | .runInstructions n  => runInstructions n s
  | .runUntilStop m n   =>
    match runRefusal m s with
    | some r => .refused r
    | none   => runUntilStop m n s

/-- The pipeline snapshot (10_state.md R33, R42): the five slots and the cycle counter. -/
structure Snapshot where
  slotIF  : Slot
  slotID  : Slot
  slotEX  : Slot
  slotMEM : Slot
  slotWB  : Slot
  cycle   : Nat
deriving DecidableEq, Repr

/-- The host reads the pipeline snapshot (10_state.md R33). -/
def State.snapshot (s : State) : Snapshot := ⟨s.slotIF, s.slotID, s.slotEX, s.slotMEM, s.slotWB, s.cycle⟩

end Sys2Proof.Machine
end

