-- ==== Sys2Proof/Machine/Step.lean ====
section
/-! DEFINITION. One step of the machine as the host's interface sees it, and the placing of a word where the next step
fetches it. -/

namespace Sys2Proof.Machine

/-- One unit of a run: one edge in a pipelined session (`runCycles(1)`, 70_reset_and_hazards.md R187), one functional
step in a functional session (`runInstructions(1)`, R188). With mode NONE no run command has been given yet, and the
step is a functional one (DESIGN CHOICE, log 5). An illegal configuration is refused (R185). -/
def step (s : State) : Host.Outcome State Fault Refusal :=
  runOne (s.mode.getD .functional) s

/-- Where the next step fetches: `pc`, or PC in a pipelined session. -/
def State.nextFetchAddress (s : State) : Word :=
  match s.mode with
  | some .pipelined => s.fetchPc
  | some .functional => s.pc
  | none => s.pc

/-- The word `w`, its bits numbered as spec/opcode_table.json numbers them and zero at and above `nbits`, stored where
the next step fetches (log 6). -/
def State.withFetchWord (s : State) (nbits w : Nat) : State :=
  { s with
    mem := Memory.store s.mem s.nextFetchAddress.toNat 4 (BitVec.ofNat 64 (w % 2 ^ nbits % 2 ^ 32)) }

end Sys2Proof.Machine
end

