-- ==== Sys2Proof/Machine/Assembler.lean ====
section
/-! DEFINITION. Assembler names and pseudo-instructions (10_state.md R21, 30_encoding.md R94, R95). No rule of the core
depends on them: a pseudo-instruction is one or two instructions and has no word of its own. -/

namespace Sys2Proof

/-- The RISC-V ABI name of a register (10_state.md R21). -/
def abiName (r : RegIdx) : String :=
  (["zero", "ra", "sp", "gp", "tp", "t0", "t1", "t2", "s0", "s1", "a0", "a1", "a2", "a3", "a4", "a5", "a6", "a7",
    "s2", "s3", "s4", "s5", "s6", "s7", "s8", "s9", "s10", "s11", "t3", "t4", "t5", "t6"].getD r.toNat "")

/-- `x0` .. `x31` (10_state.md R19). -/
def regName (r : RegIdx) : String := "x" ++ toString r.toNat

/-- `op a, b, ...`. -/
def asmLine (op : String) (operands : List String) : String :=
  if operands.isEmpty then op else op ++ " " ++ String.intercalate ", " operands

/-- `imm(rs1)` (R94). -/
def asmBase {n : Nat} (imm : BitVec n) (rs1 : RegIdx) : String := toString imm.toInt ++ "(" ++ regName rs1 ++ ")"

/-- The assembler text of an instruction (R94), destination first. -/
def Instr.toAsm (i : Instr) : String :=
  match i with
  | .add rd rs1 rs2 => asmLine "add" [regName rd, regName rs1, regName rs2]
  | .sub rd rs1 rs2 => asmLine "sub" [regName rd, regName rs1, regName rs2]
  | .sll rd rs1 rs2 => asmLine "sll" [regName rd, regName rs1, regName rs2]
  | .slt rd rs1 rs2 => asmLine "slt" [regName rd, regName rs1, regName rs2]
  | .sltu rd rs1 rs2 => asmLine "sltu" [regName rd, regName rs1, regName rs2]
  | .xor rd rs1 rs2 => asmLine "xor" [regName rd, regName rs1, regName rs2]
  | .srl rd rs1 rs2 => asmLine "srl" [regName rd, regName rs1, regName rs2]
  | .sra rd rs1 rs2 => asmLine "sra" [regName rd, regName rs1, regName rs2]
  | .or rd rs1 rs2 => asmLine "or" [regName rd, regName rs1, regName rs2]
  | .and rd rs1 rs2 => asmLine "and" [regName rd, regName rs1, regName rs2]
  | .addi rd rs1 imm => asmLine "addi" [regName rd, regName rs1, toString imm.toInt]
  | .slti rd rs1 imm => asmLine "slti" [regName rd, regName rs1, toString imm.toInt]
  | .sltiu rd rs1 imm => asmLine "sltiu" [regName rd, regName rs1, toString imm.toInt]
  | .xori rd rs1 imm => asmLine "xori" [regName rd, regName rs1, toString imm.toInt]
  | .ori rd rs1 imm => asmLine "ori" [regName rd, regName rs1, toString imm.toInt]
  | .andi rd rs1 imm => asmLine "andi" [regName rd, regName rs1, toString imm.toInt]
  | .slli rd rs1 shamt => asmLine "slli" [regName rd, regName rs1, toString shamt.toNat]
  | .srli rd rs1 shamt => asmLine "srli" [regName rd, regName rs1, toString shamt.toNat]
  | .srai rd rs1 shamt => asmLine "srai" [regName rd, regName rs1, toString shamt.toNat]
  | .addiw rd rs1 imm => asmLine "addiw" [regName rd, regName rs1, toString imm.toInt]
  | .slliw rd rs1 shamt => asmLine "slliw" [regName rd, regName rs1, toString shamt.toNat]
  | .srliw rd rs1 shamt => asmLine "srliw" [regName rd, regName rs1, toString shamt.toNat]
  | .sraiw rd rs1 shamt => asmLine "sraiw" [regName rd, regName rs1, toString shamt.toNat]
  | .addw rd rs1 rs2 => asmLine "addw" [regName rd, regName rs1, regName rs2]
  | .subw rd rs1 rs2 => asmLine "subw" [regName rd, regName rs1, regName rs2]
  | .sllw rd rs1 rs2 => asmLine "sllw" [regName rd, regName rs1, regName rs2]
  | .srlw rd rs1 rs2 => asmLine "srlw" [regName rd, regName rs1, regName rs2]
  | .sraw rd rs1 rs2 => asmLine "sraw" [regName rd, regName rs1, regName rs2]
  | .lui rd imm => asmLine "lui" [regName rd, toString imm.toNat]
  | .auipc rd imm => asmLine "auipc" [regName rd, toString imm.toNat]
  | .lb rd rs1 imm => asmLine "lb" [regName rd, asmBase imm rs1]
  | .lh rd rs1 imm => asmLine "lh" [regName rd, asmBase imm rs1]
  | .lw rd rs1 imm => asmLine "lw" [regName rd, asmBase imm rs1]
  | .ld rd rs1 imm => asmLine "ld" [regName rd, asmBase imm rs1]
  | .lbu rd rs1 imm => asmLine "lbu" [regName rd, asmBase imm rs1]
  | .lhu rd rs1 imm => asmLine "lhu" [regName rd, asmBase imm rs1]
  | .lwu rd rs1 imm => asmLine "lwu" [regName rd, asmBase imm rs1]
  | .sb rs1 rs2 imm => asmLine "sb" [regName rs2, asmBase imm rs1]
  | .sh rs1 rs2 imm => asmLine "sh" [regName rs2, asmBase imm rs1]
  | .sw rs1 rs2 imm => asmLine "sw" [regName rs2, asmBase imm rs1]
  | .sd rs1 rs2 imm => asmLine "sd" [regName rs2, asmBase imm rs1]
  | .beq rs1 rs2 off => asmLine "beq" [regName rs1, regName rs2, toString off.toInt]
  | .bne rs1 rs2 off => asmLine "bne" [regName rs1, regName rs2, toString off.toInt]
  | .blt rs1 rs2 off => asmLine "blt" [regName rs1, regName rs2, toString off.toInt]
  | .bge rs1 rs2 off => asmLine "bge" [regName rs1, regName rs2, toString off.toInt]
  | .bltu rs1 rs2 off => asmLine "bltu" [regName rs1, regName rs2, toString off.toInt]
  | .bgeu rs1 rs2 off => asmLine "bgeu" [regName rs1, regName rs2, toString off.toInt]
  | .jal rd off => asmLine "jal" [regName rd, toString off.toInt]
  | .jalr rd rs1 imm => asmLine "jalr" [regName rd, asmBase imm rs1]
  | .halt => asmLine "halt" []
  | .nop => asmLine "nop" []

/-- The pseudo-instructions of R95. A branch offset is the 13-bit byte offset of the branch it stands for, `off20` the
21-bit offset of the JAL; `call`, `tail` and `la` take the 32-bit distance from their first instruction. -/
inductive Pseudo where
  | nop
  | mv (rd rs : RegIdx)
  | li (rd : RegIdx) (imm : BitVec 12)
  | liWide (rd : RegIdx) (imm : BitVec 32)
  | not (rd rs : RegIdx)
  | neg (rd rs : RegIdx)
  | negw (rd rs : RegIdx)
  | sextw (rd rs : RegIdx)
  | seqz (rd rs : RegIdx)
  | snez (rd rs : RegIdx)
  | sltz (rd rs : RegIdx)
  | sgtz (rd rs : RegIdx)
  | beqz (rs : RegIdx) (off : BitVec 13)
  | bnez (rs : RegIdx) (off : BitVec 13)
  | blez (rs : RegIdx) (off : BitVec 13)
  | bgez (rs : RegIdx) (off : BitVec 13)
  | bltz (rs : RegIdx) (off : BitVec 13)
  | bgtz (rs : RegIdx) (off : BitVec 13)
  | bgt (a b : RegIdx) (off : BitVec 13)
  | ble (a b : RegIdx) (off : BitVec 13)
  | bgtu (a b : RegIdx) (off : BitVec 13)
  | bleu (a b : RegIdx) (off : BitVec 13)
  | j (off20 : BitVec 21)
  | jal (off20 : BitVec 21)
  | jr (rs : RegIdx)
  | jalr (rs : RegIdx)
  | ret
  | call (dist : BitVec 32)
  | tail (dist : BitVec 32)
  | la (rd : RegIdx) (dist : BitVec 32)
deriving DecidableEq, Repr

/-- The low 12 bits, to be sign-extended (R95). -/
def lo12 (v : BitVec 32) : BitVec 12 := v.extractLsb 11 0

/-- The high part, rounded so that `(hi20 << 12) + sext(lo12)` equals `v` (R95). -/
def hi20 (v : BitVec 32) : BitVec 20 := (v + 0x800#32).extractLsb 31 12

/-- The expansion of a pseudo-instruction (R95). -/
def Pseudo.expand : Pseudo → List Instr
  | .nop => [.nop]
  | .mv rd rs => [.addi rd rs 0#12]
  | .li rd imm => [.addi rd 0#5 imm]
  | .liWide rd imm => [.lui rd (hi20 imm), .addiw rd rd (lo12 imm)]
  | .not rd rs => [.xori rd rs (-1#12)]
  | .neg rd rs => [.sub rd 0#5 rs]
  | .negw rd rs => [.subw rd 0#5 rs]
  | .sextw rd rs => [.addiw rd rs 0#12]
  | .seqz rd rs => [.sltiu rd rs 1#12]
  | .snez rd rs => [.sltu rd 0#5 rs]
  | .sltz rd rs => [.slt rd rs 0#5]
  | .sgtz rd rs => [.slt rd 0#5 rs]
  | .beqz rs off => [.beq rs 0#5 off]
  | .bnez rs off => [.bne rs 0#5 off]
  | .blez rs off => [.bge 0#5 rs off]
  | .bgez rs off => [.bge rs 0#5 off]
  | .bltz rs off => [.blt rs 0#5 off]
  | .bgtz rs off => [.blt 0#5 rs off]
  | .bgt a b off => [.blt b a off]
  | .ble a b off => [.bge b a off]
  | .bgtu a b off => [.bltu b a off]
  | .bleu a b off => [.bgeu b a off]
  | .j off => [.jal 0#5 off]
  | .jal off => [.jal 1#5 off]
  | .jr rs => [.jalr 0#5 rs 0#12]
  | .jalr rs => [.jalr 1#5 rs 0#12]
  | .ret => [.jalr 0#5 1#5 0#12]
  | .call d => [.auipc 1#5 (hi20 d), .jalr 1#5 1#5 (lo12 d)]
  | .tail d => [.auipc 6#5 (hi20 d), .jalr 0#5 6#5 (lo12 d)]
  | .la rd d => [.auipc rd (hi20 d), .addi rd rd (lo12 d)]

end Sys2Proof
end

