-- ==== Sys2Proof/Safety.lean ====
section
/-! DEFINITION. The terms the statements use: what an instruction's result is in plain arithmetic, what it leaves
unchanged, the invariant of the machine, and what counts as a run the functional mode can be compared with. Nothing here
is used by the model. -/

namespace Sys2Proof

open Sys2Proof.Machine

/-! ### Values in plain arithmetic -/

/-- The 64-bit value of an integer, modulo 2^64 (00_scope.md R14). -/
def wordOf (x : Int) : Word := BitVec.ofInt 64 x

/-- The 64-bit value of a 32-bit result, sign-extended (43_alu_word.md R118). -/
def wordOf32 (x : Int) : Word := BitVec.ofInt 64 (Int.bmod x (2 ^ 32))

/-- The low 32 bits as a natural number. -/
def low32Nat (v : Word) : Nat := v.toNat % 2 ^ 32

/-- The low 32 bits as a signed number. -/
def low32Int (v : Word) : Int := Int.bmod v.toNat (2 ^ 32)

/-- `v` is the word whose bit `k` is `f (bit k of a) (bit k of b)`. -/
def IsBitwise (f : Bool → Bool → Bool) (a b v : Word) : Prop :=
  ∀ k, k < 64 → v.getLsbD k = f (a.getLsbD k) (b.getLsbD k)

/-- The `n` bytes at `a`, the byte at `a` the least significant (20_memory.md R47). -/
def leValue (s : State) (a : Nat) : Nat → Nat
  | 0 => 0
  | n + 1 => (s.readByte a).toNat + 256 * leValue s (a + 1) n

/-! ### The formats of 30_encoding.md R73, most significant field first -/

def formatR (funct7 : BitVec 7) (rs2 rs1 : RegIdx) (funct3 : BitVec 3) (rd : RegIdx) (opcode : BitVec 7) : InstrWord :=
  funct7 ++ rs2 ++ rs1 ++ funct3 ++ rd ++ opcode

def formatI (imm : BitVec 12) (rs1 : RegIdx) (funct3 : BitVec 3) (rd : RegIdx) (opcode : BitVec 7) : InstrWord :=
  imm ++ rs1 ++ funct3 ++ rd ++ opcode

def formatShift64 (funct6 shamt : BitVec 6) (rs1 : RegIdx) (funct3 : BitVec 3) (rd : RegIdx) (opcode : BitVec 7) :
    InstrWord :=
  funct6 ++ shamt ++ rs1 ++ funct3 ++ rd ++ opcode

def formatS (imm : BitVec 12) (rs2 rs1 : RegIdx) (funct3 : BitVec 3) (opcode : BitVec 7) : InstrWord :=
  imm.extractLsb 11 5 ++ rs2 ++ rs1 ++ funct3 ++ imm.extractLsb 4 0 ++ opcode

def formatB (imm : BitVec 13) (rs2 rs1 : RegIdx) (funct3 : BitVec 3) (opcode : BitVec 7) : InstrWord :=
  imm.extractLsb 12 12 ++ imm.extractLsb 10 5 ++ rs2 ++ rs1 ++ funct3 ++ imm.extractLsb 4 1 ++ imm.extractLsb 11 11
    ++ opcode

def formatU (imm : BitVec 20) (rd : RegIdx) (opcode : BitVec 7) : InstrWord := imm ++ rd ++ opcode

def formatJ (imm : BitVec 21) (rd : RegIdx) (opcode : BitVec 7) : InstrWord :=
  imm.extractLsb 20 20 ++ imm.extractLsb 10 1 ++ imm.extractLsb 11 11 ++ imm.extractLsb 19 12 ++ rd ++ opcode

/-! ### What an instruction does in functional mode -/

/-- The instruction answers a next state, and `P` holds of it. -/
def Completes (i : Instr) (s : State) (P : State → Prop) : Prop := ∃ t, exec i s = .next t ∧ P t

/-- `t` is `s` after an instruction that writes `v` to `rd` and goes on at `npc`: a write to x0 is discarded, every
other register and every byte of memory reads as before, one instruction is counted, and nothing else changes. -/
structure RegResult (s : State) (rd : RegIdx) (v npc : Word) (t : State) : Prop where
  target : rd ≠ 0#5 → t.readReg rd = v
  others : ∀ r, r ≠ rd → t.readReg r = s.readReg r
  zero   : t.readReg 0#5 = 0#64
  pc     : t.pc = npc
  count  : t.dynInstrCount = s.dynInstrCount + 1
  bytes  : ∀ a, t.readByte a = s.readByte a
  rest   : t = { s with regs := t.regs, pc := t.pc, dynInstrCount := t.dynInstrCount }

/-- `t` is `s` after an instruction that stores the low `n` bytes of `v` at `a`, the low byte first, and goes on at
`npc`: every other byte and every register reads as before, one instruction is counted, and nothing else changes. -/
structure StoreResult (s : State) (a : Word) (n : Nat) (v npc : Word) (t : State) : Prop where
  stored  : ∀ k, k < n → t.readByte (a.toNat + k) = BitVec.ofNat 8 (v.toNat / 256 ^ k)
  outside : ∀ x, x < a.toNat ∨ a.toNat + n ≤ x → t.readByte x = s.readByte x
  regs    : ∀ r, t.readReg r = s.readReg r
  pc      : t.pc = npc
  count   : t.dynInstrCount = s.dynInstrCount + 1
  rest    : t = { s with mem := t.mem, pc := t.pc, dynInstrCount := t.dynInstrCount }

/-- `t` is `s` after an instruction that writes no register and no memory and goes on at `npc`. -/
structure JumpResult (s : State) (npc : Word) (t : State) : Prop where
  regs  : ∀ r, t.readReg r = s.readReg r
  pc    : t.pc = npc
  count : t.dynInstrCount = s.dynInstrCount + 1
  bytes : ∀ a, t.readByte a = s.readByte a
  rest  : t = { s with pc := t.pc, dynInstrCount := t.dynInstrCount }

/-- The instruction stops the run with status ILLEGAL and changes nothing else (30_encoding.md R93). -/
def StopsIllegal (i : Instr) (s : State) : Prop := exec i s = .next { s with status := .illegal }

/-- A load of `n` bytes at `a` into `rd`: in range it writes `v`; out of range it stops the run (45_loads_stores.md R131). -/
def LoadResult (i : Instr) (s : State) (a : Word) (n : Nat) (rd : RegIdx) (v : Word) : Prop :=
  (a.toNat + n ≤ s.memSize → Completes i s (RegResult s rd v (s.pc + 4#64))) ∧
  (s.memSize < a.toNat + n → StopsIllegal i s)

/-- The classification flags of an instruction are exactly `f`. -/
def HasFlags (i : Instr) (f : Flags) : Prop := flagsOf (some i) = f

/-! ### Caches and boot, in the spec's own terms -/

/-- 20_memory.md R63. -/
def LegalCache (c : CacheConfig) : Prop :=
  (∃ k, c.size = 2 ^ k) ∧ (∃ k, c.blockSize = 2 ^ k) ∧ (∃ k, c.ways = 2 ^ k) ∧ c.blockSize * c.ways ≤ c.size

/-- A sequence of accesses, the first of the list first. -/
def accessAll (c : CacheConfig) (k : Cache) : List Word → Cache
  | [] => k
  | a :: as => accessAll c (k.access c a).2 as

/-- The different members of a list, in the order of their first places. -/
def distinct : List Nat → List Nat
  | [] => []
  | x :: xs => x :: (distinct xs).filter (fun y => y ≠ x)

/-- The byte INIT_MEM gives address `a`: the first pair listed for it, else what an unlisted byte reads as. -/
def initialByte (b : BootParams) (size a : Nat) : Byte :=
  if a < size then
    match b.initMem.find? (fun p => p.1 == a) with
    | some p => p.2
    | none   => unlistedByte
  else unlistedByte

/-! ### The five slots -/

/-- The occupants, youngest first. -/
def slotsOf (s : State) : List Slot := [s.slotIF, s.slotID, s.slotEX, s.slotMEM, s.slotWB]

/-- The record in a slot, live or squashed. -/
def recordOf : Slot → Option Record
  | .full _ r => some r
  | .bubble   => none
  | .idle     => none

/-- The slot holds a live halt. -/
def liveHalt (sl : Slot) : Prop := ∃ r, sl.live? = some r ∧ r.flags.halt = true

/-- A squashed slot shown as a bubble, to say that what it holds does not matter. -/
def hideSquashed : Slot → Slot
  | .full .squashed _ => .bubble
  | sl => sl

/-- The machine with every squashed record hidden. -/
def hideAllSquashed (s : State) : State :=
  { s with
    slotIF := hideSquashed s.slotIF, slotID := hideSquashed s.slotID, slotEX := hideSquashed s.slotEX
    slotMEM := hideSquashed s.slotMEM, slotWB := hideSquashed s.slotWB }

/-- An edge that is neither a data-cache freeze nor the taking of a memory range exception. -/
def PlainEdge (o : State) : Prop :=
  o.status = .running ∧ o.dStall = 0 ∧ ∀ m, o.slotMEM.live? = some m → m.memFault = false

/-- What the MEM occupant, if it is live, writes at an edge: the register and the value. -/
def writeBack (o : State) : Option (RegIdx × Word) :=
  match o.slotMEM.live? with
  | some m => if m.memFault = false ∧ m.flags.writesRd = true ∧ m.rd ≠ 0#5 then some (m.rd, m.result) else none
  | none   => none

/-- A register as every step of an edge after the write-back reads it. -/
def readAfterWriteBack (o : State) (r : RegIdx) : Word :=
  match writeBack o with
  | some (d, v) => if r = d then v else o.readReg r
  | none        => o.readReg r

/-! ### The invariant -/

/-- A cache: canonical; every set used has an index below the set count, at most `ways` tags and no tag twice. -/
structure CacheInv (c : CacheConfig) (k : Cache) : Prop where
  canonical : sparseWf [] k.sets = true
  index     : ∀ i, setCount c ≤ i → k.set i = []
  bound     : ∀ i, (k.set i).length ≤ c.ways
  nodup     : ∀ i, (k.set i).Nodup

/-- The fields of a record that are fixed at fetch (10_state.md R31) agree with its raw word; without a word (NOWORD) there
are no decoded fields (log 11). -/
structure RecordInv (r : Record) : Prop where
  fields     : r.fields = r.raw.map Fields.ofWord
  op         : r.op = r.raw.bind operationOf
  flags      : r.flags = flagsOf r.op
  fetchFault : r.fetchFault = r.raw.isNone

/-- `t` is what a fetch at `a` with the tag `tag` makes of `o` (70_reset_and_hazards.md R205, 60_exceptions.md R165):
the new record, PC, the identifier counter, the instruction cache and its stall counter. -/
structure FetchedAt (o t : State) (tag : Tag) (a : Word) : Prop where
  record : ∃ r, t.slotIF = .full tag r ∧ r.pc = a ∧ r.dynId = o.nextDynId ∧ RecordInv r ∧ r.memFault = false ∧
    (∀ w, t.fetchWord a = .ok w → r.raw = some w) ∧ (∀ e, t.fetchWord a = .error e → r.raw = none)
  next : t.fetchPc = a + 4#64
  nextId : t.nextDynId = o.nextDynId + 1
  inRange : a.toNat + 4 ≤ o.memSize →
    t.icache = (o.icache.access o.ic a).2 ∧
    t.iStall = if (o.icache.access o.ic a).1 then 0 else o.ic.missLatency + 1
  outOfRange : o.memSize < a.toNat + 4 → t.icache = o.icache ∧ t.iStall = 0

/-- From `o` to `t` nothing is fetched: PC, the identifier counter and the instruction cache stay as they are. -/
structure FetchesNothing (o t : State) : Prop where
  pc     : t.fetchPc = o.fetchPc
  nextId : t.nextDynId = o.nextDynId
  icache : t.icache = o.icache

/-- The IF occupant moves into ID (70_reset_and_hazards.md R192 step 6, R210): NORMAL if it is live, else unchanged. -/
structure EntersID (o t : State) : Prop where
  live  : ∀ r, o.slotIF.live? = some r → t.slotID = .full .normal r
  inert : o.slotIF.live? = none → t.slotID = o.slotIF

/-- The sequential fetch behind the record entering ID (R202, R210): at PC, SPECULATIVE exactly if that record is a live
control transfer. -/
structure FetchedBehind (o t : State) : Prop where
  control : ∀ r, o.slotIF.live? = some r → r.isControl = true → FetchedAt o t .speculative o.fetchPc
  other   : (∀ r, o.slotIF.live? = some r → r.isControl = false) → FetchedAt o t .normal o.fetchPc

/-- No ID-stage event at a plain edge (R198 to R201): the ID occupant, if it is live, raises no exception, is no halt, does
not stall and does not redirect. -/
def NoIdEvent (o : State) : Prop :=
  ∀ d, o.slotID.live? = some d → d.flags.legal = true ∧ d.flags.halt = false ∧
    (d.isControl = false → loadUseHazard d o.slotEX = false) ∧
    (d.isControl = true → controlHazard d o.slotEX o.slotMEM = false ∧
      ∀ i, d.op = some i → nextPcOf i d.pc (if d.flags.readsRs1 then readAfterWriteBack o d.rs1 else 0#64)
        (if d.flags.readsRs2 then readAfterWriteBack o d.rs2 else 0#64) = d.pc + 4#64)

/-- What every step keeps. -/
structure Inv (s : State) : Prop where
  /-- Memory has its canonical form. -/
  memory : Memory.wf s.mem = true
  /-- No byte outside the memory store is listed. -/
  memoryRange : ∀ a, s.memSize ≤ a → s.readByte a = unlistedByte
  /-- The cell behind the hardwired x0 is 0. -/
  zero : s.regs[0] = 0#64
  icache : CacheInv s.ic s.icache
  dcache : CacheInv s.dc s.dcache
  /-- Every record's decoded fields, operation and flags are those of its word. -/
  records : ∀ sl ∈ slotsOf s, ∀ r, recordOf sl = some r → RecordInv r
  /-- Identifiers fall from IF to WB and are below the next one. -/
  ids : ((slotsOf s).filterMap recordOf).Pairwise (fun a b => b.dynId < a.dynId)
  nextId : ∀ sl ∈ slotsOf s, ∀ r, recordOf sl = some r → r.dynId < s.nextDynId
  /-- Every access of the instruction cache belongs to a fetch. -/
  fetches : s.icache.hits + s.icache.misses ≤ s.nextDynId
  /-- Only IF holds a SPECULATIVE record. -/
  speculative : ∀ sl ∈ [s.slotID, s.slotEX, s.slotMEM, s.slotWB], ∀ r, sl ≠ .full .speculative r
  /-- No illegal record is live behind ID. -/
  legal : ∀ sl ∈ [s.slotEX, s.slotMEM, s.slotWB], ∀ r, sl.live? = some r → r.flags.legal = true
  /-- Only the MEM occupant can have a failed access pending, and then no freeze is pending. -/
  memFault : ∀ sl ∈ [s.slotIF, s.slotID, s.slotEX, s.slotWB], ∀ r, sl.live? = some r → r.memFault = false
  memFaultNoFreeze : ∀ r, s.slotMEM.live? = some r → r.memFault = true → s.dStall = 0
  /-- A failed access belongs to a load or store. -/
  memFaultAccess : ∀ r, s.slotMEM.live? = some r → r.memFault = true →
    r.flags.readsMem = true ∨ r.flags.writesMem = true
  iStallBound : s.iStall ≤ s.ic.missLatency + icExtraStall
  dStallBound : s.dStall ≤ s.dc.missLatency
  /-- A freeze is pending only while the load or store that missed is in MEM. -/
  freeze : 0 < s.dStall → ∃ r, s.slotMEM.live? = some r ∧ (r.flags.readsMem = true ∨ r.flags.writesMem = true)
  /-- Nothing live is younger than a live halt that has left ID. -/
  haltEX : liveHalt s.slotEX → s.fetchStopped = true
  haltMEM : liveHalt s.slotMEM → s.fetchStopped = true ∧ s.slotEX.live? = none
  haltWB : liveHalt s.slotWB → s.status ≠ .running ∧ s.slotMEM.live? = none ∧ s.slotEX.live? = none
  fetchStopped : s.fetchStopped = true → s.slotID.live? = none ∧ s.slotIF.live? = none ∧ s.iStall = 0
  /-- Fetching is stopped only while a halt is on its way or has ended the run. -/
  stopCause : s.fetchStopped = true → liveHalt s.slotEX ∨ liveHalt s.slotMEM ∨ s.status ≠ .running
  /-- A pipelined run ends ILLEGAL exactly if an exception was raised. -/
  endStatus : s.mode = some .pipelined → (s.status = .illegal → s.excRaised = true) ∧ (s.status = .halt → s.excRaised = false)
  /-- Before a run and in functional mode the pipeline and the caches are as reset leaves them. -/
  unused : s.mode ≠ some .pipelined →
    slotsOf s = [.idle, .idle, .idle, .idle, .idle] ∧ s.cycle = 0 ∧ s.iStall = 0 ∧ s.dStall = 0 ∧ s.excRaised = false ∧
    s.fetchStopped = false ∧ s.loadUseStalls = 0 ∧ s.nextDynId = 0 ∧ s.icache = Cache.empty ∧ s.dcache = Cache.empty
  /-- No run command has been given, so nothing has stopped. -/
  unstarted : s.mode = none → s.status = .running ∧ s.dynInstrCount = 0

/-! ### Comparing the two modes (70_reset_and_hazards.md R213) -/

/-- A machine no instruction has run on yet: as reset leaves it, whatever the registers, memory, configuration and pc. -/
structure Fresh (s : State) : Prop where
  status : s.status = .running
  mode : s.mode = none
  slots : slotsOf s = [.idle, .idle, .idle, .idle, .idle]
  sameStart : s.fetchPc = s.pc
  noStall : s.iStall = 0 ∧ s.dStall = 0
  noFlags : s.excRaised = false ∧ s.fetchStopped = false
  counts : s.dynInstrCount = 0 ∧ s.nextDynId = 0

/-- Every live record that has not entered MEM holds the word memory still has at its address: no store has changed an
instruction after it was fetched (the program is not self-modifying in the sense of R214). -/
def Coherent (s : State) : Prop :=
  ∀ sl ∈ [s.slotIF, s.slotID, s.slotEX], ∀ r w, sl.live? = some r → r.raw = some w → s.fetchWord r.pc = .ok w

end Sys2Proof
end

