-- ==== Sys2Proof/Certificates/Slice0/Obligations.lean ====
section
/-! DEFINITION. The statements for the provers. Each cites the rules of spec/ it formalises; the terms are those of
Sys2Proof/Safety.lean. A statement of a functional-mode result holds for every state, whatever its mode and status: exec
is the meaning R93 gives after fetch and decode. -/

open Sys2Proof Sys2Proof.Machine

/-- O1, R97, R98. ADD and SUB write the sum and difference modulo 2^64. -/
def Obligations.AddSubtractResults : Prop :=
  ∀ (s : State) (rd rs1 rs2 : RegIdx),
    (decode (formatR 0b0000000#7 rs2 rs1 0b000#3 rd 0b0110011#7) = .ok (.add rd rs1 rs2) ∧
      Completes (.add rd rs1 rs2) s (RegResult s rd (wordOf (((s.readReg rs1).toNat : Int) + (s.readReg rs2).toNat)) (s.pc + 4#64))) ∧
    (decode (formatR 0b0100000#7 rs2 rs1 0b000#3 rd 0b0110011#7) = .ok (.sub rd rs1 rs2) ∧
      Completes (.sub rd rs1 rs2) s (RegResult s rd (wordOf (((s.readReg rs1).toNat : Int) - (s.readReg rs2).toNat)) (s.pc + 4#64)))

/-- O2, R99, R103, R104. SLL, SRL and SRA shift by the low six bits of rs2. -/
def Obligations.RegisterShiftResults : Prop :=
  ∀ (s : State) (rd rs1 rs2 : RegIdx),
    (decode (formatR 0b0000000#7 rs2 rs1 0b001#3 rd 0b0110011#7) = .ok (.sll rd rs1 rs2) ∧
      Completes (.sll rd rs1 rs2) s (RegResult s rd (wordOf ((s.readReg rs1).toNat * 2 ^ ((s.readReg rs2).toNat % 64))) (s.pc + 4#64))) ∧
    (decode (formatR 0b0000000#7 rs2 rs1 0b101#3 rd 0b0110011#7) = .ok (.srl rd rs1 rs2) ∧
      Completes (.srl rd rs1 rs2) s (RegResult s rd (wordOf ((s.readReg rs1).toNat / 2 ^ ((s.readReg rs2).toNat % 64))) (s.pc + 4#64))) ∧
    (decode (formatR 0b0100000#7 rs2 rs1 0b101#3 rd 0b0110011#7) = .ok (.sra rd rs1 rs2) ∧
      Completes (.sra rd rs1 rs2) s (RegResult s rd (wordOf ((s.readReg rs1).toInt / 2 ^ ((s.readReg rs2).toNat % 64))) (s.pc + 4#64)))

/-- O3, R100, R101. SLT and SLTU write 1 exactly when rs1 is less than rs2. -/
def Obligations.CompareResults : Prop :=
  ∀ (s : State) (rd rs1 rs2 : RegIdx),
    (decode (formatR 0b0000000#7 rs2 rs1 0b010#3 rd 0b0110011#7) = .ok (.slt rd rs1 rs2) ∧
      Completes (.slt rd rs1 rs2) s (RegResult s rd (if (s.readReg rs1).toInt < (s.readReg rs2).toInt then 1#64 else 0#64) (s.pc + 4#64))) ∧
    (decode (formatR 0b0000000#7 rs2 rs1 0b011#3 rd 0b0110011#7) = .ok (.sltu rd rs1 rs2) ∧
      Completes (.sltu rd rs1 rs2) s (RegResult s rd (if (s.readReg rs1).toNat < (s.readReg rs2).toNat then 1#64 else 0#64) (s.pc + 4#64)))

/-- O4, R102, R105, R106. XOR, OR and AND combine the sources bit by bit. -/
def Obligations.BitwiseResults : Prop :=
  ∀ (s : State) (rd rs1 rs2 : RegIdx),
    (decode (formatR 0b0000000#7 rs2 rs1 0b100#3 rd 0b0110011#7) = .ok (.xor rd rs1 rs2) ∧
      ∃ v, IsBitwise xor (s.readReg rs1) (s.readReg rs2) v ∧
        Completes (.xor rd rs1 rs2) s (RegResult s rd v (s.pc + 4#64))) ∧
    (decode (formatR 0b0000000#7 rs2 rs1 0b110#3 rd 0b0110011#7) = .ok (.or rd rs1 rs2) ∧
      ∃ v, IsBitwise or (s.readReg rs1) (s.readReg rs2) v ∧
        Completes (.or rd rs1 rs2) s (RegResult s rd v (s.pc + 4#64))) ∧
    (decode (formatR 0b0000000#7 rs2 rs1 0b111#3 rd 0b0110011#7) = .ok (.and rd rs1 rs2) ∧
      ∃ v, IsBitwise and (s.readReg rs1) (s.readReg rs2) v ∧
        Completes (.and rd rs1 rs2) s (RegResult s rd v (s.pc + 4#64)))

/-- O5, R109, R110, R111. ADDI, SLTI and SLTIU with the sign-extended immediate. -/
def Obligations.ImmediateArithmeticResults : Prop :=
  ∀ (s : State) (rd rs1 : RegIdx) (imm : BitVec 12),
    (decode (formatI imm rs1 0b000#3 rd 0b0010011#7) =
        (if rd = 0#5 ∧ rs1 = 0#5 ∧ imm = 0#12 then .ok .nop else .ok (.addi rd rs1 imm)) ∧
      Completes (.addi rd rs1 imm) s (RegResult s rd (wordOf (((s.readReg rs1).toNat : Int) + imm.toInt)) (s.pc + 4#64))) ∧
    (decode (formatI imm rs1 0b010#3 rd 0b0010011#7) = .ok (.slti rd rs1 imm) ∧
      Completes (.slti rd rs1 imm) s (RegResult s rd (if (s.readReg rs1).toInt < imm.toInt then 1#64 else 0#64) (s.pc + 4#64))) ∧
    (decode (formatI imm rs1 0b011#3 rd 0b0010011#7) = .ok (.sltiu rd rs1 imm) ∧
      Completes (.sltiu rd rs1 imm) s (RegResult s rd (if (s.readReg rs1).toNat < (wordOf imm.toInt).toNat then 1#64 else 0#64) (s.pc + 4#64)))

/-- O6, R112, R113, R114. XORI, ORI and ANDI with the sign-extended immediate. -/
def Obligations.ImmediateBitwiseResults : Prop :=
  ∀ (s : State) (rd rs1 : RegIdx) (imm : BitVec 12),
    (decode (formatI imm rs1 0b100#3 rd 0b0010011#7) = .ok (.xori rd rs1 imm) ∧
      ∃ v, IsBitwise xor (s.readReg rs1) (wordOf imm.toInt) v ∧
        Completes (.xori rd rs1 imm) s (RegResult s rd v (s.pc + 4#64))) ∧
    (decode (formatI imm rs1 0b110#3 rd 0b0010011#7) = .ok (.ori rd rs1 imm) ∧
      ∃ v, IsBitwise or (s.readReg rs1) (wordOf imm.toInt) v ∧
        Completes (.ori rd rs1 imm) s (RegResult s rd v (s.pc + 4#64))) ∧
    (decode (formatI imm rs1 0b111#3 rd 0b0010011#7) = .ok (.andi rd rs1 imm) ∧
      ∃ v, IsBitwise and (s.readReg rs1) (wordOf imm.toInt) v ∧
        Completes (.andi rd rs1 imm) s (RegResult s rd v (s.pc + 4#64)))

/-- O7, R115, R116, R117. SLLI, SRLI and SRAI by 0 to 63, and their illegal neighbours. -/
def Obligations.ImmediateShiftResults : Prop :=
  ∀ (s : State) (rd rs1 : RegIdx) (shamt : BitVec 6),
    (decode (formatShift64 0b000000#6 shamt rs1 0b001#3 rd 0b0010011#7) = .ok (.slli rd rs1 shamt) ∧
      Completes (.slli rd rs1 shamt) s (RegResult s rd (wordOf ((s.readReg rs1).toNat * 2 ^ shamt.toNat)) (s.pc + 4#64))) ∧
    (decode (formatShift64 0b000000#6 shamt rs1 0b101#3 rd 0b0010011#7) = .ok (.srli rd rs1 shamt) ∧
      Completes (.srli rd rs1 shamt) s (RegResult s rd (wordOf ((s.readReg rs1).toNat / 2 ^ shamt.toNat)) (s.pc + 4#64))) ∧
    (decode (formatShift64 0b010000#6 shamt rs1 0b101#3 rd 0b0010011#7) = .ok (.srai rd rs1 shamt) ∧
      Completes (.srai rd rs1 shamt) s (RegResult s rd (wordOf ((s.readReg rs1).toInt / 2 ^ shamt.toNat)) (s.pc + 4#64))) ∧
    (∀ f6, f6 ≠ 0b000000#6 → ∀ i, decode (formatShift64 f6 shamt rs1 0b001#3 rd 0b0010011#7) ≠ .ok i) ∧
    (∀ f6, f6 ≠ 0b000000#6 → f6 ≠ 0b010000#6 →
      ∀ i, decode (formatShift64 f6 shamt rs1 0b101#3 rd 0b0010011#7) ≠ .ok i)

/-- O8, R119, R123, R124. ADDIW, ADDW and SUBW compute on 32 bits and sign-extend. -/
def Obligations.WordArithmeticResults : Prop :=
  ∀ (s : State) (rd rs1 rs2 : RegIdx) (imm : BitVec 12),
    (decode (formatI imm rs1 0b000#3 rd 0b0011011#7) = .ok (.addiw rd rs1 imm) ∧
      Completes (.addiw rd rs1 imm) s (RegResult s rd (wordOf32 ((low32Nat (s.readReg rs1) : Int) + imm.toInt)) (s.pc + 4#64))) ∧
    (decode (formatR 0b0000000#7 rs2 rs1 0b000#3 rd 0b0111011#7) = .ok (.addw rd rs1 rs2) ∧
      Completes (.addw rd rs1 rs2) s (RegResult s rd (wordOf32 ((low32Nat (s.readReg rs1) : Int) + low32Nat (s.readReg rs2))) (s.pc + 4#64))) ∧
    (decode (formatR 0b0100000#7 rs2 rs1 0b000#3 rd 0b0111011#7) = .ok (.subw rd rs1 rs2) ∧
      Completes (.subw rd rs1 rs2) s (RegResult s rd (wordOf32 ((low32Nat (s.readReg rs1) : Int) - low32Nat (s.readReg rs2))) (s.pc + 4#64)))

/-- O9, R120, R121, R122. SLLIW, SRLIW and SRAIW by 0 to 31, and their illegal neighbours. -/
def Obligations.WordImmediateShiftResults : Prop :=
  ∀ (s : State) (rd rs1 : RegIdx) (shamt : BitVec 5),
    (decode (formatR 0b0000000#7 shamt rs1 0b001#3 rd 0b0011011#7) = .ok (.slliw rd rs1 shamt) ∧
      Completes (.slliw rd rs1 shamt) s (RegResult s rd (wordOf32 (low32Nat (s.readReg rs1) * 2 ^ shamt.toNat)) (s.pc + 4#64))) ∧
    (decode (formatR 0b0000000#7 shamt rs1 0b101#3 rd 0b0011011#7) = .ok (.srliw rd rs1 shamt) ∧
      Completes (.srliw rd rs1 shamt) s (RegResult s rd (wordOf32 (low32Nat (s.readReg rs1) / 2 ^ shamt.toNat)) (s.pc + 4#64))) ∧
    (decode (formatR 0b0100000#7 shamt rs1 0b101#3 rd 0b0011011#7) = .ok (.sraiw rd rs1 shamt) ∧
      Completes (.sraiw rd rs1 shamt) s (RegResult s rd (wordOf32 (low32Int (s.readReg rs1) / 2 ^ shamt.toNat)) (s.pc + 4#64))) ∧
    (∀ f7, f7 ≠ 0b0000000#7 → ∀ i, decode (formatR f7 shamt rs1 0b001#3 rd 0b0011011#7) ≠ .ok i) ∧
    (∀ f7, f7 ≠ 0b0000000#7 → f7 ≠ 0b0100000#7 → ∀ i, decode (formatR f7 shamt rs1 0b101#3 rd 0b0011011#7) ≠ .ok i)

/-- O10, R125, R126, R127. SLLW, SRLW and SRAW shift by the low five bits of rs2. -/
def Obligations.WordRegisterShiftResults : Prop :=
  ∀ (s : State) (rd rs1 rs2 : RegIdx),
    (decode (formatR 0b0000000#7 rs2 rs1 0b001#3 rd 0b0111011#7) = .ok (.sllw rd rs1 rs2) ∧
      Completes (.sllw rd rs1 rs2) s (RegResult s rd (wordOf32 (low32Nat (s.readReg rs1) * 2 ^ ((s.readReg rs2).toNat % 32))) (s.pc + 4#64))) ∧
    (decode (formatR 0b0000000#7 rs2 rs1 0b101#3 rd 0b0111011#7) = .ok (.srlw rd rs1 rs2) ∧
      Completes (.srlw rd rs1 rs2) s (RegResult s rd (wordOf32 (low32Nat (s.readReg rs1) / 2 ^ ((s.readReg rs2).toNat % 32))) (s.pc + 4#64))) ∧
    (decode (formatR 0b0100000#7 rs2 rs1 0b101#3 rd 0b0111011#7) = .ok (.sraw rd rs1 rs2) ∧
      Completes (.sraw rd rs1 rs2) s (RegResult s rd (wordOf32 (low32Int (s.readReg rs1) / 2 ^ ((s.readReg rs2).toNat % 32))) (s.pc + 4#64)))

/-- O11, R128, R129. LUI and AUIPC place the 20-bit immediate above twelve zeros. -/
def Obligations.UpperImmediateResults : Prop :=
  ∀ (s : State) (rd : RegIdx) (imm : BitVec 20),
    (decode (formatU imm rd 0b0110111#7) = .ok (.lui rd imm) ∧
      Completes (.lui rd imm) s (RegResult s rd (wordOf (Int.bmod (imm.toNat * 4096) (2 ^ 32))) (s.pc + 4#64))) ∧
    (decode (formatU imm rd 0b0010111#7) = .ok (.auipc rd imm) ∧
      Completes (.auipc rd imm) s (RegResult s rd (wordOf ((s.pc.toNat : Int) + Int.bmod (imm.toNat * 4096) (2 ^ 32))) (s.pc + 4#64))) ∧
    HasFlags (.lui rd imm) ⟨true, false, false, false, false, true, true, false, false⟩ ∧
    HasFlags (.auipc rd imm) ⟨true, false, false, false, false, true, true, false, false⟩

/-- O12, R133, R134, R135, R136. LB, LH, LW and LD load little-endian and sign-extend. -/
def Obligations.SignedLoadResults : Prop :=
  ∀ (s : State) (rd rs1 : RegIdx) (imm : BitVec 12),
    loadAddress (s.readReg rs1) imm = wordOf (((s.readReg rs1).toNat : Int) + imm.toInt) ∧
    (decode (formatI imm rs1 0b000#3 rd 0b0000011#7) = .ok (.lb rd rs1 imm) ∧
      LoadResult (.lb rd rs1 imm) s (loadAddress (s.readReg rs1) imm) 1 rd
        (wordOf (Int.bmod (leValue s (loadAddress (s.readReg rs1) imm).toNat 1) (2 ^ 8)))) ∧
    (decode (formatI imm rs1 0b001#3 rd 0b0000011#7) = .ok (.lh rd rs1 imm) ∧
      LoadResult (.lh rd rs1 imm) s (loadAddress (s.readReg rs1) imm) 2 rd
        (wordOf (Int.bmod (leValue s (loadAddress (s.readReg rs1) imm).toNat 2) (2 ^ 16)))) ∧
    (decode (formatI imm rs1 0b010#3 rd 0b0000011#7) = .ok (.lw rd rs1 imm) ∧
      LoadResult (.lw rd rs1 imm) s (loadAddress (s.readReg rs1) imm) 4 rd
        (wordOf (Int.bmod (leValue s (loadAddress (s.readReg rs1) imm).toNat 4) (2 ^ 32)))) ∧
    (decode (formatI imm rs1 0b011#3 rd 0b0000011#7) = .ok (.ld rd rs1 imm) ∧
      LoadResult (.ld rd rs1 imm) s (loadAddress (s.readReg rs1) imm) 8 rd
        (wordOf (Int.bmod (leValue s (loadAddress (s.readReg rs1) imm).toNat 8) (2 ^ 64))))

/-- O13, R137, R138, R139. LBU, LHU and LWU load little-endian and zero-extend. -/
def Obligations.UnsignedLoadResults : Prop :=
  ∀ (s : State) (rd rs1 : RegIdx) (imm : BitVec 12),
    loadAddress (s.readReg rs1) imm = wordOf (((s.readReg rs1).toNat : Int) + imm.toInt) ∧
    (decode (formatI imm rs1 0b100#3 rd 0b0000011#7) = .ok (.lbu rd rs1 imm) ∧
      LoadResult (.lbu rd rs1 imm) s (loadAddress (s.readReg rs1) imm) 1 rd
        (wordOf (leValue s (loadAddress (s.readReg rs1) imm).toNat 1))) ∧
    (decode (formatI imm rs1 0b101#3 rd 0b0000011#7) = .ok (.lhu rd rs1 imm) ∧
      LoadResult (.lhu rd rs1 imm) s (loadAddress (s.readReg rs1) imm) 2 rd
        (wordOf (leValue s (loadAddress (s.readReg rs1) imm).toNat 2))) ∧
    (decode (formatI imm rs1 0b110#3 rd 0b0000011#7) = .ok (.lwu rd rs1 imm) ∧
      LoadResult (.lwu rd rs1 imm) s (loadAddress (s.readReg rs1) imm) 4 rd
        (wordOf (leValue s (loadAddress (s.readReg rs1) imm).toNat 4)))

/-- O14, R141, R142, R143, R144. SB, SH, SW and SD store the low bytes little-endian. -/
def Obligations.StoreResults : Prop :=
  ∀ (s : State) (rs1 rs2 : RegIdx) (imm : BitVec 12), Memory.wf s.mem = true →
    storeAddress (s.readReg rs1) imm = wordOf (((s.readReg rs1).toNat : Int) + imm.toInt) ∧
    (decode (formatS imm rs2 rs1 0b000#3 0b0100011#7) = .ok (.sb rs1 rs2 imm) ∧
      ((storeAddress (s.readReg rs1) imm).toNat + 1 ≤ s.memSize →
        Completes (.sb rs1 rs2 imm) s
          (StoreResult s (storeAddress (s.readReg rs1) imm) 1 (s.readReg rs2) (s.pc + 4#64))) ∧
      (s.memSize < (storeAddress (s.readReg rs1) imm).toNat + 1 → StopsIllegal (.sb rs1 rs2 imm) s)) ∧
    (decode (formatS imm rs2 rs1 0b001#3 0b0100011#7) = .ok (.sh rs1 rs2 imm) ∧
      ((storeAddress (s.readReg rs1) imm).toNat + 2 ≤ s.memSize →
        Completes (.sh rs1 rs2 imm) s
          (StoreResult s (storeAddress (s.readReg rs1) imm) 2 (s.readReg rs2) (s.pc + 4#64))) ∧
      (s.memSize < (storeAddress (s.readReg rs1) imm).toNat + 2 → StopsIllegal (.sh rs1 rs2 imm) s)) ∧
    (decode (formatS imm rs2 rs1 0b010#3 0b0100011#7) = .ok (.sw rs1 rs2 imm) ∧
      ((storeAddress (s.readReg rs1) imm).toNat + 4 ≤ s.memSize →
        Completes (.sw rs1 rs2 imm) s
          (StoreResult s (storeAddress (s.readReg rs1) imm) 4 (s.readReg rs2) (s.pc + 4#64))) ∧
      (s.memSize < (storeAddress (s.readReg rs1) imm).toNat + 4 → StopsIllegal (.sw rs1 rs2 imm) s)) ∧
    (decode (formatS imm rs2 rs1 0b011#3 0b0100011#7) = .ok (.sd rs1 rs2 imm) ∧
      ((storeAddress (s.readReg rs1) imm).toNat + 8 ≤ s.memSize →
        Completes (.sd rs1 rs2 imm) s
          (StoreResult s (storeAddress (s.readReg rs1) imm) 8 (s.readReg rs2) (s.pc + 4#64))) ∧
      (s.memSize < (storeAddress (s.readReg rs1) imm).toNat + 8 → StopsIllegal (.sd rs1 rs2 imm) s))

/-- O15, R147, R148, R149, R150, R151, R152, R153. Each branch goes to pc + offset exactly when its comparison holds.
-/
def Obligations.BranchResults : Prop :=
  ∀ (s : State) (rs1 rs2 : RegIdx) (off : BitVec 13), off.getLsbD 0 = false →
    (decode (formatB off rs2 rs1 0b000#3 0b1100011#7) = .ok (.beq rs1 rs2 off) ∧
      HasFlags (.beq rs1 rs2 off) ⟨true, false, false, false, false, false, false, true, true⟩ ∧
      Completes (.beq rs1 rs2 off) s
        (JumpResult s (if (s.readReg rs1) = (s.readReg rs2) then wordOf ((s.pc.toNat : Int) + off.toInt) else s.pc + 4#64))) ∧
    (decode (formatB off rs2 rs1 0b001#3 0b1100011#7) = .ok (.bne rs1 rs2 off) ∧
      HasFlags (.bne rs1 rs2 off) ⟨true, false, false, false, false, false, false, true, true⟩ ∧
      Completes (.bne rs1 rs2 off) s
        (JumpResult s (if (s.readReg rs1) ≠ (s.readReg rs2) then wordOf ((s.pc.toNat : Int) + off.toInt) else s.pc + 4#64))) ∧
    (decode (formatB off rs2 rs1 0b100#3 0b1100011#7) = .ok (.blt rs1 rs2 off) ∧
      HasFlags (.blt rs1 rs2 off) ⟨true, false, false, false, false, false, false, true, true⟩ ∧
      Completes (.blt rs1 rs2 off) s
        (JumpResult s (if (s.readReg rs1).toInt < (s.readReg rs2).toInt then wordOf ((s.pc.toNat : Int) + off.toInt) else s.pc + 4#64))) ∧
    (decode (formatB off rs2 rs1 0b101#3 0b1100011#7) = .ok (.bge rs1 rs2 off) ∧
      HasFlags (.bge rs1 rs2 off) ⟨true, false, false, false, false, false, false, true, true⟩ ∧
      Completes (.bge rs1 rs2 off) s
        (JumpResult s (if (s.readReg rs2).toInt ≤ (s.readReg rs1).toInt then wordOf ((s.pc.toNat : Int) + off.toInt) else s.pc + 4#64))) ∧
    (decode (formatB off rs2 rs1 0b110#3 0b1100011#7) = .ok (.bltu rs1 rs2 off) ∧
      HasFlags (.bltu rs1 rs2 off) ⟨true, false, false, false, false, false, false, true, true⟩ ∧
      Completes (.bltu rs1 rs2 off) s
        (JumpResult s (if (s.readReg rs1).toNat < (s.readReg rs2).toNat then wordOf ((s.pc.toNat : Int) + off.toInt) else s.pc + 4#64))) ∧
    (decode (formatB off rs2 rs1 0b111#3 0b1100011#7) = .ok (.bgeu rs1 rs2 off) ∧
      HasFlags (.bgeu rs1 rs2 off) ⟨true, false, false, false, false, false, false, true, true⟩ ∧
      Completes (.bgeu rs1 rs2 off) s
        (JumpResult s (if (s.readReg rs2).toNat ≤ (s.readReg rs1).toNat then wordOf ((s.pc.toNat : Int) + off.toInt) else s.pc + 4#64)))

/-- O16, R154, R155. JAL and JALR link pc + 4 and jump to the spec's target. -/
def Obligations.JumpResults : Prop :=
  ∀ (s : State) (rd rs1 : RegIdx) (off : BitVec 21) (imm : BitVec 12), off.getLsbD 0 = false →
    decode (formatJ off rd 0b1101111#7) = .ok (.jal rd off) ∧
    HasFlags (.jal rd off) ⟨true, false, false, false, false, false, true, false, false⟩ ∧
    Completes (.jal rd off) s (RegResult s rd (s.pc + 4#64) (wordOf ((s.pc.toNat : Int) + off.toInt))) ∧
    decode (formatI imm rs1 0b000#3 rd 0b1100111#7) = .ok (.jalr rd rs1 imm) ∧
    HasFlags (.jalr rd rs1 imm) ⟨true, false, false, false, false, false, true, true, false⟩ ∧
    Completes (.jalr rd rs1 imm) s
      (RegResult s rd (s.pc + 4#64)
        (wordOf (2 * ((wordOf (((s.readReg rs1).toNat : Int) + imm.toInt)).toNat / 2))))

/-- O17, R159. NOP only moves the pc, counts, and never causes a hazard. -/
def Obligations.NopResult : Prop :=
  decode 0x00000013#32 = .ok .nop ∧
    (∀ s : State, Completes .nop s (JumpResult s (s.pc + 4#64))) ∧
    ∀ r : Record, r.flags = flagsOf (some .nop) →
      (∀ ex, loadUseHazard r ex = false) ∧ (∀ ex mem, controlHazard r ex mem = false) ∧ ∀ i, r.writes i = false

/-- O18, R158, 47_sentinels.md. HALT in functional mode stops the run with status HALT. The pipelined half of R158 is
stated by HaltInDecodeEdge and WriteBackEdge. -/
def Obligations.HaltResult : Prop :=
  decode 0xFEEDFEED#32 = .ok .halt ∧
    ∀ s : State, exec .halt s = .next { s with status := .halt, dynInstrCount := s.dynInstrCount + 1 }

/-- O19, R46, R47, R48. MemRead and MemWrite are little-endian and check the whole access. -/
def Obligations.MemoryAccessBytes : Prop :=
  ∀ (s : State) (a v : Word) (n : Nat), n ∈ [1, 2, 4, 8] →
    (s.inRange a n = true ↔ a.toNat + n ≤ s.memSize) ∧
    (a.toNat + n ≤ s.memSize →
      (∃ x, s.memRead a n = .ok x ∧ x.toNat = leValue s a.toNat n) ∧
      (Memory.wf s.mem = true →
        ∃ t, s.memWrite a n v = .ok t ∧ t = { s with mem := t.mem } ∧
          (∀ k, k < n → t.readByte (a.toNat + k) = BitVec.ofNat 8 (v.toNat / 256 ^ k)) ∧
          ∀ x, x < a.toNat ∨ a.toNat + n ≤ x → t.readByte x = s.readByte x)) ∧
    (s.memSize < a.toNat + n →
      s.memRead a n = .error .rangeError ∧ s.memWrite a n v = .error .rangeError)

/-- O20, R145, 45_loads_stores.md. A load after a store of the same width gives back the stored bytes. -/
def Obligations.StoreLoadRoundTrip : Prop :=
  ∀ (s t u : State) (a v : Word) (n : Nat), n ∈ [1, 2, 4, 8] → Memory.wf s.mem = true →
    s.memWrite a n v = .ok t → u.memSize = s.memSize →
    (∀ k, k < n → u.readByte (a.toNat + k) = t.readByte (a.toNat + k)) →
    ∃ x, u.memRead a n = .ok x ∧ x.toNat = v.toNat % 2 ^ (8 * n) ∧
      unsignedLoad n x = wordOf (v.toNat % 2 ^ (8 * n) : Nat) ∧
      signedLoad n x = wordOf (Int.bmod v.toNat (2 ^ (8 * n))) ∧ (n = 8 → x = v)

/-- O21, R73, R86, 30_encoding.md. Decoding the encoding of a well-formed instruction gives it back. -/
def Obligations.DecodeEncodeRoundTrip : Prop :=
  ∀ i : Instr, i.WellFormed → decode (encode i) = .ok i

/-- O22, R83, R86, 30_encoding.md. Every word that decodes is the encoding of its well-formed instruction. -/
def Obligations.EncodeDecodeRoundTrip : Prop :=
  ∀ (w : InstrWord) (i : Instr), decode w = .ok i → i.WellFormed ∧ encode i = w

/-- O23, R86. The decoder accepts the two sentinels and the 49 rows, and nothing else. -/
def Obligations.DecodeMatchesTable : Prop :=
  legalRows.length = 49 ∧ decode 0xFEEDFEED#32 = .ok .halt ∧ decode 0x00000013#32 = .ok .nop ∧
    (∀ (w : InstrWord) (a b : TableRow), a ∈ legalRows → b ∈ legalRows → a.covers w = true → b.covers w = true → a = b) ∧
    ∀ w : InstrWord, w ≠ 0xFEEDFEED#32 → w ≠ 0x00000013#32 →
      (∀ r ∈ legalRows, r.covers w = true → ∃ i, decode w = .ok i ∧ i.mnemonic = r.name) ∧
      ∀ i, decode w = .ok i → ∃ r ∈ legalRows, r.covers w = true ∧ r.name = i.mnemonic

/-- O24, R84, R85. The sentinel words, their flags, and the effect NOP shares with its ADDI row. -/
def Obligations.SentinelWords : Prop :=
  decode 0xFEEDFEED#32 = .ok .halt ∧ HasFlags .halt ⟨true, true, false, false, false, false, false, false, false⟩ ∧
    opcodeOf 0xFEEDFEED#32 = 0x6D#7 ∧
    (∀ (w : InstrWord) (i : Instr), opcodeOf w = 0x6D#7 → decode w = .ok i → w = 0xFEEDFEED#32) ∧
    decode 0x00000013#32 = .ok .nop ∧ HasFlags .nop ⟨true, false, true, false, false, false, false, false, false⟩ ∧
    TableRow.covers ⟨"ADDI", 0x0000707F#32, 0x00000013#32⟩ 0x00000013#32 = true ∧
    ∀ s : State, exec (.addi 0#5 0#5 0#12) s = exec .nop s

/-- O25, R88. Each classification flag is set for exactly the mnemonics of its column. -/
def Obligations.FlagsByClass : Prop :=
  (∀ i : Instr,
      let f := flagsOf (some i)
      (f.readsRs1 = true ↔ i.mnemonic ∈ ["ADD", "SUB", "SLL", "SLT", "SLTU", "XOR", "SRL", "SRA", "OR", "AND", "ADDW", "SUBW", "SLLW", "SRLW", "SRAW"] ++
        ["ADDI", "SLTI", "SLTIU", "XORI", "ORI", "ANDI", "SLLI", "SRLI", "SRAI", "ADDIW", "SLLIW", "SRLIW", "SRAIW"] ++
        ["LB", "LH", "LW", "LD", "LBU", "LHU", "LWU"] ++ ["SB", "SH", "SW", "SD"] ++ ["BEQ", "BNE", "BLT", "BGE", "BLTU", "BGEU"] ++ ["JALR"]) ∧
      (f.readsRs2 = true ↔ i.mnemonic ∈ ["ADD", "SUB", "SLL", "SLT", "SLTU", "XOR", "SRL", "SRA", "OR", "AND", "ADDW", "SUBW", "SLLW", "SRLW", "SRAW"] ++
        ["SB", "SH", "SW", "SD"] ++ ["BEQ", "BNE", "BLT", "BGE", "BLTU", "BGEU"]) ∧
      (f.writesRd = true ↔ i.mnemonic ∈ ["ADD", "SUB", "SLL", "SLT", "SLTU", "XOR", "SRL", "SRA", "OR", "AND", "ADDW", "SUBW", "SLLW", "SRLW", "SRAW"] ++
        ["ADDI", "SLTI", "SLTIU", "XORI", "ORI", "ANDI", "SLLI", "SRLI", "SRAI", "ADDIW", "SLLIW", "SRLIW", "SRAIW"] ++
        ["LUI", "AUIPC"] ++ ["LB", "LH", "LW", "LD", "LBU", "LHU", "LWU"] ++ ["JAL", "JALR"]) ∧
      (f.readsMem = true ↔ i.mnemonic ∈ ["LB", "LH", "LW", "LD", "LBU", "LHU", "LWU"]) ∧
      (f.writesMem = true ↔ i.mnemonic ∈ ["SB", "SH", "SW", "SD"]) ∧
      (f.doesArith = true ↔ i.mnemonic ∈ ["ADD", "SUB", "SLL", "SLT", "SLTU", "XOR", "SRL", "SRA", "OR", "AND", "ADDW", "SUBW", "SLLW", "SRLW", "SRAW"] ++
        ["ADDI", "SLTI", "SLTIU", "XORI", "ORI", "ANDI", "SLLI", "SRLI", "SRAI", "ADDIW", "SLLIW", "SRLIW", "SRAIW"] ++ ["LUI", "AUIPC"]) ∧
      f.legal = true ∧ (f.halt = true ↔ i.mnemonic = "HALT") ∧ (f.nop = true ↔ i.mnemonic = "NOP") ∧
      (isControl i = true ↔ i.mnemonic ∈ ["BEQ", "BNE", "BLT", "BGE", "BLTU", "BGEU"] ++ ["JAL", "JALR"])) ∧
    flagsOf none = ⟨false, false, false, false, false, false, false, false, false⟩

/-- O26, R76, R77, R78, R79, R80. The five immediates are the signed numbers the spec assembles. -/
def Obligations.ImmediateFields : Prop :=
  ∀ w : InstrWord,
    let n := w.toNat
    (immI (immIOf w)).toInt = Int.bmod (n / 2 ^ 20) (2 ^ 12) ∧
    (immS (immSOf w)).toInt = Int.bmod (n / 2 ^ 25 * 2 ^ 5 + n / 2 ^ 7 % 2 ^ 5 : Nat) (2 ^ 12) ∧
    (immB (immBOf w)).toInt =
      Int.bmod (n / 2 ^ 31 * 2 ^ 12 + n / 2 ^ 7 % 2 * 2 ^ 11 + n / 2 ^ 25 % 2 ^ 6 * 2 ^ 5 + n / 2 ^ 8 % 2 ^ 4 * 2 : Nat)
        (2 ^ 13) ∧
    (immU (immUOf w)).toInt = Int.bmod (n / 2 ^ 12 * 2 ^ 12 : Nat) (2 ^ 32) ∧
    (immJ (immJOf w)).toInt =
      Int.bmod (n / 2 ^ 31 * 2 ^ 20 + n / 2 ^ 12 % 2 ^ 8 * 2 ^ 12 + n / 2 ^ 20 % 2 * 2 ^ 11 + n / 2 ^ 21 % 2 ^ 10 * 2 : Nat)
        (2 ^ 21)

/-- O27, 41_alu_register.md, 42_alu_immediate.md, 44_upper_immediate.md, 46_control_transfer.md, 47_sentinels.md. The
words the spec writes out decode to the instructions it names. -/
def Obligations.SampleWordsDecode : Prop :=
  decode 0x002081B3#32 = .ok (.add 3#5 1#5 2#5) ∧ decode 0x00500093#32 = .ok (.addi 1#5 0#5 5#12) ∧
    decode 0x123452B7#32 = .ok (.lui 5#5 0x12345#20) ∧ decode 0x00001317#32 = .ok (.auipc 6#5 1#20) ∧
    decode 0x00208463#32 = .ok (.beq 1#5 2#5 8#13) ∧ decode 0x020000EF#32 = .ok (.jal 1#5 0x20#21) ∧
    ∀ w ∈ [0x00000000#32, 0x00000073#32, 0x00100073#32, 0x30200073#32, 0x10200073#32, 0x10500073#32],
      operationOf w = none

/-- O28, R49, R93, R187, R188, 30_encoding.md. A step runs the instruction whose bytes stand at the pc. That a step at
mode NONE is a functional one is the model's choice (log 5). -/
def Obligations.StepRunsDecodedInstruction : Prop :=
  (∀ (s : State) (i : Instr), s.status = .running → s.mode ≠ some .pipelined → s.configLegal = true →
      s.pc.toNat + 4 ≤ s.memSize →
      decodeBytes [s.readByte s.pc.toNat, s.readByte (s.pc.toNat + 1), s.readByte (s.pc.toNat + 2),
        s.readByte (s.pc.toNat + 3)] = .ok (i, []) →
      step s = exec i { s with mode := some .functional }) ∧
    ∀ s : State, s.mode = some .pipelined → s.configLegal = true → step s = .next (edge s)

/-- O29, R29, R93, R160, R187, R188, R192, 60_exceptions.md. An out-of-range fetch or an illegal word stops a
functional run, a stopped machine stays. That a stopped machine's step and edge leave it as it is: log 9 (DEDUCED). -/
def Obligations.FunctionalStops : Prop :=
  ∀ s : State,
    (s.status = .running → s.memSize < s.pc.toNat + 4 → functionalStep s = .next { s with status := .illegal }) ∧
    (∀ w, s.status = .running → s.fetchWord s.pc = .ok w → (∀ i, decode w ≠ .ok i) →
      functionalStep s = .next { s with status := .illegal }) ∧
    (s.status ≠ .running → functionalStep s = .next s ∧ edge s = s)

/-- O30, R90, R91, R92, R93, 30_encoding.md. Each instruction's meaning is the chain of stage functions the pipeline
uses. -/
def Obligations.ExecIsChain : Prop :=
  ∀ (i : Instr) (s : State), exec i s = .next (chainExec i s)

/-- O31, R22, R92, R93, R176, 30_encoding.md. What no instruction changes in functional mode. -/
def Obligations.ExecFrame : Prop :=
  ∀ (i : Instr) (s : State), ∃ t, exec i s = .next t ∧
    t = { s with regs := t.regs, pc := t.pc, status := t.status, dynInstrCount := t.dynInstrCount, mem := t.mem } ∧
    (∀ r, r ≠ (fieldsOf i).rd ∨ (flagsOf (some i)).writesRd = false → t.readReg r = s.readReg r) ∧
    ((flagsOf (some i)).writesMem = false → t.mem = s.mem) ∧
    (∀ m, addressOf i (collect (flagsOf (some i)).readsRs1 (fieldsOf i).rs1 s) = some m →
      ∀ a, a < m.toNat ∨ m.toNat + widthOf i ≤ a → t.readByte a = s.readByte a) ∧
    ((flagsOf (some i)).writesMem = true → ∃ m, addressOf i (collect (flagsOf (some i)).readsRs1 (fieldsOf i).rs1 s) = some m) ∧
    (t.status = s.status ∨ i = .halt ∧ t.status = .halt ∨
      ((flagsOf (some i)).readsMem = true ∨ (flagsOf (some i)).writesMem = true) ∧ t = { s with status := .illegal })

/-- O32, R20. x0 reads zero everywhere, discards writes and matches no hazard. -/
def Obligations.ZeroRegister : Prop :=
  ∀ s : State, s.readReg 0#5 = 0#64 ∧ (∀ v, s.writeReg 0#5 v = s) ∧ (∀ b, collect b 0#5 s = 0#64) ∧
    (∀ ex, forward ex s 0#5 = 0#64) ∧ (∀ r : Record, r.writes 0#5 = false) ∧
    ∀ d : Record, d.rs1 = 0#5 → d.rs2 = 0#5 →
      (∀ ex, loadUseHazard d ex = false) ∧ ∀ ex mem, controlHazard d ex mem = false

/-- O33, R44, R182, 70_reset_and_hazards.md. What reset leaves in every piece of state. The model's choice, and no
rule of the spec: the bytes INIT_MEM gives are logs 3 and 20 (DESIGN CHOICE), and that a reset whose image does not
fit resets everything else and leaves INIT_MEM is log 19 (DEDUCED). -/
def Obligations.ResetValues : Prop :=
  ∀ (s : State) (b : BootParams),
    let t := s.hostReset b
    (∀ r : RegIdx, t.readReg r = if r = 0#5 then 0#64 else b.initRegs[r.toNat]'r.isLt) ∧
    t.pc = b.resetPc ∧ t.fetchPc = b.resetPc ∧ slotsOf t = [.idle, .idle, .idle, .idle, .idle] ∧
    t.cycle = 0 ∧ t.iStall = 0 ∧ t.dStall = 0 ∧ t.excRaised = false ∧ t.fetchStopped = false ∧
    t.dynInstrCount = 0 ∧ t.loadUseStalls = 0 ∧ t.nextDynId = 0 ∧
    (∀ i, t.icache.set i = [] ∧ t.dcache.set i = []) ∧
    t.icache.hits = 0 ∧ t.icache.misses = 0 ∧ t.dcache.hits = 0 ∧ t.dcache.misses = 0 ∧
    t.status = .running ∧ t.mode = none ∧
    t.ic = s.ic ∧ t.dc = s.dc ∧ t.excHandlerAddr = s.excHandlerAddr ∧ t.memSize = s.memSize ∧
    (b.imageBase.toNat + b.image.length ≤ s.memSize →
      (∀ k (h : k < b.image.length), t.readByte (b.imageBase.toNat + k) = b.image[k]) ∧
      ∀ a, a < b.imageBase.toNat ∨ b.imageBase.toNat + b.image.length ≤ a →
        t.readByte a = initialByte b s.memSize a) ∧
    (s.memSize < b.imageBase.toNat + b.image.length → ∀ a, t.readByte a = initialByte b s.memSize a)

/-- O34, R50. loadImage writes every byte or, out of range, none. -/
def Obligations.LoadImageWrites : Prop :=
  ∀ (s : State) (base : Word) (bytes : List Byte), Memory.wf s.mem = true →
    (base.toNat + bytes.length ≤ s.memSize →
      ∃ t, loadImage base bytes s = .next t ∧ t = { s with mem := t.mem } ∧
        (∀ k (h : k < bytes.length), t.readByte (base.toNat + k) = bytes[k]) ∧
        ∀ a, a < base.toNat ∨ base.toNat + bytes.length ≤ a → t.readByte a = s.readByte a) ∧
    (bytes ≠ [] → s.memSize < base.toNat + bytes.length → loadImage base bytes s = .refused .imageOutOfRange)

/-- O35, R185, R186. Run commands refuse an illegal configuration and the other mode. -/
def Obligations.RunRefusals : Prop :=
  ∀ (s : State) (n : Nat),
    (s.configLegal = true ↔ LegalCache s.ic ∧ LegalCache s.dc) ∧
    (s.configLegal = false → runCycles n s = .refused .configError ∧ runInstructions n s = .refused .configError ∧
      ∀ m, hostCommand (.runUntilStop m n) s = .refused .configError) ∧
    (s.configLegal = true → s.mode = some .functional →
      runCycles n s = .refused .modeError ∧ hostCommand (.runUntilStop .pipelined n) s = .refused .modeError) ∧
    (s.configLegal = true → s.mode = some .pipelined →
      runInstructions n s = .refused .modeError ∧ hostCommand (.runUntilStop .functional n) s = .refused .modeError) ∧
    (s.configLegal = true → s.mode ≠ some .functional → ∃ t, runCycles n s = .next t ∧ t.mode = some .pipelined) ∧
    (s.configLegal = true → s.mode ≠ some .pipelined → ∃ t, runInstructions n s = .next t ∧ t.mode = some .functional)

/-- O36, R187, R188, 70_reset_and_hazards.md. A run of m then n units is a run of m + n units. -/
def Obligations.BudgetedRunsResume : Prop :=
  ∀ (s : State) (m n : Nat),
    (∀ t, runCycles m s = .next t → runCycles n t = runCycles (m + n) s) ∧
    (∀ t, runInstructions m s = .next t → runInstructions n t = runInstructions (m + n) s) ∧
    (s.configLegal = true → s.mode = some .pipelined → runCycles 1 s = .next (edge s))

/-- O37, R28, 10_state.md. No step changes a configuration register. -/
def Obligations.ConfigurationConstant : Prop :=
  ∀ s t : State, step s = .next t →
    t.ic = s.ic ∧ t.dc = s.dc ∧ t.excHandlerAddr = s.excHandlerAddr ∧ t.memSize = s.memSize

/-- O38, R93, R185, R187, R188, R192, 70_reset_and_hazards.md. A step never faults and is refused only for an illegal
configuration. The model's choice: that a step is one unit of a run in the mode the session is in, and a functional
one at mode NONE, so never a MODE_ERROR, is log 5 (DESIGN CHOICE); that a step of a stopped machine answers a next
state is log 9 (DEDUCED). -/
def Obligations.StepIsTotal : Prop :=
  ∀ s : State, (s.configLegal = true → ∃ t, step s = .next t) ∧
    (s.configLegal = false → step s = .refused .configError)

/-- O39, R65, R66. A cache access hits, moves to the tail, or evicts the head. -/
def Obligations.CacheAccessLru : Prop :=
  ∀ (c : CacheConfig) (k : Cache) (a : Word), cacheLegal c = true → sparseWf [] k.sets = true →
    let L := k.set (cacheIndex c a)
    let g := cacheTag c a
    let t := (k.access c a).2
    ((k.access c a).1 = true ↔ g ∈ L) ∧
    (g ∈ L → (∃ p q, L = p ++ g :: q ∧ g ∉ p ∧ t.set (cacheIndex c a) = p ++ q ++ [g]) ∧
      t.hits = k.hits + 1 ∧ t.misses = k.misses) ∧
    (g ∉ L → (L.length = c.ways → ∃ h q, L = h :: q ∧ t.set (cacheIndex c a) = q ++ [g]) ∧
      (L.length ≠ c.ways → t.set (cacheIndex c a) = L ++ [g]) ∧ t.misses = k.misses + 1 ∧ t.hits = k.hits) ∧
    (∀ i, i ≠ cacheIndex c a → t.set i = k.set i) ∧ sparseWf [] t.sets = true

/-- O40, R67, 20_memory.md. A set holds the most recently used tags, newest last. -/
def Obligations.CacheHoldsMostRecent : Prop :=
  ∀ (c : CacheConfig) (as : List Word) (i : Nat), cacheLegal c = true →
    (accessAll c Cache.empty as).set i =
      ((distinct ((as.filter (fun a => cacheIndex c a == i)).map (cacheTag c)).reverse).take c.ways).reverse ∧
    ((accessAll c Cache.empty as).set i).length ≤ c.ways ∧ ((accessAll c Cache.empty as).set i).Nodup

/-- O41, R64. Index and tag are the address's middle and high bits. -/
def Obligations.CacheGeometry : Prop :=
  ∀ (c : CacheConfig) (a : Word), cacheLegal c = true →
    cacheIndex c a = a.toNat / c.blockSize % setCount c ∧
    cacheTag c a = a.toNat / (c.blockSize * setCount c) ∧
    (∃ k, setCount c = 2 ^ k) ∧ setCount c * (c.blockSize * c.ways) = c.size ∧
    a.toNat = (cacheTag c a * setCount c + cacheIndex c a) * c.blockSize + a.toNat % c.blockSize ∧
    (setCount c = 1 → cacheIndex c a = 0)

/-- O42, R193, R207, 70_reset_and_hazards.md. While a data-cache miss is pending, edges only count down. -/
def Obligations.FreezeEdges : Prop :=
  ∀ (s : State) (k : Nat), s.status = .running → k ≤ s.dStall →
    edges k s = { s with
      cycle := s.cycle + k, dStall := s.dStall - k, iStall := s.iStall - k
      slotWB := if k = 0 then s.slotWB else .bubble }

/-- O43, R194. An edge retires the MEM occupant, and only WB writes registers. -/
def Obligations.WriteBackEdge : Prop :=
  ∀ o : State, (o.status ≠ .running → edge o = o) ∧
    (o.status = .running → o.dStall = 0 →
      (∀ r, (edge o).readReg r = readAfterWriteBack o r) ∧
      (∀ m, o.slotMEM.live? = some m → m.memFault = true →
        (edge o).slotWB = .full .squashed m ∧ (edge o).dynInstrCount = o.dynInstrCount ∧ (edge o).status = .running) ∧
      (∀ m, o.slotMEM.live? = some m → m.memFault = false →
        (edge o).slotWB = o.slotMEM ∧ (edge o).dynInstrCount = o.dynInstrCount + 1 ∧
        (edge o).status = if m.flags.halt then (if o.excRaised then .illegal else .halt) else .running) ∧
      (o.slotMEM.live? = none →
        (edge o).slotWB = o.slotMEM ∧ (edge o).dynInstrCount = o.dynInstrCount ∧ (edge o).status = .running))

/-- O44, R195. The EX occupant enters MEM, and only a live load or store there accesses memory. -/
def Obligations.MemoryStageEdge : Prop :=
  ∀ o : State, PlainEdge o →
    ((∀ e, o.slotEX.live? = some e → e.flags.readsMem = false ∧ e.flags.writesMem = false) →
      (edge o).slotMEM = o.slotEX ∧ (edge o).mem = o.mem ∧ (edge o).dcache = o.dcache ∧ (edge o).dStall = 0) ∧
    ∀ tag e i, o.slotEX = .full tag e → o.slotEX.live? = some e → e.op = some i → e.flags = flagsOf e.op →
      e.flags.readsMem = true ∨ e.flags.writesMem = true →
      let b := if e.flags.writesMem = true ∧ (writeBack o).map Prod.fst = some e.rs2
        then readAfterWriteBack o e.rs2 else e.operand2
      (o.memSize < e.memAddress.toNat + widthOf i →
        (edge o).slotMEM = .full tag { e with operand2 := b, memFault := true } ∧
        (edge o).mem = o.mem ∧ (edge o).dcache = o.dcache ∧ (edge o).dStall = 0) ∧
      (e.memAddress.toNat + widthOf i ≤ o.memSize →
        (edge o).dcache = (o.dcache.access o.dc e.memAddress).2 ∧
        (edge o).dStall = (if (o.dcache.access o.dc e.memAddress).1 then 0 else o.dc.missLatency) ∧
        (e.flags.readsMem = true → (edge o).mem = o.mem ∧
          ∃ x v, o.memRead e.memAddress (widthOf i) = .ok x ∧ loadResultOf i x = some v ∧
            (edge o).slotMEM = .full tag { e with operand2 := b, memResult := v }) ∧
        (e.flags.writesMem = true → (edge o).slotMEM = .full tag { e with operand2 := b } ∧
          ∃ t, o.memWrite e.memAddress (widthOf i) b = .ok t ∧ (edge o).mem = t.mem))

/-- O45, R209, 70_reset_and_hazards.md. What a squashed record holds can never matter. -/
def Obligations.SquashedIsInert : Prop :=
  ∀ o : State, hideAllSquashed (edge o) = hideAllSquashed (edge (hideAllSquashed o))

/-- O46, R32, R209, 70_reset_and_hazards.md. A squashed record is never live again and keeps its pc, word and fields.
-/
def Obligations.SquashedStaysSquashed : Prop :=
  ∀ (o : State) (r r' : Record), Inv o → o.mode = some .pipelined → o.configLegal = true →
    .full .squashed r ∈ slotsOf o → ∀ sl' ∈ slotsOf (edge o), recordOf sl' = some r' → r'.dynId = r.dynId →
    sl' = .full .squashed r' ∧ r'.pc = r.pc ∧ r'.raw = r.raw ∧ r'.fields = r.fields

/-- O47, R212. The load-use condition, its one-cycle stall, and the counter that counts exactly it. -/
def Obligations.LoadUseStallEdge : Prop :=
  (∀ (d e : Record) (ex : Slot), ex.live? = some e → e.flags = flagsOf e.op →
      (loadUseHazard d ex = true ↔ e.flags.readsMem = true ∧ e.rd ≠ 0#5 ∧
        (d.flags.readsRs1 = true ∧ d.rs1 = e.rd ∨
          d.flags.readsRs2 = true ∧ d.rs2 = e.rd ∧ d.flags.writesMem = false))) ∧
    ∀ o : State,
      let stalls := PlainEdge o ∧ ∃ d, o.slotID.live? = some d ∧ d.flags.legal = true ∧ d.flags.halt = false ∧
        d.isControl = false ∧ loadUseHazard d o.slotEX = true
      (stalls → (edge o).loadUseStalls = o.loadUseStalls + 1 ∧ (edge o).slotEX = .bubble ∧
        (edge o).slotID = o.slotID ∧ (edge o).slotIF = o.slotIF ∧ (edge o).fetchPc = o.fetchPc ∧
        (edge o).nextDynId = o.nextDynId ∧ (edge o).icache = o.icache ∧ (edge o).iStall = o.iStall - 1 ∧
        (edge (edge o)).loadUseStalls = (edge o).loadUseStalls) ∧
      (¬ stalls → (edge o).loadUseStalls = o.loadUseStalls)

/-- O48, R200, 70_reset_and_hazards.md. The control-hazard condition and its stall. -/
def Obligations.ControlStallEdge : Prop :=
  (∀ (d : Record) (ex mem : Slot), (∀ m, mem.live? = some m → m.flags = flagsOf m.op) →
      (controlHazard d ex mem = true ↔
        ∃ i, i ≠ 0#5 ∧ (d.flags.readsRs1 = true ∧ d.rs1 = i ∨ d.flags.readsRs2 = true ∧ d.rs2 = i) ∧
          ((∃ e, ex.live? = some e ∧ e.flags.writesRd = true ∧ e.rd = i) ∨
            ∃ m, mem.live? = some m ∧ m.flags.readsMem = true ∧ m.rd = i))) ∧
    (∀ (d : Record) (rd : RegIdx) (off : BitVec 21) (ex mem : Slot), d.flags = flagsOf (some (.jal rd off)) →
      controlHazard d ex mem = false) ∧
    ∀ (o : State) (d : Record), PlainEdge o → o.slotID.live? = some d → d.flags.legal = true → d.flags.halt = false →
      d.isControl = true → controlHazard d o.slotEX o.slotMEM = true →
      (edge o).slotEX = .bubble ∧ (edge o).slotID = o.slotID ∧ (edge o).slotIF = o.slotIF ∧
      (edge o).fetchPc = o.fetchPc ∧ (edge o).nextDynId = o.nextDynId ∧ (edge o).icache = o.icache ∧
      (edge o).iStall = o.iStall - 1 ∧ (edge o).loadUseStalls = o.loadUseStalls

/-- O49, R201, R202, R203, R208, R210, 70_reset_and_hazards.md. A control transfer resolves in ID from the registers
after the write-back. -/
def Obligations.RedirectEdge : Prop :=
  ∀ (o : State) (d : Record) (i : Instr), PlainEdge o → o.slotID.live? = some d → RecordInv d → d.op = some i →
    isControl i = true → controlHazard d o.slotEX o.slotMEM = false →
    let a := if d.flags.readsRs1 then readAfterWriteBack o d.rs1 else 0#64
    let b := if d.flags.readsRs2 then readAfterWriteBack o d.rs2 else 0#64
    let npc := nextPcOf i d.pc a b
    (∃ r, (edge o).slotEX = .full .normal r ∧ r.pc = d.pc ∧ r.dynId = d.dynId ∧ r.nextPc = npc) ∧
    (npc ≠ d.pc + 4#64 → (edge o).slotID = o.slotIF.squash ∧ FetchedAt o (edge o) .normal npc) ∧
    (npc = d.pc + 4#64 → o.iStall = 0 → o.fetchStopped = false →
      EntersID o (edge o) ∧ FetchedBehind o (edge o))

/-- O50, R164, R165, R167, 60_exceptions.md. An illegal or unfetched record in ID goes to the handler, and nothing is
saved. -/
def Obligations.IllegalInDecodeEdge : Prop :=
  ∀ (o : State) (d : Record), PlainEdge o → o.slotID.live? = some d → d.flags.legal = false →
    (edge o).slotEX = .full .squashed d ∧ (edge o).slotID = o.slotIF.squash ∧
    FetchedAt o (edge o) .normal o.excHandlerAddr ∧ (edge o).excRaised = true ∧
    (edge o).fetchStopped = o.fetchStopped ∧ (edge o).loadUseStalls = o.loadUseStalls ∧ (edge o).pc = o.pc ∧
    (edge o).mode = o.mode ∧ (edge o).ic = o.ic ∧ (edge o).dc = o.dc ∧
    (edge o).excHandlerAddr = o.excHandlerAddr ∧ (edge o).memSize = o.memSize ∧
    (∀ r, (edge o).readReg r = readAfterWriteBack o r) ∧
    ((∀ e, o.slotEX.live? = some e → e.flags = flagsOf e.op ∧ e.flags.writesMem = false) → (edge o).mem = o.mem) ∧
    ∀ e i, o.slotEX.live? = some e → e.op = some i → e.flags = flagsOf e.op →
      ∀ a, a < e.memAddress.toNat ∨ e.memAddress.toNat + widthOf i ≤ a → (edge o).readByte a = o.readByte a

/-- O51, R166, R167, 60_exceptions.md. A failed access squashes everything younger and goes to the handler. -/
def Obligations.MemoryRangeEdge : Prop :=
  ∀ (o : State) (m : Record), o.status = .running → o.dStall = 0 → o.slotMEM.live? = some m → m.memFault = true →
    (edge o).slotWB = .full .squashed m ∧ (edge o).slotMEM = o.slotEX.squash ∧ (edge o).slotEX = o.slotID.squash ∧
    (edge o).slotID = o.slotIF.squash ∧ FetchedAt o (edge o) .normal o.excHandlerAddr ∧
    (edge o).excRaised = true ∧ (edge o).fetchStopped = false ∧
    (∀ r, (edge o).readReg r = o.readReg r) ∧ (edge o).mem = o.mem ∧ (edge o).dcache = o.dcache ∧
    (edge o).dStall = 0 ∧ (edge o).dynInstrCount = o.dynInstrCount ∧ (edge o).loadUseStalls = o.loadUseStalls ∧
    (edge o).status = .running ∧ (edge o).pc = o.pc

/-- O52, R204, R208, 70_reset_and_hazards.md. A halt leaving ID stops all fetching behind it. -/
def Obligations.HaltInDecodeEdge : Prop :=
  (∀ (o : State) (d : Record), PlainEdge o → o.slotID.live? = some d → d.flags.legal = true → d.flags.halt = true →
      (∃ r, (edge o).slotEX = .full .normal r ∧ r.pc = d.pc ∧ r.dynId = d.dynId ∧ r.flags = d.flags) ∧
      (edge o).slotID = o.slotIF.squash ∧ (edge o).slotIF = .bubble ∧ (edge o).iStall = 0 ∧
      (edge o).fetchStopped = true ∧ (edge o).fetchPc = o.fetchPc ∧ (edge o).nextDynId = o.nextDynId ∧
      (edge o).icache = o.icache) ∧
    ∀ o : State, Inv o → PlainEdge o → o.fetchStopped = true →
      (edge o).slotIF = .bubble ∧ (edge o).fetchStopped = true ∧ (edge o).fetchPc = o.fetchPc ∧
      (edge o).nextDynId = o.nextDynId ∧ (edge o).icache = o.icache

/-- O53, R192, R196, R197, R202, R206, R210, 70_reset_and_hazards.md. What moves into EX executes with the newest
operands, and the advance behind it. The nextPc pc + 4 of a halt's record is log 15 (DEDUCED). -/
def Obligations.ExecuteStageEdge : Prop :=
  (∀ (o : State) (d r : Record) (i : Instr) (tag : Tag), PlainEdge o → o.slotID.live? = some d → RecordInv d → d.op = some i →
      (edge o).slotEX = .full tag r → (Slot.full tag r).live? = some r →
      let fwd := fun q : RegIdx => if q = 0#5 then 0#64 else
        match o.slotEX.live? with
        | some e => if e.flags.writesRd = true ∧ e.rd = q ∧ e.flags.readsMem = false then e.arithResult
            else readAfterWriteBack o q
        | none => readAfterWriteBack o q
      tag = .normal ∧
      r.operand1 = (if d.flags.readsRs1 then fwd d.rs1 else 0#64) ∧
      r.operand2 = (if d.flags.readsRs2 then fwd d.rs2 else 0#64) ∧
      (∀ v, arithOf i d.pc r.operand1 r.operand2 = some v → r.arithResult = v) ∧
      (∀ a, addressOf i r.operand1 = some a → r.memAddress = a) ∧
      (isControl i = false → r.nextPc = d.pc + 4#64) ∧
      (isControl i = true → r.nextPc = nextPcOf i d.pc (if d.flags.readsRs1 then readAfterWriteBack o d.rs1 else 0#64)
        (if d.flags.readsRs2 then readAfterWriteBack o d.rs2 else 0#64))) ∧
    ∀ o : State, PlainEdge o → NoIdEvent o →
      (∀ d, o.slotID.live? = some d →
        ∃ r, (edge o).slotEX = .full .normal r ∧ r.pc = d.pc ∧ r.raw = d.raw ∧ r.op = d.op ∧ r.dynId = d.dynId) ∧
      (o.slotID.live? = none → (edge o).slotEX = o.slotID) ∧
      (edge o).excRaised = o.excRaised ∧ (edge o).fetchStopped = o.fetchStopped ∧
      (edge o).loadUseStalls = o.loadUseStalls ∧
      (0 < o.iStall → (edge o).slotID = .bubble ∧ (edge o).slotIF = o.slotIF ∧ (edge o).iStall = o.iStall - 1 ∧
        FetchesNothing o (edge o)) ∧
      (o.iStall = 0 → EntersID o (edge o) ∧
        (o.fetchStopped = true → (edge o).slotIF = .bubble ∧ (edge o).iStall = 0 ∧ FetchesNothing o (edge o)) ∧
        (o.fetchStopped = false → FetchedBehind o (edge o)))

/-- O54, R165, R205, 70_reset_and_hazards.md. What a fetch reads, records and counts. That the record of an out-of-
range fetch has no decoded fields is log 11 (DEDUCED). -/
def Obligations.FetchReads : Prop :=
  ∀ (s : State) (tag : Tag), FetchedAt s (fetch tag s) tag s.fetchPc ∧
    fetch tag s = { s with
      slotIF := (fetch tag s).slotIF, fetchPc := (fetch tag s).fetchPc, nextDynId := (fetch tag s).nextDynId
      icache := (fetch tag s).icache, iStall := (fetch tag s).iStall }

/-- O55, R36, R37, 10_state.md. excRaised stays set, and only a memory range exception restarts fetching. -/
def Obligations.StickyFlags : Prop :=
  ∀ s t : State, step s = .next t →
    (s.excRaised = true → t.excRaised = true) ∧
    (s.fetchStopped = true → t.fetchStopped = true ∨
      (∃ m, s.slotMEM.live? = some m ∧ m.memFault = true) ∧ t.excRaised = true)

/-- O56, R95, 30_encoding.md. li with a 32-bit constant loads its sign-extended value. -/
def Obligations.WideLiteral : Prop :=
  ∀ (s : State) (rd : RegIdx) (v : BitVec 32), rd ≠ 0#5 →
    ∃ i j t u, Pseudo.expand (.liWide rd v) = [i, j] ∧ exec i s = .next t ∧ exec j t = .next u ∧
      u.readReg rd = wordOf v.toInt ∧ (∀ r, r ≠ rd → u.readReg r = s.readReg r) ∧
      (∀ a, u.readByte a = s.readByte a) ∧ u.pc = s.pc + 8#64

/-- O57, R44, 10_state.md. The invariant holds at reset. The values the spec leaves open are the model's (logs 1 to
4). -/
def Obligations.InvariantAtReset : Prop :=
  Inv State.reset

/-- O58, R20, R31, R34, R35, R40, R166, R204, R209, R210, 70_reset_and_hazards.md. Every step keeps the invariant of
the machine. -/
def Obligations.InvariantKept : Prop :=
  ∀ s t : State, Inv s → step s = .next t → Inv t

/-- O59, R44, R50, R182, R187, R188, R189, 70_reset_and_hazards.md. Every host command but a change of the
configuration keeps the invariant. -/
def Obligations.InvariantKeptByCommands : Prop :=
  ∀ (s t : State) (c : HostCommand), Inv s → (∀ cfg, c ≠ .configure cfg) → hostCommand c s = .next t → Inv t

/-- O60, R168, R197, R199, R200, R203, R211, R213, 70_reset_and_hazards.md. A pipelined run that halts ends as the
functional run of the same program. -/
def Obligations.PipelineAgreesWithFunctional : Prop :=
  ∀ (s : State) (n : Nat), Fresh s → (∀ k, k ≤ n → Coherent (edges k s)) → (edges n s).status = .halt →
    ∃ k t, functionalSteps k s = .next t ∧ t.status = .halt ∧ (∀ r, t.readReg r = (edges n s).readReg r) ∧
      t.mem = (edges n s).mem ∧ t.dynInstrCount = (edges n s).dynInstrCount
end

