-- ==== Sys2Proof/Laws/Sparse.lean ====
section
/-! SUPPORT. The sparse tables under memory and the caches: read after write, and the canonical form is kept. -/

namespace Sys2Proof.Machine

variable {α : Type} {d v : α} {k k' : Nat} {l : List (Nat × α)}

/-- A key below every listed one reads as the default. -/
theorem sparseGet_below (h : ∀ b ∈ l.map Prod.fst, k < b) : sparseGet d l k = d := by
  induction l with
  | nil => rfl
  | cons q t ih =>
    have := h q.1 (by simp)
    rw [sparseGet, if_neg (by omega)]
    exact ih (fun b hb => h b (List.mem_cons_of_mem _ hb))

/-- A key reads as the default or as a listed pair. -/
theorem sparseGet_cases : sparseGet d l k = d ∨ (k, sparseGet d l k) ∈ l := by
  induction l with
  | nil => exact .inl rfl
  | cons q t ih =>
    obtain ⟨a, b⟩ := q
    unfold sparseGet
    split
    · rename_i h; subst h; exact .inr List.mem_cons_self
    · exact ih.imp id (List.mem_cons_of_mem _)

variable [DecidableEq α]

theorem sparseWf_sorted (h : sparseWf d l = true) : (l.map Prod.fst).Pairwise (· < ·) := by
  simp only [sparseWf, Bool.and_eq_true, decide_eq_true_eq] at h; exact h.1

theorem sparseWf_no_default (h : sparseWf d l = true) : ∀ p ∈ l, p.2 ≠ d := by
  simp only [sparseWf, Bool.and_eq_true, List.all_eq_true, decide_eq_true_eq] at h; exact h.2

theorem sparseWf_iff : sparseWf d l = true ↔ (l.map Prod.fst).Pairwise (· < ·) ∧ ∀ p ∈ l, p.2 ≠ d := by
  simp [sparseWf]

@[simp] theorem sparseWf_nil : sparseWf d [] = true := by simp [sparseWf]

/-- Reading the key just written, in canonical form. -/
theorem sparseGet_put_eq (h : sparseWf d l = true) : sparseGet d (sparsePut d k v l) k = v := by
  have hs := sparseWf_sorted h
  clear h
  induction l with
  | nil => by_cases h : v = d <;> simp [sparsePut, sparseGet, h]
  | cons p t ih =>
    obtain ⟨a, b⟩ := p
    simp only [List.map_cons, List.pairwise_cons] at hs
    by_cases h1 : k < a
    · by_cases h2 : v = d
      · have := sparseGet_below (d := d) (l := (a, b) :: t) (k := k) (by
          intro x hx
          rcases List.mem_cons.1 hx with hx | hx
          · omega
          · have := hs.1 x hx; omega)
        simp [sparsePut, h1, h2, this]
      · simp [sparsePut, h1, h2, sparseGet]
    · by_cases h3 : k = a
      · by_cases h2 : v = d
        · subst h3; simp [sparsePut, h2, sparseGet_below hs.1]
        · simp [sparsePut, h3, h2, sparseGet]
      · simp only [sparsePut, if_neg h1, if_neg h3, sparseGet, if_neg (Ne.symm h3)]
        exact ih hs.2

/-- Reading another key: no form is needed. -/
theorem sparseGet_put_ne (hk : k' ≠ k) : sparseGet d (sparsePut d k v l) k' = sparseGet d l k' := by
  induction l with
  | nil => by_cases h : v = d <;> simp [sparsePut, sparseGet, h, Ne.symm hk]
  | cons p t ih =>
    obtain ⟨a, b⟩ := p
    unfold sparsePut
    split
    · split
      · rfl
      · simp [sparseGet, Ne.symm hk]
    · split
      · rename_i h; subst h
        split <;> simp [sparseGet, Ne.symm hk]
      · simp only [sparseGet, ih]

theorem mem_sparsePut {p : Nat × α} (h : p ∈ sparsePut d k v l) : p = (k, v) ∨ p ∈ l := by
  induction l with
  | nil => by_cases hv : v = d <;> simp_all [sparsePut]
  | cons q t ih =>
    obtain ⟨a, b⟩ := q
    unfold sparsePut at h
    split at h
    · split at h
      · exact .inr h
      · rcases List.mem_cons.1 h with h | h
        · exact .inl h
        · exact .inr h
    · split at h
      · split at h
        · exact .inr (List.mem_cons_of_mem _ h)
        · rcases List.mem_cons.1 h with h | h
          · exact .inl h
          · exact .inr (List.mem_cons_of_mem _ h)
      · rcases List.mem_cons.1 h with h | h
        · exact .inr (h ▸ List.mem_cons_self)
        · rcases ih h with h | h
          · exact .inl h
          · exact .inr (List.mem_cons_of_mem _ h)

/-- A write keeps the canonical form. -/
theorem sparseWf_put (h : sparseWf d l = true) : sparseWf d (sparsePut d k v l) = true := by
  rw [sparseWf_iff] at h ⊢
  obtain ⟨hs, hd⟩ := h
  induction l with
  | nil => by_cases hv : v = d <;> simp [sparsePut, hv]
  | cons q t ih =>
    obtain ⟨a, b⟩ := q
    simp only [List.map_cons, List.pairwise_cons] at hs
    have hd' : ∀ p ∈ t, p.2 ≠ d := fun p hp => hd p (List.mem_cons_of_mem _ hp)
    have hb : b ≠ d := hd (a, b) List.mem_cons_self
    unfold sparsePut
    split
    · rename_i hlt
      split
      · exact ⟨by simpa using hs, hd⟩
      · rename_i hv
        refine ⟨?_, ?_⟩
        · simp only [List.map_cons, List.pairwise_cons]
          refine ⟨?_, hs⟩
          intro x hx
          rcases List.mem_cons.1 hx with hx | hx
          · omega
          · have := hs.1 x hx; omega
        · intro p hp
          rcases List.mem_cons.1 hp with hp | hp
          · subst hp; exact hv
          · exact hd p hp
    · split
      · rename_i hk; subst hk
        split
        · exact ⟨hs.2, hd'⟩
        · rename_i hv
          refine ⟨by simpa using hs, ?_⟩
          intro p hp
          rcases List.mem_cons.1 hp with hp | hp
          · subst hp; exact hv
          · exact hd' p hp
      · rename_i h1 h2
        obtain ⟨i1, i2⟩ := ih hs.2 hd'
        refine ⟨?_, ?_⟩
        · simp only [List.map_cons, List.pairwise_cons]
          refine ⟨?_, i1⟩
          intro x hx
          obtain ⟨p, hp, rfl⟩ := List.mem_map.1 hx
          rcases mem_sparsePut hp with rfl | hp
          · simp; omega
          · exact hs.1 _ (List.mem_map_of_mem hp)
        · intro p hp
          rcases List.mem_cons.1 hp with hp | hp
          · subst hp; exact hb
          · exact i2 p hp

/-- In canonical form a listed pair is what its key reads as. -/
theorem sparseGet_of_mem (h : sparseWf d l = true) {p : Nat × α} (hp : p ∈ l) : sparseGet d l p.1 = p.2 := by
  have hs := sparseWf_sorted h
  clear h
  induction l with
  | nil => cases hp
  | cons q t ih =>
    obtain ⟨a, b⟩ := q
    simp only [List.map_cons, List.pairwise_cons] at hs
    rcases List.mem_cons.1 hp with rfl | hp
    · simp [sparseGet]
    · have := hs.1 p.1 (List.mem_map_of_mem hp)
      rw [sparseGet, if_neg (by omega)]
      exact ih hp hs.2

end Sys2Proof.Machine
end

