-- ==== Sys2Proof/Laws/Cache.lean ====
section
/-! SUPPORT. What touching a tag does to a set, and what an access does to a cache (20_memory.md R64, R65). -/

namespace Sys2Proof.Machine

theorem mem_touch_self (ways g : Nat) (l : List Nat) : g ∈ touch ways g l := by
  unfold touch; split <;> simp

/-- A touched set keeps its bound. -/
theorem touch_length {ways g : Nat} {l : List Nat} (hw : 0 < ways) (h : l.length ≤ ways) :
    (touch ways g l).length ≤ ways := by
  unfold touch
  split
  case isTrue hm =>
    have := List.length_erase_of_mem hm
    have := List.length_pos_of_mem hm
    simp; omega
  case isFalse =>
    split <;> simp <;> omega

/-- A touched set holds no tag twice. -/
theorem touch_nodup {ways g : Nat} {l : List Nat} (h : l.Nodup) : (touch ways g l).Nodup := by
  unfold touch
  split
  case isTrue hm =>
    rw [List.nodup_append]
    exact ⟨h.erase g, by simp, by simpa using fun a ha => fun e => (List.Nodup.mem_erase_iff h).1 ha |>.1 e⟩
  case isFalse hm =>
    rw [List.nodup_append]
    split
    · exact ⟨h.sublist (List.tail_sublist l), by simp,
        by
        simp only [List.mem_singleton, forall_eq]
        exact fun a ha e => hm (e ▸ List.mem_of_mem_tail ha)⟩
    · exact ⟨h, by simp, by
        simp only [List.mem_singleton, forall_eq]
        exact fun a ha e => hm (e ▸ ha)⟩

theorem isPowerOfTwo_iff (n : Nat) : isPowerOfTwo n = true ↔ ∃ k, n = 2 ^ k := by
  unfold isPowerOfTwo
  constructor
  · intro h
    simp only [Bool.and_eq_true, bne_iff_ne, ne_eq, beq_iff_eq] at h
    exact ⟨_, h.2.symm⟩
  · rintro ⟨k, rfl⟩
    simp [Nat.log2_two_pow]

/-- The set count of a legal configuration is a power of two. -/
theorem setCount_pow {c : CacheConfig} (h : cacheLegal c = true) : ∃ k, setCount c = 2 ^ k := by
  simp only [cacheLegal, Bool.and_eq_true, isPowerOfTwo_iff, decide_eq_true_eq] at h
  obtain ⟨⟨⟨⟨a, ha⟩, ⟨b, hb⟩⟩, ⟨w, hw⟩⟩, hle⟩ := h
  rw [ha, hb, hw, ← Nat.pow_add] at hle
  have hle' := (Nat.pow_le_pow_iff_right (by omega)).1 hle
  exact ⟨a - (b + w), by rw [setCount, ha, hb, hw, ← Nat.pow_add, Nat.pow_div hle' (by omega)]⟩

theorem ways_pos {c : CacheConfig} (h : cacheLegal c = true) : 0 < c.ways := by
  simp only [cacheLegal, Bool.and_eq_true, isPowerOfTwo_iff] at h
  obtain ⟨⟨-, ⟨w, hw⟩⟩, -⟩ := h
  rw [hw]; exact Nat.two_pow_pos w

/-- An index is below the set count. -/
theorem cacheIndex_lt {c : CacheConfig} (h : cacheLegal c = true) (a : Word) : cacheIndex c a < setCount c := by
  obtain ⟨k, hk⟩ := setCount_pow h
  have := Nat.two_pow_pos k
  exact Nat.lt_of_le_of_lt Nat.and_le_right (by omega)

/-- The set an access touches. -/
theorem Cache.set_access_eq {c : CacheConfig} {k : Cache} (hk : sparseWf [] k.sets = true) (a : Word) :
    (k.access c a).2.set (cacheIndex c a) = touch c.ways (cacheTag c a) (k.set (cacheIndex c a)) :=
  sparseGet_put_eq hk

/-- Every other set is left alone. -/
theorem Cache.set_access_ne {c : CacheConfig} {k : Cache} {a : Word} {i : Nat} (h : i ≠ cacheIndex c a) :
    (k.access c a).2.set i = k.set i :=
  sparseGet_put_ne h

theorem Cache.access_canonical {c : CacheConfig} {k : Cache} (hk : sparseWf [] k.sets = true) (a : Word) :
    sparseWf [] (k.access c a).2.sets = true :=
  sparseWf_put hk

/-- Every access is counted once. -/
theorem Cache.access_count (c : CacheConfig) (k : Cache) (a : Word) :
    (k.access c a).2.hits + (k.access c a).2.misses = k.hits + k.misses + 1 := by
  simp only [Cache.access]; split <;> omega

end Sys2Proof.Machine
end

