-- ==== Sys2Proof/Laws/Memory.lean ====
section
/-! SUPPORT. The memory store: read after write, byte by byte, and the canonical form is kept by every operation. -/

namespace Sys2Proof.Machine

/-- Byte `k` of a word. -/
def byteOf (v : Word) (k : Nat) : Byte := (v >>> (8 * k)).setWidth 8

@[simp] theorem Memory.wf_nil : Memory.wf [] = true := by simp [Memory.wf]

theorem Memory.wf_setByte {m : List Host.Cell} (h : Memory.wf m = true) (a : Nat) (b : Byte) :
    Memory.wf (Memory.setByte m a b) = true := sparseWf_put h

theorem Memory.byte_setByte_eq {m : List Host.Cell} (h : Memory.wf m = true) (a : Nat) (b : Byte) :
    Memory.byte (Memory.setByte m a b) a = b := sparseGet_put_eq h

theorem Memory.byte_setByte_ne {m : List Host.Cell} {a x : Nat} (b : Byte) (h : x ≠ a) :
    Memory.byte (Memory.setByte m a b) x = Memory.byte m x := sparseGet_put_ne h

/-- Every memory operation keeps the canonical form. -/
theorem Memory.wf_store {m : List Host.Cell} (h : Memory.wf m = true) (a n : Nat) (v : Word) :
    Memory.wf (Memory.store m a n v) = true := by
  induction n generalizing m a v with
  | zero => exact h
  | succ n ih => exact ih (Memory.wf_setByte h _ _) _ _

theorem Memory.wf_putBytes {m : List Host.Cell} (h : Memory.wf m = true) (a : Nat) (bs : List Byte) :
    Memory.wf (Memory.putBytes m a bs) = true := by
  induction bs generalizing m a with
  | nil => exact h
  | cons b bs ih => exact ih (Memory.wf_setByte h _ _) _

/-- A store changes no byte outside the ones it stores to. -/
theorem Memory.byte_store_outside {m : List Host.Cell} {a n x : Nat} (v : Word) (h : x < a ∨ a + n ≤ x) :
    Memory.byte (Memory.store m a n v) x = Memory.byte m x := by
  induction n generalizing m a v with
  | zero => rfl
  | succ n ih =>
    rw [Memory.store, ih _ (by omega), Memory.byte_setByte_ne _ (by omega)]

/-- Byte `k` of the stored value lands at `a + k`. -/
theorem Memory.byte_store_inside {m : List Host.Cell} (hm : Memory.wf m = true) {a n k : Nat} (v : Word) (h : k < n) :
    Memory.byte (Memory.store m a n v) (a + k) = byteOf v k := by
  induction n generalizing m a v k with
  | zero => omega
  | succ n ih =>
    rw [Memory.store]
    cases k with
    | zero =>
      rw [Memory.byte_store_outside _ (by omega), Nat.add_zero, Memory.byte_setByte_eq hm]
      simp [byteOf]
    | succ k =>
      have := ih (Memory.wf_setByte hm a (v.setWidth 8)) (a := a + 1) (k := k) (v >>> 8) (by omega)
      rw [show a + (k + 1) = a + 1 + k by omega, this]
      simp only [byteOf, ← BitVec.shiftRight_add]
      congr 2; omega

/-- Addresses listed after a store are old ones or stored ones. -/
theorem Memory.mem_store {m : List Host.Cell} {a n : Nat} {v : Word} {p : Host.Cell}
    (h : p ∈ Memory.store m a n v) : p ∈ m ∨ (a ≤ p.1 ∧ p.1 < a + n) := by
  induction n generalizing m a v with
  | zero => exact .inl h
  | succ n ih =>
    rcases ih h with h | h
    · rcases mem_sparsePut h with rfl | h
      · exact .inr ⟨Nat.le_refl _, by show a < _; omega⟩
      · exact .inl h
    · exact .inr (by omega)

theorem Memory.mem_putBytes {m : List Host.Cell} {a : Nat} {bs : List Byte} {p : Host.Cell}
    (h : p ∈ Memory.putBytes m a bs) : p ∈ m ∨ (a ≤ p.1 ∧ p.1 < a + bs.length) := by
  induction bs generalizing m a with
  | nil => exact .inl h
  | cons b bs ih =>
    rcases ih h with h | h
    · rcases mem_sparsePut h with rfl | h
      · exact .inr ⟨Nat.le_refl _, by show a < _; simp⟩
      · exact .inl h
    · exact .inr (by simp only [List.length_cons]; omega)

theorem Memory.byte_putBytes_outside {m : List Host.Cell} {a x : Nat} (bs : List Byte)
    (h : x < a ∨ a + bs.length ≤ x) : Memory.byte (Memory.putBytes m a bs) x = Memory.byte m x := by
  induction bs generalizing m a with
  | nil => rfl
  | cons b bs ih =>
    simp only [List.length_cons] at h
    rw [Memory.putBytes, ih (by omega), Memory.byte_setByte_ne _ (by omega)]

theorem Memory.byte_putBytes_inside {m : List Host.Cell} (hm : Memory.wf m = true) {a k : Nat} {bs : List Byte}
    (h : k < bs.length) : Memory.byte (Memory.putBytes m a bs) (a + k) = bs[k] := by
  induction bs generalizing m a k with
  | nil => simp at h
  | cons b bs ih =>
    rw [Memory.putBytes]
    cases k with
    | zero => rw [Memory.byte_putBytes_outside _ (by omega), Nat.add_zero, Memory.byte_setByte_eq hm]; rfl
    | succ k =>
      rw [show a + (k + 1) = a + 1 + k by omega, ih (Memory.wf_setByte hm _ _) (by simpa using h)]; rfl

/-- A load composes the bytes it reads, and has zeros above them. -/
theorem Memory.byteOf_load (m : List Host.Cell) (a n k : Nat) (hn : n ≤ 8) :
    byteOf (Memory.load m a n) k = if k < n then Memory.byte m (a + k) else 0#8 := by
  induction n generalizing a k with
  | zero => simp [Memory.load, byteOf]
  | succ n ih =>
    rw [Memory.load]
    cases k with
    | zero =>
      simp only [byteOf, Nat.mul_zero, BitVec.ushiftRight_zero, Nat.add_zero, Nat.zero_lt_succ, if_true]
      ext i hi
      simp
    | succ k =>
      have hk := ih (a := a + 1) (k := k) (by omega)
      have e : byteOf (Memory.load m (a + 1) n <<< 8 ||| (Memory.byte m a).setWidth 64) (k + 1)
          = if 8 * (k + 1) + 8 ≤ 64 then byteOf (Memory.load m (a + 1) n) k else 0#8 := by
        split
        · ext i hi
          have h1 : 8 * (k + 1) + i - 8 = 8 * k + i := by omega
          simp [byteOf, BitVec.getLsbD_shiftLeft, h1]
          have h2 : ¬ 8 * (k + 1) + i < 8 := by omega
          have h3 : 8 * (k + 1) + i < 64 := by omega
          simp [h2, h3, BitVec.getLsbD_of_ge _ _ (show 8 ≤ 8 * (k + 1) + i by omega)]
        · ext i hi
          simp only [byteOf, BitVec.getElem_setWidth, BitVec.getLsbD_ushiftRight]
          rw [BitVec.getLsbD_of_ge _ _ (by omega)]; simp
      rw [e, hk, show a + 1 + k = a + (k + 1) by omega]
      by_cases h1 : k < n
      · rw [if_pos (by omega), if_pos h1, if_pos (by omega)]
      · rw [if_neg h1, if_neg (show ¬ k + 1 < n + 1 by omega)]; split <;> rfl

/-- Two words with the same eight bytes are equal. -/
theorem word_ext_bytes {v w : Word} (h : ∀ k < 8, byteOf v k = byteOf w k) : v = w := by
  ext i hi
  have := congrArg (fun b : Byte => b.getLsbD (i % 8)) (h (i / 8) (by omega))
  have h8 : i % 8 < 8 := Nat.mod_lt _ (by omega)
  simpa [byteOf, h8, Nat.div_add_mod, BitVec.getLsbD_eq_getElem hi] using this

/-- Store then load of the same `n` bytes (45_loads_stores.md R145): the low `n` bytes come back. -/
theorem Memory.load_store {m : List Host.Cell} (hm : Memory.wf m = true) (a n : Nat) (v : Word) (hn : n ≤ 8) (k : Nat) :
    byteOf (Memory.load (Memory.store m a n v) a n) k = if k < n then byteOf v k else 0#8 := by
  rw [Memory.byteOf_load _ _ _ _ hn]
  split
  · rw [Memory.byte_store_inside hm _ (by assumption)]
  · rfl

end Sys2Proof.Machine
end

