-- ==== Sys2Proof/Laws/State.lean ====
section
/-! SUPPORT. One lemma per field per update, so that no proof unfolds a record update: what each shared operation
leaves unchanged, and what it sets. -/

namespace Sys2Proof.Machine

variable (s : State)

/-! ### `State.writeReg` -/

@[simp] theorem writeReg_ic (r : RegIdx) (v : Word) : (s.writeReg r v).ic = s.ic := by unfold State.writeReg; split <;> rfl
@[simp] theorem writeReg_dc (r : RegIdx) (v : Word) : (s.writeReg r v).dc = s.dc := by unfold State.writeReg; split <;> rfl
@[simp] theorem writeReg_excHandlerAddr (r : RegIdx) (v : Word) : (s.writeReg r v).excHandlerAddr = s.excHandlerAddr := by unfold State.writeReg; split <;> rfl
@[simp] theorem writeReg_memSize (r : RegIdx) (v : Word) : (s.writeReg r v).memSize = s.memSize := by unfold State.writeReg; split <;> rfl
@[simp] theorem writeReg_pc (r : RegIdx) (v : Word) : (s.writeReg r v).pc = s.pc := by unfold State.writeReg; split <;> rfl
@[simp] theorem writeReg_fetchPc (r : RegIdx) (v : Word) : (s.writeReg r v).fetchPc = s.fetchPc := by unfold State.writeReg; split <;> rfl
@[simp] theorem writeReg_status (r : RegIdx) (v : Word) : (s.writeReg r v).status = s.status := by unfold State.writeReg; split <;> rfl
@[simp] theorem writeReg_mode (r : RegIdx) (v : Word) : (s.writeReg r v).mode = s.mode := by unfold State.writeReg; split <;> rfl
@[simp] theorem writeReg_slotIF (r : RegIdx) (v : Word) : (s.writeReg r v).slotIF = s.slotIF := by unfold State.writeReg; split <;> rfl
@[simp] theorem writeReg_slotID (r : RegIdx) (v : Word) : (s.writeReg r v).slotID = s.slotID := by unfold State.writeReg; split <;> rfl
@[simp] theorem writeReg_slotEX (r : RegIdx) (v : Word) : (s.writeReg r v).slotEX = s.slotEX := by unfold State.writeReg; split <;> rfl
@[simp] theorem writeReg_slotMEM (r : RegIdx) (v : Word) : (s.writeReg r v).slotMEM = s.slotMEM := by unfold State.writeReg; split <;> rfl
@[simp] theorem writeReg_slotWB (r : RegIdx) (v : Word) : (s.writeReg r v).slotWB = s.slotWB := by unfold State.writeReg; split <;> rfl
@[simp] theorem writeReg_cycle (r : RegIdx) (v : Word) : (s.writeReg r v).cycle = s.cycle := by unfold State.writeReg; split <;> rfl
@[simp] theorem writeReg_iStall (r : RegIdx) (v : Word) : (s.writeReg r v).iStall = s.iStall := by unfold State.writeReg; split <;> rfl
@[simp] theorem writeReg_dStall (r : RegIdx) (v : Word) : (s.writeReg r v).dStall = s.dStall := by unfold State.writeReg; split <;> rfl
@[simp] theorem writeReg_excRaised (r : RegIdx) (v : Word) : (s.writeReg r v).excRaised = s.excRaised := by unfold State.writeReg; split <;> rfl
@[simp] theorem writeReg_fetchStopped (r : RegIdx) (v : Word) : (s.writeReg r v).fetchStopped = s.fetchStopped := by unfold State.writeReg; split <;> rfl
@[simp] theorem writeReg_dynInstrCount (r : RegIdx) (v : Word) : (s.writeReg r v).dynInstrCount = s.dynInstrCount := by unfold State.writeReg; split <;> rfl
@[simp] theorem writeReg_loadUseStalls (r : RegIdx) (v : Word) : (s.writeReg r v).loadUseStalls = s.loadUseStalls := by unfold State.writeReg; split <;> rfl
@[simp] theorem writeReg_nextDynId (r : RegIdx) (v : Word) : (s.writeReg r v).nextDynId = s.nextDynId := by unfold State.writeReg; split <;> rfl
@[simp] theorem writeReg_icache (r : RegIdx) (v : Word) : (s.writeReg r v).icache = s.icache := by unfold State.writeReg; split <;> rfl
@[simp] theorem writeReg_dcache (r : RegIdx) (v : Word) : (s.writeReg r v).dcache = s.dcache := by unfold State.writeReg; split <;> rfl
@[simp] theorem writeReg_mem (r : RegIdx) (v : Word) : (s.writeReg r v).mem = s.mem := by unfold State.writeReg; split <;> rfl

/-! ### `State.finish` -/

@[simp] theorem finish_ic (npc : Word) : (s.finish npc).ic = s.ic := rfl
@[simp] theorem finish_dc (npc : Word) : (s.finish npc).dc = s.dc := rfl
@[simp] theorem finish_excHandlerAddr (npc : Word) : (s.finish npc).excHandlerAddr = s.excHandlerAddr := rfl
@[simp] theorem finish_memSize (npc : Word) : (s.finish npc).memSize = s.memSize := rfl
@[simp] theorem finish_regs (npc : Word) : (s.finish npc).regs = s.regs := rfl
@[simp] theorem finish_fetchPc (npc : Word) : (s.finish npc).fetchPc = s.fetchPc := rfl
@[simp] theorem finish_status (npc : Word) : (s.finish npc).status = s.status := rfl
@[simp] theorem finish_mode (npc : Word) : (s.finish npc).mode = s.mode := rfl
@[simp] theorem finish_slotIF (npc : Word) : (s.finish npc).slotIF = s.slotIF := rfl
@[simp] theorem finish_slotID (npc : Word) : (s.finish npc).slotID = s.slotID := rfl
@[simp] theorem finish_slotEX (npc : Word) : (s.finish npc).slotEX = s.slotEX := rfl
@[simp] theorem finish_slotMEM (npc : Word) : (s.finish npc).slotMEM = s.slotMEM := rfl
@[simp] theorem finish_slotWB (npc : Word) : (s.finish npc).slotWB = s.slotWB := rfl
@[simp] theorem finish_cycle (npc : Word) : (s.finish npc).cycle = s.cycle := rfl
@[simp] theorem finish_iStall (npc : Word) : (s.finish npc).iStall = s.iStall := rfl
@[simp] theorem finish_dStall (npc : Word) : (s.finish npc).dStall = s.dStall := rfl
@[simp] theorem finish_excRaised (npc : Word) : (s.finish npc).excRaised = s.excRaised := rfl
@[simp] theorem finish_fetchStopped (npc : Word) : (s.finish npc).fetchStopped = s.fetchStopped := rfl
@[simp] theorem finish_loadUseStalls (npc : Word) : (s.finish npc).loadUseStalls = s.loadUseStalls := rfl
@[simp] theorem finish_nextDynId (npc : Word) : (s.finish npc).nextDynId = s.nextDynId := rfl
@[simp] theorem finish_icache (npc : Word) : (s.finish npc).icache = s.icache := rfl
@[simp] theorem finish_dcache (npc : Word) : (s.finish npc).dcache = s.dcache := rfl
@[simp] theorem finish_mem (npc : Word) : (s.finish npc).mem = s.mem := rfl

@[simp] theorem finish_pc (npc : Word) : (s.finish npc).pc = npc := rfl
@[simp] theorem finish_dynInstrCount (npc : Word) : (s.finish npc).dynInstrCount = s.dynInstrCount + 1 := rfl

/-! ### `stopIllegal` -/

@[simp] theorem stopIllegal_ic (k : ExcKind) : (s.takeException .functional k).ic = s.ic := rfl
@[simp] theorem stopIllegal_dc (k : ExcKind) : (s.takeException .functional k).dc = s.dc := rfl
@[simp] theorem stopIllegal_excHandlerAddr (k : ExcKind) : (s.takeException .functional k).excHandlerAddr = s.excHandlerAddr := rfl
@[simp] theorem stopIllegal_memSize (k : ExcKind) : (s.takeException .functional k).memSize = s.memSize := rfl
@[simp] theorem stopIllegal_regs (k : ExcKind) : (s.takeException .functional k).regs = s.regs := rfl
@[simp] theorem stopIllegal_pc (k : ExcKind) : (s.takeException .functional k).pc = s.pc := rfl
@[simp] theorem stopIllegal_fetchPc (k : ExcKind) : (s.takeException .functional k).fetchPc = s.fetchPc := rfl
@[simp] theorem stopIllegal_mode (k : ExcKind) : (s.takeException .functional k).mode = s.mode := rfl
@[simp] theorem stopIllegal_slotIF (k : ExcKind) : (s.takeException .functional k).slotIF = s.slotIF := rfl
@[simp] theorem stopIllegal_slotID (k : ExcKind) : (s.takeException .functional k).slotID = s.slotID := rfl
@[simp] theorem stopIllegal_slotEX (k : ExcKind) : (s.takeException .functional k).slotEX = s.slotEX := rfl
@[simp] theorem stopIllegal_slotMEM (k : ExcKind) : (s.takeException .functional k).slotMEM = s.slotMEM := rfl
@[simp] theorem stopIllegal_slotWB (k : ExcKind) : (s.takeException .functional k).slotWB = s.slotWB := rfl
@[simp] theorem stopIllegal_cycle (k : ExcKind) : (s.takeException .functional k).cycle = s.cycle := rfl
@[simp] theorem stopIllegal_iStall (k : ExcKind) : (s.takeException .functional k).iStall = s.iStall := rfl
@[simp] theorem stopIllegal_dStall (k : ExcKind) : (s.takeException .functional k).dStall = s.dStall := rfl
@[simp] theorem stopIllegal_excRaised (k : ExcKind) : (s.takeException .functional k).excRaised = s.excRaised := rfl
@[simp] theorem stopIllegal_fetchStopped (k : ExcKind) : (s.takeException .functional k).fetchStopped = s.fetchStopped := rfl
@[simp] theorem stopIllegal_dynInstrCount (k : ExcKind) : (s.takeException .functional k).dynInstrCount = s.dynInstrCount := rfl
@[simp] theorem stopIllegal_loadUseStalls (k : ExcKind) : (s.takeException .functional k).loadUseStalls = s.loadUseStalls := rfl
@[simp] theorem stopIllegal_nextDynId (k : ExcKind) : (s.takeException .functional k).nextDynId = s.nextDynId := rfl
@[simp] theorem stopIllegal_icache (k : ExcKind) : (s.takeException .functional k).icache = s.icache := rfl
@[simp] theorem stopIllegal_dcache (k : ExcKind) : (s.takeException .functional k).dcache = s.dcache := rfl
@[simp] theorem stopIllegal_mem (k : ExcKind) : (s.takeException .functional k).mem = s.mem := rfl

@[simp] theorem stopIllegal_status (k : ExcKind) : (s.takeException .functional k).status = .illegal := rfl

/-! ### `enterHandler` -/

@[simp] theorem enterHandler_ic (k : ExcKind) : (s.takeException .pipelined k).ic = s.ic := rfl
@[simp] theorem enterHandler_dc (k : ExcKind) : (s.takeException .pipelined k).dc = s.dc := rfl
@[simp] theorem enterHandler_excHandlerAddr (k : ExcKind) : (s.takeException .pipelined k).excHandlerAddr = s.excHandlerAddr := rfl
@[simp] theorem enterHandler_memSize (k : ExcKind) : (s.takeException .pipelined k).memSize = s.memSize := rfl
@[simp] theorem enterHandler_regs (k : ExcKind) : (s.takeException .pipelined k).regs = s.regs := rfl
@[simp] theorem enterHandler_pc (k : ExcKind) : (s.takeException .pipelined k).pc = s.pc := rfl
@[simp] theorem enterHandler_status (k : ExcKind) : (s.takeException .pipelined k).status = s.status := rfl
@[simp] theorem enterHandler_mode (k : ExcKind) : (s.takeException .pipelined k).mode = s.mode := rfl
@[simp] theorem enterHandler_slotIF (k : ExcKind) : (s.takeException .pipelined k).slotIF = s.slotIF := rfl
@[simp] theorem enterHandler_slotID (k : ExcKind) : (s.takeException .pipelined k).slotID = s.slotID := rfl
@[simp] theorem enterHandler_slotEX (k : ExcKind) : (s.takeException .pipelined k).slotEX = s.slotEX := rfl
@[simp] theorem enterHandler_slotMEM (k : ExcKind) : (s.takeException .pipelined k).slotMEM = s.slotMEM := rfl
@[simp] theorem enterHandler_slotWB (k : ExcKind) : (s.takeException .pipelined k).slotWB = s.slotWB := rfl
@[simp] theorem enterHandler_cycle (k : ExcKind) : (s.takeException .pipelined k).cycle = s.cycle := rfl
@[simp] theorem enterHandler_dStall (k : ExcKind) : (s.takeException .pipelined k).dStall = s.dStall := rfl
@[simp] theorem enterHandler_dynInstrCount (k : ExcKind) : (s.takeException .pipelined k).dynInstrCount = s.dynInstrCount := rfl
@[simp] theorem enterHandler_loadUseStalls (k : ExcKind) : (s.takeException .pipelined k).loadUseStalls = s.loadUseStalls := rfl
@[simp] theorem enterHandler_nextDynId (k : ExcKind) : (s.takeException .pipelined k).nextDynId = s.nextDynId := rfl
@[simp] theorem enterHandler_icache (k : ExcKind) : (s.takeException .pipelined k).icache = s.icache := rfl
@[simp] theorem enterHandler_dcache (k : ExcKind) : (s.takeException .pipelined k).dcache = s.dcache := rfl
@[simp] theorem enterHandler_mem (k : ExcKind) : (s.takeException .pipelined k).mem = s.mem := rfl

@[simp] theorem enterHandler_fetchPc (k : ExcKind) : (s.takeException .pipelined k).fetchPc = s.excHandlerAddr := rfl
@[simp] theorem enterHandler_iStall (k : ExcKind) : (s.takeException .pipelined k).iStall = 0 := rfl
@[simp] theorem enterHandler_excRaised (k : ExcKind) : (s.takeException .pipelined k).excRaised = true := rfl
@[simp] theorem enterHandler_fetchStopped (k : ExcKind) :
    (s.takeException .pipelined k).fetchStopped = if k = .memoryRange then false else s.fetchStopped := rfl

/-! ### `State.accessIC` -/

@[simp] theorem accessIC_ic (a : Word) : (s.accessIC a).ic = s.ic := rfl
@[simp] theorem accessIC_dc (a : Word) : (s.accessIC a).dc = s.dc := rfl
@[simp] theorem accessIC_excHandlerAddr (a : Word) : (s.accessIC a).excHandlerAddr = s.excHandlerAddr := rfl
@[simp] theorem accessIC_memSize (a : Word) : (s.accessIC a).memSize = s.memSize := rfl
@[simp] theorem accessIC_regs (a : Word) : (s.accessIC a).regs = s.regs := rfl
@[simp] theorem accessIC_pc (a : Word) : (s.accessIC a).pc = s.pc := rfl
@[simp] theorem accessIC_fetchPc (a : Word) : (s.accessIC a).fetchPc = s.fetchPc := rfl
@[simp] theorem accessIC_status (a : Word) : (s.accessIC a).status = s.status := rfl
@[simp] theorem accessIC_mode (a : Word) : (s.accessIC a).mode = s.mode := rfl
@[simp] theorem accessIC_slotIF (a : Word) : (s.accessIC a).slotIF = s.slotIF := rfl
@[simp] theorem accessIC_slotID (a : Word) : (s.accessIC a).slotID = s.slotID := rfl
@[simp] theorem accessIC_slotEX (a : Word) : (s.accessIC a).slotEX = s.slotEX := rfl
@[simp] theorem accessIC_slotMEM (a : Word) : (s.accessIC a).slotMEM = s.slotMEM := rfl
@[simp] theorem accessIC_slotWB (a : Word) : (s.accessIC a).slotWB = s.slotWB := rfl
@[simp] theorem accessIC_cycle (a : Word) : (s.accessIC a).cycle = s.cycle := rfl
@[simp] theorem accessIC_dStall (a : Word) : (s.accessIC a).dStall = s.dStall := rfl
@[simp] theorem accessIC_excRaised (a : Word) : (s.accessIC a).excRaised = s.excRaised := rfl
@[simp] theorem accessIC_fetchStopped (a : Word) : (s.accessIC a).fetchStopped = s.fetchStopped := rfl
@[simp] theorem accessIC_dynInstrCount (a : Word) : (s.accessIC a).dynInstrCount = s.dynInstrCount := rfl
@[simp] theorem accessIC_loadUseStalls (a : Word) : (s.accessIC a).loadUseStalls = s.loadUseStalls := rfl
@[simp] theorem accessIC_nextDynId (a : Word) : (s.accessIC a).nextDynId = s.nextDynId := rfl
@[simp] theorem accessIC_dcache (a : Word) : (s.accessIC a).dcache = s.dcache := rfl
@[simp] theorem accessIC_mem (a : Word) : (s.accessIC a).mem = s.mem := rfl

/-! ### `State.accessDC` -/

@[simp] theorem accessDC_ic (a : Word) : (s.accessDC a).ic = s.ic := rfl
@[simp] theorem accessDC_dc (a : Word) : (s.accessDC a).dc = s.dc := rfl
@[simp] theorem accessDC_excHandlerAddr (a : Word) : (s.accessDC a).excHandlerAddr = s.excHandlerAddr := rfl
@[simp] theorem accessDC_memSize (a : Word) : (s.accessDC a).memSize = s.memSize := rfl
@[simp] theorem accessDC_regs (a : Word) : (s.accessDC a).regs = s.regs := rfl
@[simp] theorem accessDC_pc (a : Word) : (s.accessDC a).pc = s.pc := rfl
@[simp] theorem accessDC_fetchPc (a : Word) : (s.accessDC a).fetchPc = s.fetchPc := rfl
@[simp] theorem accessDC_status (a : Word) : (s.accessDC a).status = s.status := rfl
@[simp] theorem accessDC_mode (a : Word) : (s.accessDC a).mode = s.mode := rfl
@[simp] theorem accessDC_slotIF (a : Word) : (s.accessDC a).slotIF = s.slotIF := rfl
@[simp] theorem accessDC_slotID (a : Word) : (s.accessDC a).slotID = s.slotID := rfl
@[simp] theorem accessDC_slotEX (a : Word) : (s.accessDC a).slotEX = s.slotEX := rfl
@[simp] theorem accessDC_slotMEM (a : Word) : (s.accessDC a).slotMEM = s.slotMEM := rfl
@[simp] theorem accessDC_slotWB (a : Word) : (s.accessDC a).slotWB = s.slotWB := rfl
@[simp] theorem accessDC_cycle (a : Word) : (s.accessDC a).cycle = s.cycle := rfl
@[simp] theorem accessDC_iStall (a : Word) : (s.accessDC a).iStall = s.iStall := rfl
@[simp] theorem accessDC_excRaised (a : Word) : (s.accessDC a).excRaised = s.excRaised := rfl
@[simp] theorem accessDC_fetchStopped (a : Word) : (s.accessDC a).fetchStopped = s.fetchStopped := rfl
@[simp] theorem accessDC_dynInstrCount (a : Word) : (s.accessDC a).dynInstrCount = s.dynInstrCount := rfl
@[simp] theorem accessDC_loadUseStalls (a : Word) : (s.accessDC a).loadUseStalls = s.loadUseStalls := rfl
@[simp] theorem accessDC_nextDynId (a : Word) : (s.accessDC a).nextDynId = s.nextDynId := rfl
@[simp] theorem accessDC_icache (a : Word) : (s.accessDC a).icache = s.icache := rfl
@[simp] theorem accessDC_mem (a : Word) : (s.accessDC a).mem = s.mem := rfl

/-! ### `fetch` -/

@[simp] theorem fetch_ic (tag : Tag) : (fetch tag s).ic = s.ic := by unfold fetch; dsimp only; split <;> rfl
@[simp] theorem fetch_dc (tag : Tag) : (fetch tag s).dc = s.dc := by unfold fetch; dsimp only; split <;> rfl
@[simp] theorem fetch_excHandlerAddr (tag : Tag) : (fetch tag s).excHandlerAddr = s.excHandlerAddr := by unfold fetch; dsimp only; split <;> rfl
@[simp] theorem fetch_memSize (tag : Tag) : (fetch tag s).memSize = s.memSize := by unfold fetch; dsimp only; split <;> rfl
@[simp] theorem fetch_regs (tag : Tag) : (fetch tag s).regs = s.regs := by unfold fetch; dsimp only; split <;> rfl
@[simp] theorem fetch_pc (tag : Tag) : (fetch tag s).pc = s.pc := by unfold fetch; dsimp only; split <;> rfl
@[simp] theorem fetch_status (tag : Tag) : (fetch tag s).status = s.status := by unfold fetch; dsimp only; split <;> rfl
@[simp] theorem fetch_mode (tag : Tag) : (fetch tag s).mode = s.mode := by unfold fetch; dsimp only; split <;> rfl
@[simp] theorem fetch_slotID (tag : Tag) : (fetch tag s).slotID = s.slotID := by unfold fetch; dsimp only; split <;> rfl
@[simp] theorem fetch_slotEX (tag : Tag) : (fetch tag s).slotEX = s.slotEX := by unfold fetch; dsimp only; split <;> rfl
@[simp] theorem fetch_slotMEM (tag : Tag) : (fetch tag s).slotMEM = s.slotMEM := by unfold fetch; dsimp only; split <;> rfl
@[simp] theorem fetch_slotWB (tag : Tag) : (fetch tag s).slotWB = s.slotWB := by unfold fetch; dsimp only; split <;> rfl
@[simp] theorem fetch_cycle (tag : Tag) : (fetch tag s).cycle = s.cycle := by unfold fetch; dsimp only; split <;> rfl
@[simp] theorem fetch_dStall (tag : Tag) : (fetch tag s).dStall = s.dStall := by unfold fetch; dsimp only; split <;> rfl
@[simp] theorem fetch_excRaised (tag : Tag) : (fetch tag s).excRaised = s.excRaised := by unfold fetch; dsimp only; split <;> rfl
@[simp] theorem fetch_fetchStopped (tag : Tag) : (fetch tag s).fetchStopped = s.fetchStopped := by unfold fetch; dsimp only; split <;> rfl
@[simp] theorem fetch_dynInstrCount (tag : Tag) : (fetch tag s).dynInstrCount = s.dynInstrCount := by unfold fetch; dsimp only; split <;> rfl
@[simp] theorem fetch_loadUseStalls (tag : Tag) : (fetch tag s).loadUseStalls = s.loadUseStalls := by unfold fetch; dsimp only; split <;> rfl
@[simp] theorem fetch_dcache (tag : Tag) : (fetch tag s).dcache = s.dcache := by unfold fetch; dsimp only; split <;> rfl
@[simp] theorem fetch_mem (tag : Tag) : (fetch tag s).mem = s.mem := by unfold fetch; dsimp only; split <;> rfl

@[simp] theorem fetch_fetchPc (tag : Tag) : (fetch tag s).fetchPc = pcPlus4 s.fetchPc := by
  unfold fetch; dsimp only; split <;> rfl
@[simp] theorem fetch_nextDynId (tag : Tag) : (fetch tag s).nextDynId = s.nextDynId + 1 := by
  unfold fetch; dsimp only; split <;> rfl

/-! ### `retire` -/

@[simp] theorem retire_ic (r : Record) : (retire r s).ic = s.ic := by unfold retire; dsimp only; split <;> simp
@[simp] theorem retire_dc (r : Record) : (retire r s).dc = s.dc := by unfold retire; dsimp only; split <;> simp
@[simp] theorem retire_excHandlerAddr (r : Record) : (retire r s).excHandlerAddr = s.excHandlerAddr := by unfold retire; dsimp only; split <;> simp
@[simp] theorem retire_memSize (r : Record) : (retire r s).memSize = s.memSize := by unfold retire; dsimp only; split <;> simp
@[simp] theorem retire_pc (r : Record) : (retire r s).pc = s.pc := by unfold retire; dsimp only; split <;> simp
@[simp] theorem retire_fetchPc (r : Record) : (retire r s).fetchPc = s.fetchPc := by unfold retire; dsimp only; split <;> simp
@[simp] theorem retire_mode (r : Record) : (retire r s).mode = s.mode := by unfold retire; dsimp only; split <;> simp
@[simp] theorem retire_slotIF (r : Record) : (retire r s).slotIF = s.slotIF := by unfold retire; dsimp only; split <;> simp
@[simp] theorem retire_slotID (r : Record) : (retire r s).slotID = s.slotID := by unfold retire; dsimp only; split <;> simp
@[simp] theorem retire_slotEX (r : Record) : (retire r s).slotEX = s.slotEX := by unfold retire; dsimp only; split <;> simp
@[simp] theorem retire_slotMEM (r : Record) : (retire r s).slotMEM = s.slotMEM := by unfold retire; dsimp only; split <;> simp
@[simp] theorem retire_slotWB (r : Record) : (retire r s).slotWB = s.slotWB := by unfold retire; dsimp only; split <;> simp
@[simp] theorem retire_cycle (r : Record) : (retire r s).cycle = s.cycle := by unfold retire; dsimp only; split <;> simp
@[simp] theorem retire_iStall (r : Record) : (retire r s).iStall = s.iStall := by unfold retire; dsimp only; split <;> simp
@[simp] theorem retire_dStall (r : Record) : (retire r s).dStall = s.dStall := by unfold retire; dsimp only; split <;> simp
@[simp] theorem retire_excRaised (r : Record) : (retire r s).excRaised = s.excRaised := by unfold retire; dsimp only; split <;> simp
@[simp] theorem retire_fetchStopped (r : Record) : (retire r s).fetchStopped = s.fetchStopped := by unfold retire; dsimp only; split <;> simp
@[simp] theorem retire_loadUseStalls (r : Record) : (retire r s).loadUseStalls = s.loadUseStalls := by unfold retire; dsimp only; split <;> simp
@[simp] theorem retire_nextDynId (r : Record) : (retire r s).nextDynId = s.nextDynId := by unfold retire; dsimp only; split <;> simp
@[simp] theorem retire_icache (r : Record) : (retire r s).icache = s.icache := by unfold retire; dsimp only; split <;> simp
@[simp] theorem retire_dcache (r : Record) : (retire r s).dcache = s.dcache := by unfold retire; dsimp only; split <;> simp
@[simp] theorem retire_mem (r : Record) : (retire r s).mem = s.mem := by unfold retire; dsimp only; split <;> simp

@[simp] theorem retire_dynInstrCount (r : Record) : (retire r s).dynInstrCount = s.dynInstrCount + 1 := rfl
@[simp] theorem retire_status (r : Record) :
    (retire r s).status = if r.flags.halt then (if s.excRaised then .illegal else .halt) else s.status := rfl
theorem retire_regs (r : Record) :
    (retire r s).regs = (if r.flags.writesRd then s.writeReg r.rd r.result else s).regs := rfl

/-! ### Registers -/

variable {s}

/-- x0 reads 0 (10_state.md R20). -/
@[simp] theorem readReg_zero : s.readReg 0#5 = 0#64 := by simp [State.readReg]

/-- Reading after writing: x0 reads 0, the written register its value, any other what it was. -/
theorem readReg_writeReg (r q : RegIdx) (v : Word) :
    (s.writeReg r v).readReg q = if q = 0#5 then 0#64 else if q = r then v else s.readReg q := by
  unfold State.readReg State.writeReg
  by_cases hq : q = 0#5
  · simp [hq]
  · by_cases hr : r = 0#5
    · have : q ≠ r := by rw [hr]; exact hq
      simp [hq, hr]
    · by_cases h : q = r
      · subst h; simp [hq]
      · have : r.toNat ≠ q.toNat := fun e => h (BitVec.eq_of_toNat_eq e.symm)
        simp [hq, hr, h, this]

/-- A register is read from the register file alone. -/
theorem readReg_congr {t : State} (h : t.regs = s.regs) (r : RegIdx) : t.readReg r = s.readReg r := by
  simp [State.readReg, h]

/-- A byte is read from the memory alone. -/
theorem readByte_congr {t : State} (h : t.mem = s.mem) (a : Nat) : t.readByte a = s.readByte a := by
  simp [State.readByte, h]

@[simp] theorem readReg_finish (npc : Word) (r : RegIdx) : (s.finish npc).readReg r = s.readReg r := rfl

/-- What `commit` leaves in the register file. -/
theorem readReg_commit (rd q : RegIdx) (v npc : Word) :
    (s.commit rd v npc).readReg q = if q = 0#5 then 0#64 else if q = rd then v else s.readReg q := by
  rw [State.commit, readReg_finish, readReg_writeReg]

end Sys2Proof.Machine
end

