-- ==== Sys2Proof/Laws/Pipeline.lean ====
section
/-! SUPPORT. What each step of an edge can do (70_reset_and_hazards.md R192): one case lemma per step, and the fields each
step leaves alone, so that no proof about an edge unfolds the steps. -/

set_option linter.unnecessarySeqFocus false

namespace Sys2Proof.Machine

/-! ### Slots -/

@[simp] theorem live_idle : Slot.live? .idle = none := rfl
@[simp] theorem live_bubble : Slot.live? .bubble = none := rfl
@[simp] theorem live_normal (r : Record) : Slot.live? (.full .normal r) = some r := rfl
@[simp] theorem live_speculative (r : Record) : Slot.live? (.full .speculative r) = some r := rfl
@[simp] theorem live_squashed (r : Record) : Slot.live? (.full .squashed r) = none := rfl
@[simp] theorem live_squash (sl : Slot) : sl.squash.live? = none := by cases sl <;> rfl
@[simp] theorem live_settle (sl : Slot) : sl.settle.live? = sl.live? := by
  cases sl with
  | full t r => cases t <;> rfl
  | bubble => rfl
  | idle => rfl

/-- A live slot is NORMAL or SPECULATIVE. -/
theorem live_cases {sl : Slot} {r : Record} (h : sl.live? = some r) :
    sl = .full .normal r ∨ sl = .full .speculative r := by
  cases sl with
  | full t x => cases t <;> simp_all [Slot.live?]
  | bubble => simp at h
  | idle => simp at h

/-! ### The memory access -/

/-- An access reads and leaves the state, or writes memory and nothing else; it fails exactly out of range. -/
theorem accessOf_cases (i : Instr) (a b : Word) (s : State) :
    (s.inRange a (widthOf i) = false ∧ accessOf i a b s = .error .rangeError) ∨
    (s.inRange a (widthOf i) = true ∧ (flagsOf (some i)).readsMem = true ∧
      accessOf i a b s = .ok (loadResultOf i (Memory.load s.mem a.toNat (widthOf i)), s)) ∨
    (s.inRange a (widthOf i) = true ∧ (flagsOf (some i)).readsMem = false ∧
      accessOf i a b s = .ok (none, { s with mem := Memory.store s.mem a.toNat (widthOf i) b })) := by
  unfold accessOf State.memRead State.memWrite
  cases s.inRange a (widthOf i) <;> cases (flagsOf (some i)).readsMem <;> simp [Except.map]

/-- What `memAccess` can do: nothing but note a failed access, or the access, the data-cache access and the result. -/
theorem memAccess_cases (tag : Tag) (m : Record) (s : State) :
    (∃ r, memAccess tag m s = { s with slotMEM := .full tag r } ∧
      (m.op = none ∧ r = refreshStoreData s.slotWB m ∨
       ∃ i, m.op = some i ∧ s.inRange m.memAddress (widthOf i) = false ∧
         r = { refreshStoreData s.slotWB m with memFault := true })) ∨
    (∃ i v mem, m.op = some i ∧ s.inRange m.memAddress (widthOf i) = true ∧
      memAccess tag m s =
        { { s with mem := mem }.accessDC m.memAddress with
          slotMEM := .full tag { refreshStoreData s.slotWB m with memResult := v } } ∧
      ((flagsOf (some i)).readsMem = true ∧ mem = s.mem ∧
         v = (loadResultOf i (Memory.load s.mem m.memAddress.toNat (widthOf i))).getD m.memResult ∨
       (flagsOf (some i)).readsMem = false ∧ v = m.memResult ∧
         mem = Memory.store s.mem m.memAddress.toNat (widthOf i) (refreshStoreData s.slotWB m).operand2)) := by
  have hop : (refreshStoreData s.slotWB m).op = m.op := by
    unfold refreshStoreData; repeat' split
    all_goals rfl
  have ha : (refreshStoreData s.slotWB m).memAddress = m.memAddress := by
    unfold refreshStoreData; repeat' split
    all_goals rfl
  have hv : (refreshStoreData s.slotWB m).memResult = m.memResult := by
    unfold refreshStoreData; repeat' split
    all_goals rfl
  unfold memAccess
  simp only [hop, ha, hv]
  cases h : m.op with
  | none => exact .inl ⟨_, rfl, .inl ⟨rfl, rfl⟩⟩
  | some i =>
    rcases accessOf_cases i m.memAddress (refreshStoreData s.slotWB m).operand2 s with
      ⟨hr, he⟩ | ⟨hr, hf, he⟩ | ⟨hr, hf, he⟩
    · exact .inl ⟨_, by simp only [he], .inr ⟨i, rfl, hr, rfl⟩⟩
    · exact .inr ⟨i, _, s.mem, rfl, hr, by simp only [he], .inl ⟨hf, rfl, rfl⟩⟩
    · exact .inr ⟨i, m.memResult, _, rfl, hr, by simp only [he, Option.getD], .inr ⟨hf, rfl, rfl⟩⟩

variable (o s : State)

/-- What `memStage` can do: move the EX occupant in, or perform the access of a live load or store. -/
theorem memStage_cases :
    (memStage o s = { s with slotMEM := o.slotEX } ∧
      ∀ r, o.slotEX.live? = some r → r.flags.readsMem = false ∧ r.flags.writesMem = false) ∨
    (∃ tag r, o.slotEX = .full tag r ∧ o.slotEX.live? = some r ∧
      (r.flags.readsMem = true ∨ r.flags.writesMem = true) ∧ memStage o s = memAccess tag r s) := by
  unfold memStage
  cases h : o.slotEX with
  | idle => simp
  | bubble => simp
  | full tag r =>
    cases tag <;> cases hr : r.flags.readsMem <;> cases hw : r.flags.writesMem <;> simp_all

/-- What `wbStage` can do: retire the live MEM occupant, or only move the slot. -/
theorem wbStage_cases :
    (∃ r, o.slotMEM.live? = some r ∧ r.memFault = false ∧ wbStage o s = { retire r s with slotWB := o.slotMEM }) ∨
    (o.slotMEM.live? = none ∧ wbStage o s = { s with slotWB := o.slotMEM }) ∨
    (∃ r, o.slotMEM.live? = some r ∧ r.memFault = true ∧ wbStage o s = { s with slotWB := o.slotMEM.squash }) := by
  unfold wbStage memFaulting
  cases h : o.slotMEM.live? with
  | none => simp
  | some r => cases hf : r.memFault <;> simp [hf]

theorem memFaulting_iff : memFaulting o = true ↔ ∃ r, o.slotMEM.live? = some r ∧ r.memFault = true := by
  unfold memFaulting
  cases o.slotMEM.live? <;> simp

/-! ### Fields a step leaves alone -/

@[simp] theorem tick_ic : s.tick.ic = s.ic := rfl
@[simp] theorem tick_dc : s.tick.dc = s.dc := rfl
@[simp] theorem tick_excHandlerAddr : s.tick.excHandlerAddr = s.excHandlerAddr := rfl
@[simp] theorem tick_memSize : s.tick.memSize = s.memSize := rfl
@[simp] theorem tick_regs : s.tick.regs = s.regs := rfl
@[simp] theorem tick_pc : s.tick.pc = s.pc := rfl
@[simp] theorem tick_fetchPc : s.tick.fetchPc = s.fetchPc := rfl
@[simp] theorem tick_status : s.tick.status = s.status := rfl
@[simp] theorem tick_mode : s.tick.mode = s.mode := rfl
@[simp] theorem tick_slotIF : s.tick.slotIF = s.slotIF := rfl
@[simp] theorem tick_slotID : s.tick.slotID = s.slotID := rfl
@[simp] theorem tick_slotEX : s.tick.slotEX = s.slotEX := rfl
@[simp] theorem tick_slotMEM : s.tick.slotMEM = s.slotMEM := rfl
@[simp] theorem tick_slotWB : s.tick.slotWB = s.slotWB := rfl
@[simp] theorem tick_cycle : s.tick.cycle = s.cycle + 1 := rfl
@[simp] theorem tick_iStall : s.tick.iStall = s.iStall := rfl
@[simp] theorem tick_dStall : s.tick.dStall = s.dStall := rfl
@[simp] theorem tick_excRaised : s.tick.excRaised = s.excRaised := rfl
@[simp] theorem tick_fetchStopped : s.tick.fetchStopped = s.fetchStopped := rfl
@[simp] theorem tick_dynInstrCount : s.tick.dynInstrCount = s.dynInstrCount := rfl
@[simp] theorem tick_loadUseStalls : s.tick.loadUseStalls = s.loadUseStalls := rfl
@[simp] theorem tick_nextDynId : s.tick.nextDynId = s.nextDynId := rfl
@[simp] theorem tick_icache : s.tick.icache = s.icache := rfl
@[simp] theorem tick_dcache : s.tick.dcache = s.dcache := rfl
@[simp] theorem tick_mem : s.tick.mem = s.mem := rfl
@[simp] theorem wbStage_ic : (wbStage o s).ic = s.ic := by
  obtain ⟨r, -, -, h⟩ | ⟨-, h⟩ | ⟨r, -, -, h⟩ := wbStage_cases o s <;> rw [h] <;> simp
@[simp] theorem wbStage_dc : (wbStage o s).dc = s.dc := by
  obtain ⟨r, -, -, h⟩ | ⟨-, h⟩ | ⟨r, -, -, h⟩ := wbStage_cases o s <;> rw [h] <;> simp
@[simp] theorem wbStage_excHandlerAddr : (wbStage o s).excHandlerAddr = s.excHandlerAddr := by
  obtain ⟨r, -, -, h⟩ | ⟨-, h⟩ | ⟨r, -, -, h⟩ := wbStage_cases o s <;> rw [h] <;> simp
@[simp] theorem wbStage_memSize : (wbStage o s).memSize = s.memSize := by
  obtain ⟨r, -, -, h⟩ | ⟨-, h⟩ | ⟨r, -, -, h⟩ := wbStage_cases o s <;> rw [h] <;> simp
@[simp] theorem wbStage_pc : (wbStage o s).pc = s.pc := by
  obtain ⟨r, -, -, h⟩ | ⟨-, h⟩ | ⟨r, -, -, h⟩ := wbStage_cases o s <;> rw [h] <;> simp
@[simp] theorem wbStage_fetchPc : (wbStage o s).fetchPc = s.fetchPc := by
  obtain ⟨r, -, -, h⟩ | ⟨-, h⟩ | ⟨r, -, -, h⟩ := wbStage_cases o s <;> rw [h] <;> simp
@[simp] theorem wbStage_mode : (wbStage o s).mode = s.mode := by
  obtain ⟨r, -, -, h⟩ | ⟨-, h⟩ | ⟨r, -, -, h⟩ := wbStage_cases o s <;> rw [h] <;> simp
@[simp] theorem wbStage_slotIF : (wbStage o s).slotIF = s.slotIF := by
  obtain ⟨r, -, -, h⟩ | ⟨-, h⟩ | ⟨r, -, -, h⟩ := wbStage_cases o s <;> rw [h] <;> simp
@[simp] theorem wbStage_slotID : (wbStage o s).slotID = s.slotID := by
  obtain ⟨r, -, -, h⟩ | ⟨-, h⟩ | ⟨r, -, -, h⟩ := wbStage_cases o s <;> rw [h] <;> simp
@[simp] theorem wbStage_slotEX : (wbStage o s).slotEX = s.slotEX := by
  obtain ⟨r, -, -, h⟩ | ⟨-, h⟩ | ⟨r, -, -, h⟩ := wbStage_cases o s <;> rw [h] <;> simp
@[simp] theorem wbStage_slotMEM : (wbStage o s).slotMEM = s.slotMEM := by
  obtain ⟨r, -, -, h⟩ | ⟨-, h⟩ | ⟨r, -, -, h⟩ := wbStage_cases o s <;> rw [h] <;> simp
@[simp] theorem wbStage_cycle : (wbStage o s).cycle = s.cycle := by
  obtain ⟨r, -, -, h⟩ | ⟨-, h⟩ | ⟨r, -, -, h⟩ := wbStage_cases o s <;> rw [h] <;> simp
@[simp] theorem wbStage_iStall : (wbStage o s).iStall = s.iStall := by
  obtain ⟨r, -, -, h⟩ | ⟨-, h⟩ | ⟨r, -, -, h⟩ := wbStage_cases o s <;> rw [h] <;> simp
@[simp] theorem wbStage_dStall : (wbStage o s).dStall = s.dStall := by
  obtain ⟨r, -, -, h⟩ | ⟨-, h⟩ | ⟨r, -, -, h⟩ := wbStage_cases o s <;> rw [h] <;> simp
@[simp] theorem wbStage_excRaised : (wbStage o s).excRaised = s.excRaised := by
  obtain ⟨r, -, -, h⟩ | ⟨-, h⟩ | ⟨r, -, -, h⟩ := wbStage_cases o s <;> rw [h] <;> simp
@[simp] theorem wbStage_fetchStopped : (wbStage o s).fetchStopped = s.fetchStopped := by
  obtain ⟨r, -, -, h⟩ | ⟨-, h⟩ | ⟨r, -, -, h⟩ := wbStage_cases o s <;> rw [h] <;> simp
@[simp] theorem wbStage_loadUseStalls : (wbStage o s).loadUseStalls = s.loadUseStalls := by
  obtain ⟨r, -, -, h⟩ | ⟨-, h⟩ | ⟨r, -, -, h⟩ := wbStage_cases o s <;> rw [h] <;> simp
@[simp] theorem wbStage_nextDynId : (wbStage o s).nextDynId = s.nextDynId := by
  obtain ⟨r, -, -, h⟩ | ⟨-, h⟩ | ⟨r, -, -, h⟩ := wbStage_cases o s <;> rw [h] <;> simp
@[simp] theorem wbStage_icache : (wbStage o s).icache = s.icache := by
  obtain ⟨r, -, -, h⟩ | ⟨-, h⟩ | ⟨r, -, -, h⟩ := wbStage_cases o s <;> rw [h] <;> simp
@[simp] theorem wbStage_dcache : (wbStage o s).dcache = s.dcache := by
  obtain ⟨r, -, -, h⟩ | ⟨-, h⟩ | ⟨r, -, -, h⟩ := wbStage_cases o s <;> rw [h] <;> simp
@[simp] theorem wbStage_mem : (wbStage o s).mem = s.mem := by
  obtain ⟨r, -, -, h⟩ | ⟨-, h⟩ | ⟨r, -, -, h⟩ := wbStage_cases o s <;> rw [h] <;> simp
@[simp] theorem memStage_ic : (memStage o s).ic = s.ic := by
  obtain ⟨h, -⟩ | ⟨tag, r, -, -, -, h⟩ := memStage_cases o s
  · rw [h]
  · obtain ⟨x, h', -⟩ | ⟨i, v, mem, -, -, h', -⟩ := memAccess_cases tag r s <;> rw [h, h'] <;> simp
@[simp] theorem memStage_dc : (memStage o s).dc = s.dc := by
  obtain ⟨h, -⟩ | ⟨tag, r, -, -, -, h⟩ := memStage_cases o s
  · rw [h]
  · obtain ⟨x, h', -⟩ | ⟨i, v, mem, -, -, h', -⟩ := memAccess_cases tag r s <;> rw [h, h'] <;> simp
@[simp] theorem memStage_excHandlerAddr : (memStage o s).excHandlerAddr = s.excHandlerAddr := by
  obtain ⟨h, -⟩ | ⟨tag, r, -, -, -, h⟩ := memStage_cases o s
  · rw [h]
  · obtain ⟨x, h', -⟩ | ⟨i, v, mem, -, -, h', -⟩ := memAccess_cases tag r s <;> rw [h, h'] <;> simp
@[simp] theorem memStage_memSize : (memStage o s).memSize = s.memSize := by
  obtain ⟨h, -⟩ | ⟨tag, r, -, -, -, h⟩ := memStage_cases o s
  · rw [h]
  · obtain ⟨x, h', -⟩ | ⟨i, v, mem, -, -, h', -⟩ := memAccess_cases tag r s <;> rw [h, h'] <;> simp
@[simp] theorem memStage_regs : (memStage o s).regs = s.regs := by
  obtain ⟨h, -⟩ | ⟨tag, r, -, -, -, h⟩ := memStage_cases o s
  · rw [h]
  · obtain ⟨x, h', -⟩ | ⟨i, v, mem, -, -, h', -⟩ := memAccess_cases tag r s <;> rw [h, h'] <;> simp
@[simp] theorem memStage_pc : (memStage o s).pc = s.pc := by
  obtain ⟨h, -⟩ | ⟨tag, r, -, -, -, h⟩ := memStage_cases o s
  · rw [h]
  · obtain ⟨x, h', -⟩ | ⟨i, v, mem, -, -, h', -⟩ := memAccess_cases tag r s <;> rw [h, h'] <;> simp
@[simp] theorem memStage_fetchPc : (memStage o s).fetchPc = s.fetchPc := by
  obtain ⟨h, -⟩ | ⟨tag, r, -, -, -, h⟩ := memStage_cases o s
  · rw [h]
  · obtain ⟨x, h', -⟩ | ⟨i, v, mem, -, -, h', -⟩ := memAccess_cases tag r s <;> rw [h, h'] <;> simp
@[simp] theorem memStage_status : (memStage o s).status = s.status := by
  obtain ⟨h, -⟩ | ⟨tag, r, -, -, -, h⟩ := memStage_cases o s
  · rw [h]
  · obtain ⟨x, h', -⟩ | ⟨i, v, mem, -, -, h', -⟩ := memAccess_cases tag r s <;> rw [h, h'] <;> simp
@[simp] theorem memStage_mode : (memStage o s).mode = s.mode := by
  obtain ⟨h, -⟩ | ⟨tag, r, -, -, -, h⟩ := memStage_cases o s
  · rw [h]
  · obtain ⟨x, h', -⟩ | ⟨i, v, mem, -, -, h', -⟩ := memAccess_cases tag r s <;> rw [h, h'] <;> simp
@[simp] theorem memStage_slotIF : (memStage o s).slotIF = s.slotIF := by
  obtain ⟨h, -⟩ | ⟨tag, r, -, -, -, h⟩ := memStage_cases o s
  · rw [h]
  · obtain ⟨x, h', -⟩ | ⟨i, v, mem, -, -, h', -⟩ := memAccess_cases tag r s <;> rw [h, h'] <;> simp
@[simp] theorem memStage_slotID : (memStage o s).slotID = s.slotID := by
  obtain ⟨h, -⟩ | ⟨tag, r, -, -, -, h⟩ := memStage_cases o s
  · rw [h]
  · obtain ⟨x, h', -⟩ | ⟨i, v, mem, -, -, h', -⟩ := memAccess_cases tag r s <;> rw [h, h'] <;> simp
@[simp] theorem memStage_slotEX : (memStage o s).slotEX = s.slotEX := by
  obtain ⟨h, -⟩ | ⟨tag, r, -, -, -, h⟩ := memStage_cases o s
  · rw [h]
  · obtain ⟨x, h', -⟩ | ⟨i, v, mem, -, -, h', -⟩ := memAccess_cases tag r s <;> rw [h, h'] <;> simp
@[simp] theorem memStage_slotWB : (memStage o s).slotWB = s.slotWB := by
  obtain ⟨h, -⟩ | ⟨tag, r, -, -, -, h⟩ := memStage_cases o s
  · rw [h]
  · obtain ⟨x, h', -⟩ | ⟨i, v, mem, -, -, h', -⟩ := memAccess_cases tag r s <;> rw [h, h'] <;> simp
@[simp] theorem memStage_cycle : (memStage o s).cycle = s.cycle := by
  obtain ⟨h, -⟩ | ⟨tag, r, -, -, -, h⟩ := memStage_cases o s
  · rw [h]
  · obtain ⟨x, h', -⟩ | ⟨i, v, mem, -, -, h', -⟩ := memAccess_cases tag r s <;> rw [h, h'] <;> simp
@[simp] theorem memStage_iStall : (memStage o s).iStall = s.iStall := by
  obtain ⟨h, -⟩ | ⟨tag, r, -, -, -, h⟩ := memStage_cases o s
  · rw [h]
  · obtain ⟨x, h', -⟩ | ⟨i, v, mem, -, -, h', -⟩ := memAccess_cases tag r s <;> rw [h, h'] <;> simp
@[simp] theorem memStage_excRaised : (memStage o s).excRaised = s.excRaised := by
  obtain ⟨h, -⟩ | ⟨tag, r, -, -, -, h⟩ := memStage_cases o s
  · rw [h]
  · obtain ⟨x, h', -⟩ | ⟨i, v, mem, -, -, h', -⟩ := memAccess_cases tag r s <;> rw [h, h'] <;> simp
@[simp] theorem memStage_fetchStopped : (memStage o s).fetchStopped = s.fetchStopped := by
  obtain ⟨h, -⟩ | ⟨tag, r, -, -, -, h⟩ := memStage_cases o s
  · rw [h]
  · obtain ⟨x, h', -⟩ | ⟨i, v, mem, -, -, h', -⟩ := memAccess_cases tag r s <;> rw [h, h'] <;> simp
@[simp] theorem memStage_dynInstrCount : (memStage o s).dynInstrCount = s.dynInstrCount := by
  obtain ⟨h, -⟩ | ⟨tag, r, -, -, -, h⟩ := memStage_cases o s
  · rw [h]
  · obtain ⟨x, h', -⟩ | ⟨i, v, mem, -, -, h', -⟩ := memAccess_cases tag r s <;> rw [h, h'] <;> simp
@[simp] theorem memStage_loadUseStalls : (memStage o s).loadUseStalls = s.loadUseStalls := by
  obtain ⟨h, -⟩ | ⟨tag, r, -, -, -, h⟩ := memStage_cases o s
  · rw [h]
  · obtain ⟨x, h', -⟩ | ⟨i, v, mem, -, -, h', -⟩ := memAccess_cases tag r s <;> rw [h, h'] <;> simp
@[simp] theorem memStage_nextDynId : (memStage o s).nextDynId = s.nextDynId := by
  obtain ⟨h, -⟩ | ⟨tag, r, -, -, -, h⟩ := memStage_cases o s
  · rw [h]
  · obtain ⟨x, h', -⟩ | ⟨i, v, mem, -, -, h', -⟩ := memAccess_cases tag r s <;> rw [h, h'] <;> simp
@[simp] theorem memStage_icache : (memStage o s).icache = s.icache := by
  obtain ⟨h, -⟩ | ⟨tag, r, -, -, -, h⟩ := memStage_cases o s
  · rw [h]
  · obtain ⟨x, h', -⟩ | ⟨i, v, mem, -, -, h', -⟩ := memAccess_cases tag r s <;> rw [h, h'] <;> simp

@[simp] theorem takeIllegal_pipelined (k : ExcKind) : (s.takeException .pipelined k) =
    { s with
      fetchPc := s.excHandlerAddr, iStall := 0, excRaised := true
      fetchStopped := if k = .memoryRange then false else s.fetchStopped } := rfl

/-- What `fetch` can do. -/
theorem fetch_cases (tag : Tag) :
    (∃ w, s.fetchWord s.fetchPc = .ok w ∧
      (fetch tag s).slotIF = .full tag (fetchedRecord s.fetchPc w s.nextDynId) ∧
      (fetch tag s).icache = (s.icache.access s.ic s.fetchPc).2 ∧
      (fetch tag s).iStall = if (s.icache.access s.ic s.fetchPc).1 then 0 else s.ic.missLatency + icExtraStall) ∨
    (∃ e, s.fetchWord s.fetchPc = .error e ∧
      (fetch tag s).slotIF = .full tag (noWordRecord s.fetchPc s.nextDynId) ∧
      (fetch tag s).icache = s.icache ∧ (fetch tag s).iStall = 0) := by
  unfold fetch
  dsimp only
  cases h : s.fetchWord s.fetchPc with
  | ok w => exact .inl ⟨w, rfl, rfl, rfl, rfl⟩
  | error e => exact .inr ⟨e, rfl, rfl, rfl, rfl⟩

/-- What an edge can do. `m` is the state after the WB and MEM steps. -/
theorem edge_cases :
    (o.status ≠ .running ∧ edge o = o) ∨
    (o.status = .running ∧ 0 < o.dStall ∧ edge o = freeze o.tick) ∨
    (o.status = .running ∧ o.dStall = 0 ∧ memFaulting o = true ∧
      edge o = takeMemoryRange o (wbStage o o.tick)) ∨
    (o.status = .running ∧ o.dStall = 0 ∧ memFaulting o = false ∧
      edge o = frontEnd o (memStage o (wbStage o o.tick))) := by
  unfold edge
  by_cases h : o.status = .running <;> by_cases hd : 0 < o.dStall <;> cases hm : memFaulting o <;>
    simp [h, hd, Nat.eq_zero_of_not_pos]

/-- What the ID stage can decide (R198), with what each decision rests on. -/
theorem idEvent_cases :
    (o.slotID.live? = none ∧ idEvent o s = .none) ∨
    (∃ d, o.slotID.live? = some d ∧
      ((d.flags.legal = false ∧ idEvent o s = .exception d.excKind) ∨
       (d.flags.legal = true ∧ d.flags.halt = true ∧ idEvent o s = .halt) ∨
       (d.flags.legal = true ∧ d.flags.halt = false ∧ d.isControl = true ∧
          controlHazard d o.slotEX o.slotMEM = true ∧ idEvent o s = .controlStall) ∨
       (d.flags.legal = true ∧ d.flags.halt = false ∧ d.isControl = true ∧
          controlHazard d o.slotEX o.slotMEM = false ∧ resolvedNextPc d s = pcPlus4 d.pc ∧ idEvent o s = .none) ∨
       (d.flags.legal = true ∧ d.flags.halt = false ∧ d.isControl = true ∧
          controlHazard d o.slotEX o.slotMEM = false ∧ resolvedNextPc d s ≠ pcPlus4 d.pc ∧
          idEvent o s = .redirect (resolvedNextPc d s)) ∨
       (d.flags.legal = true ∧ d.flags.halt = false ∧ d.isControl = false ∧
          loadUseHazard d o.slotEX = true ∧ idEvent o s = .loadUseStall) ∨
       (d.flags.legal = true ∧ d.flags.halt = false ∧ d.isControl = false ∧
          loadUseHazard d o.slotEX = false ∧ idEvent o s = .none))) := by
  unfold idEvent
  cases h : o.slotID.live? with
  | none => simp
  | some d =>
    refine .inr ⟨d, rfl, ?_⟩
    cases h1 : d.flags.legal <;> cases h2 : d.flags.halt <;> cases h3 : d.isControl <;>
      cases h4 : controlHazard d o.slotEX o.slotMEM <;> cases h5 : loadUseHazard d o.slotEX <;>
      by_cases h6 : resolvedNextPc d s = pcPlus4 d.pc <;> simp [h1, h2, h3, h4, h5, h6]

/-! ### Fields the front end leaves alone -/

@[simp] theorem frontEnd_ic : (frontEnd o s).ic = s.ic := by
  unfold frontEnd; split <;> simp [stall, takeIdException, redirectTo, haltInId, flow] <;> repeat' split
  all_goals simp
@[simp] theorem frontEnd_dc : (frontEnd o s).dc = s.dc := by
  unfold frontEnd; split <;> simp [stall, takeIdException, redirectTo, haltInId, flow] <;> repeat' split
  all_goals simp
@[simp] theorem frontEnd_excHandlerAddr : (frontEnd o s).excHandlerAddr = s.excHandlerAddr := by
  unfold frontEnd; split <;> simp [stall, takeIdException, redirectTo, haltInId, flow] <;> repeat' split
  all_goals simp
@[simp] theorem frontEnd_memSize : (frontEnd o s).memSize = s.memSize := by
  unfold frontEnd; split <;> simp [stall, takeIdException, redirectTo, haltInId, flow] <;> repeat' split
  all_goals simp
@[simp] theorem frontEnd_regs : (frontEnd o s).regs = s.regs := by
  unfold frontEnd; split <;> simp [stall, takeIdException, redirectTo, haltInId, flow] <;> repeat' split
  all_goals simp
@[simp] theorem frontEnd_pc : (frontEnd o s).pc = s.pc := by
  unfold frontEnd; split <;> simp [stall, takeIdException, redirectTo, haltInId, flow] <;> repeat' split
  all_goals simp
@[simp] theorem frontEnd_status : (frontEnd o s).status = s.status := by
  unfold frontEnd; split <;> simp [stall, takeIdException, redirectTo, haltInId, flow] <;> repeat' split
  all_goals simp
@[simp] theorem frontEnd_mode : (frontEnd o s).mode = s.mode := by
  unfold frontEnd; split <;> simp [stall, takeIdException, redirectTo, haltInId, flow] <;> repeat' split
  all_goals simp
@[simp] theorem frontEnd_slotMEM : (frontEnd o s).slotMEM = s.slotMEM := by
  unfold frontEnd; split <;> simp [stall, takeIdException, redirectTo, haltInId, flow] <;> repeat' split
  all_goals simp
@[simp] theorem frontEnd_slotWB : (frontEnd o s).slotWB = s.slotWB := by
  unfold frontEnd; split <;> simp [stall, takeIdException, redirectTo, haltInId, flow] <;> repeat' split
  all_goals simp
@[simp] theorem frontEnd_cycle : (frontEnd o s).cycle = s.cycle := by
  unfold frontEnd; split <;> simp [stall, takeIdException, redirectTo, haltInId, flow] <;> repeat' split
  all_goals simp
@[simp] theorem frontEnd_dStall : (frontEnd o s).dStall = s.dStall := by
  unfold frontEnd; split <;> simp [stall, takeIdException, redirectTo, haltInId, flow] <;> repeat' split
  all_goals simp
@[simp] theorem frontEnd_dynInstrCount : (frontEnd o s).dynInstrCount = s.dynInstrCount := by
  unfold frontEnd; split <;> simp [stall, takeIdException, redirectTo, haltInId, flow] <;> repeat' split
  all_goals simp
@[simp] theorem frontEnd_dcache : (frontEnd o s).dcache = s.dcache := by
  unfold frontEnd; split <;> simp [stall, takeIdException, redirectTo, haltInId, flow] <;> repeat' split
  all_goals simp
@[simp] theorem frontEnd_mem : (frontEnd o s).mem = s.mem := by
  unfold frontEnd; split <;> simp [stall, takeIdException, redirectTo, haltInId, flow] <;> repeat' split
  all_goals simp

end Sys2Proof.Machine
end

