-- ==== Sys2Proof/Laws/Edge.lean ====
section
/-! SUPPORT. What a plain edge does to the registers, to memory and by its fetch (70_reset_and_hazards.md R192, R194,
R195, R205), in the terms of Sys2Proof/Safety.lean. -/

namespace Sys2Proof.Machine

/-! ### A plain edge -/

theorem memFaulting_of_plain {o : State} (h : PlainEdge o) : memFaulting o = false := by
  cases hf : memFaulting o with
  | false => rfl
  | true =>
    obtain ⟨r, hr, hx⟩ := (memFaulting_iff o).1 hf
    rw [h.2.2 r hr] at hx
    cases hx

/-- The state between the MEM step and the ID-stage event of an edge. -/
abbrev midEdge (o : State) : State := memStage o (wbStage o o.tick)

/-- A plain edge is its WB, MEM and front-end steps. -/
theorem edge_of_plain {o : State} (h : PlainEdge o) : edge o = frontEnd o (midEdge o) := by
  obtain ⟨a, -⟩ | ⟨-, a, -⟩ | ⟨-, -, a, -⟩ | ⟨-, -, -, e⟩ := edge_cases o
  · exact absurd h.1 a
  · have := h.2.1; omega
  · rw [memFaulting_of_plain h] at a; cases a
  · exact e

/-! ### The registers -/

/-- After the WB step every register reads as `readAfterWriteBack` says. -/
theorem readReg_wbStage {o s : State} (hs : s.regs = o.regs) (hf : memFaulting o = false) (r : RegIdx) :
    (wbStage o s).readReg r = readAfterWriteBack o r := by
  unfold readAfterWriteBack writeBack
  obtain ⟨m, hm, hx, h⟩ | ⟨hm, h⟩ | ⟨m, hm, hx, -⟩ := wbStage_cases o s
  · rw [h]
    simp only [hm]
    have e : ({ retire m s with slotWB := o.slotMEM } : State).readReg r =
        (if m.flags.writesRd then s.writeReg m.rd m.result else s).readReg r := by
      apply readReg_congr
      rw [← retire_regs]
    rw [e]
    have hs' : ∀ q, s.readReg q = o.readReg q := fun q => readReg_congr hs q
    cases hw : m.flags.writesRd with
    | false => simp [hs']
    | true =>
      simp only [if_true, hx, true_and, readReg_writeReg]
      by_cases h0 : m.rd = 0#5 <;> by_cases hr : r = 0#5 <;> simp_all
      intro h1
      exact absurd h1.symm h0
  · rw [h]
    simp only [hm]
    exact readReg_congr hs r
  · rw [(memFaulting_iff o).2 ⟨m, hm, hx⟩] at hf
    cases hf

theorem readReg_midEdge {o : State} (h : PlainEdge o) (r : RegIdx) : (midEdge o).readReg r = readAfterWriteBack o r := by
  rw [← readReg_wbStage (o := o) (s := o.tick) rfl (memFaulting_of_plain h) r]
  exact readReg_congr (memStage_regs _ _) r

theorem collect_midEdge {o : State} (h : PlainEdge o) (b : Bool) (r : RegIdx) :
    collect b r (midEdge o) = if b then readAfterWriteBack o r else 0#64 := by
  rw [collect, readReg_midEdge h]

/-! ### Memory -/

/-- The MEM step changes at most the bytes of the width of the live load or store in EX, from its address. -/
theorem memStage_readByte (o s : State) {e : Record} {i : Instr} (he : o.slotEX.live? = some e) (hop : e.op = some i)
    {a : Nat} (ha : a < e.memAddress.toNat ∨ e.memAddress.toNat + widthOf i ≤ a) :
    (memStage o s).readByte a = s.readByte a := by
  obtain ⟨h, -⟩ | ⟨tag, r, -, hr, -, h⟩ := memStage_cases o s
  · rw [h]; rfl
  · rw [he] at hr
    cases hr
    obtain ⟨x, h', -⟩ | ⟨j, v, mem, hj, -, h', hv⟩ := memAccess_cases tag e s
    · rw [h, h']; rfl
    · rw [hop] at hj
      cases hj
      rw [h, h']
      rcases hv with ⟨-, rfl, -⟩ | ⟨-, -, rfl⟩
      · simp [State.readByte, State.accessDC]
      · have := Memory.byte_store_outside (m := s.mem) (refreshStoreData s.slotWB e).operand2 ha
        simpa [State.readByte, State.accessDC] using this

/-- Without a live store in EX the MEM step leaves memory as it is. -/
theorem memStage_mem_of_no_store (o s : State)
    (h : ∀ e, o.slotEX.live? = some e → e.flags = flagsOf e.op ∧ e.flags.writesMem = false) :
    (memStage o s).mem = s.mem := by
  obtain ⟨h1, -⟩ | ⟨tag, r, -, hr, hm, h1⟩ := memStage_cases o s
  · rw [h1]
  · obtain ⟨hf, hw⟩ := h r hr
    obtain ⟨x, h2, -⟩ | ⟨i, v, mem, hop, -, h2, hv⟩ := memAccess_cases tag r s
    · rw [h1, h2]
    · rw [h1, h2]
      rcases hv with ⟨-, rfl, -⟩ | ⟨hn, -⟩
      · simp [State.accessDC]
      · rw [hf, hop] at hm hw
        simp [hn, hw] at hm

/-! ### The fetch -/

/-- A fetch at PC is what `FetchedAt` says, of any state that agrees with it where a fetch reads. -/
theorem fetchedAt_fetch (o s : State) (tag : Tag) {a : Word} (h1 : s.fetchPc = a) (h2 : s.nextDynId = o.nextDynId)
    (h3 : s.memSize = o.memSize) (h4 : s.icache = o.icache) (h5 : s.ic = o.ic) : FetchedAt o (fetch tag s) tag a := by
  subst h1
  have hw : ∀ x, (fetch tag s).fetchWord x = s.fetchWord x := fun x => by
    simp [State.fetchWord, State.memRead, State.inRange]
  have hr : s.inRange s.fetchPc 4 = true ↔ s.fetchPc.toNat + 4 ≤ o.memSize := by simp [State.inRange, h3]
  have hi : s.inRange s.fetchPc 4 = false ↔ o.memSize < s.fetchPc.toNat + 4 := by simp [State.inRange, h3]
  have hc : s.inRange s.fetchPc 4 = true ∧ (∃ w, s.fetchWord s.fetchPc = .ok w) ∨
      s.inRange s.fetchPc 4 = false ∧ s.fetchWord s.fetchPc = .error .rangeError := by
    unfold State.fetchWord State.memRead
    cases s.inRange s.fetchPc 4 <;> simp [Except.map]
  obtain ⟨w, hf, e1, e2, e3⟩ | ⟨e, hf, e1, e2, e3⟩ := fetch_cases s tag
  · refine ⟨⟨_, e1, rfl, h2, ⟨rfl, rfl, rfl, rfl⟩, rfl, fun v hv => ?_, fun v hv => ?_⟩, by simp [pcPlus4], by simp [h2],
      fun _ => by rw [e2, e3, h4, h5]; exact ⟨rfl, rfl⟩, fun hh => ?_⟩
    · rw [hw, hf] at hv; cases hv; rfl
    · rw [hw, hf] at hv; cases hv
    · rcases hc with ⟨hc, -⟩ | ⟨-, hc⟩
      · have := hr.1 hc; omega
      · rw [hf] at hc; cases hc
  · refine ⟨⟨_, e1, rfl, h2, ⟨rfl, rfl, rfl, rfl⟩, rfl, fun v hv => ?_, fun v hv => rfl⟩, by simp [pcPlus4], by simp [h2],
      fun hh => ?_, fun _ => by rw [e2, e3, h4]; exact ⟨rfl, rfl⟩⟩
    · rw [hw, hf] at hv; cases hv
    · rcases hc with ⟨-, v, hc⟩ | ⟨hc, -⟩
      · rw [hf] at hc; cases hc
      · have := hi.1 hc; omega

/-- The IF occupant as it enters ID. -/
theorem settle_live {sl : Slot} {r : Record} (h : sl.live? = some r) : sl.settle = .full .normal r := by
  rcases live_cases h with rfl | rfl <;> rfl

theorem settle_inert {sl : Slot} (h : sl.live? = none) : sl.settle = sl := by
  cases sl with
  | full t r => cases t <;> simp [Slot.settle, Slot.live?] at h ⊢
  | bubble => rfl
  | idle => rfl

theorem entersID_of_settle {o t : State} (h : t.slotID = o.slotIF.settle) : EntersID o t :=
  ⟨fun _ hr => by rw [h, settle_live hr], fun hr => by rw [h, settle_inert hr]⟩

/-- The sequential fetch with the tag of the record entering ID is what `FetchedBehind` says. -/
theorem fetchedBehind_fetch {o s : State} (h1 : s.fetchPc = o.fetchPc) (h2 : s.nextDynId = o.nextDynId)
    (h3 : s.memSize = o.memSize) (h4 : s.icache = o.icache) (h5 : s.ic = o.ic) :
    FetchedBehind o (fetch (fetchTag o.slotIF.settle) s) := by
  have h := fun tag => fetchedAt_fetch o s tag h1 h2 h3 h4 h5
  refine ⟨fun r hr hc => ?_, fun hr => ?_⟩
  · rw [show fetchTag o.slotIF.settle = .speculative by simp [fetchTag, hr, hc]]
    exact h _
  · have : fetchTag o.slotIF.settle = .normal := by
      unfold fetchTag
      rw [live_settle]
      cases hl : o.slotIF.live? with
      | none => rfl
      | some r => simp [hr r hl]
    rw [this]
    exact h _

end Sys2Proof.Machine
end

