-- ==== Sys2Proof/Laws/Encoding.lean ====
section
/-! SUPPORT. The fields of an encoded word: each format of 30_encoding.md R73 puts its operands where decode takes
them from. First the bits of each format, then one lemma per field. -/

set_option linter.unusedSimpArgs false

namespace Sys2Proof

theorem extractBits_bit (w : InstrWord) (hi lo i : Nat) :
    (extractBits w hi lo).getLsbD i = (decide (i < hi - lo + 1) && w.getLsbD (lo + i)) := by
  simp [extractBits, BitVec.extractLsb]

/-- Positions counted from the start of a field, counted from the start of the word. -/
theorem sub_lt_iff (i a b : Nat) : (i - a < b + 1) = (i < a + (b + 1)) := by simp; omega

theorem extractLsb_bit {n : Nat} (v : BitVec n) (hi lo i : Nat) :
    (v.extractLsb hi lo).getLsbD i = (decide (i < hi - lo + 1) && v.getLsbD (lo + i)) := by
  simp [BitVec.extractLsb]

theorem encR_bit (f7 : BitVec 7) (rs2 rs1 : RegIdx) (f3 : BitVec 3) (rd : RegIdx) (op : BitVec 7) (i : Nat) :
    (encR f7 rs2 rs1 f3 rd op).getLsbD i =
    if i < 7 then op.getLsbD i
    else if i < 12 then rd.getLsbD (i - 7)
    else if i < 15 then f3.getLsbD (i - 12)
    else if i < 20 then rs1.getLsbD (i - 15)
    else if i < 25 then rs2.getLsbD (i - 20)
    else f7.getLsbD (i - 25) := by
  show (f7 ++ rs2 ++ rs1 ++ f3 ++ rd ++ op : BitVec (7 + 5 + 5 + 3 + 5 + 7)).getLsbD i = _
  simp only [BitVec.getLsbD_append]
  simp only [sub_lt_iff, Nat.sub_sub, Nat.reduceAdd]

theorem encI_bit (imm : BitVec 12) (rs1 : RegIdx) (f3 : BitVec 3) (rd : RegIdx) (op : BitVec 7) (i : Nat) :
    (encI imm rs1 f3 rd op).getLsbD i =
    if i < 7 then op.getLsbD i
    else if i < 12 then rd.getLsbD (i - 7)
    else if i < 15 then f3.getLsbD (i - 12)
    else if i < 20 then rs1.getLsbD (i - 15)
    else imm.getLsbD (i - 20) := by
  show (imm ++ rs1 ++ f3 ++ rd ++ op : BitVec (12 + 5 + 3 + 5 + 7)).getLsbD i = _
  simp only [BitVec.getLsbD_append]
  simp only [sub_lt_iff, Nat.sub_sub, Nat.reduceAdd]

theorem encShift64_bit (f6 shamt : BitVec 6) (rs1 : RegIdx) (f3 : BitVec 3) (rd : RegIdx) (op : BitVec 7) (i : Nat) :
    (encShift64 f6 shamt rs1 f3 rd op).getLsbD i =
    if i < 7 then op.getLsbD i
    else if i < 12 then rd.getLsbD (i - 7)
    else if i < 15 then f3.getLsbD (i - 12)
    else if i < 20 then rs1.getLsbD (i - 15)
    else if i < 26 then shamt.getLsbD (i - 20)
    else f6.getLsbD (i - 26) := by
  show (f6 ++ shamt ++ rs1 ++ f3 ++ rd ++ op : BitVec (6 + 6 + 5 + 3 + 5 + 7)).getLsbD i = _
  simp only [BitVec.getLsbD_append]
  simp only [sub_lt_iff, Nat.sub_sub, Nat.reduceAdd]

theorem encS_bit (imm : BitVec 12) (rs2 rs1 : RegIdx) (f3 : BitVec 3) (op : BitVec 7) (i : Nat) :
    (encS imm rs2 rs1 f3 op).getLsbD i =
    if i < 7 then op.getLsbD i
    else if i < 12 then (imm.extractLsb 4 0).getLsbD (i - 7)
    else if i < 15 then f3.getLsbD (i - 12)
    else if i < 20 then rs1.getLsbD (i - 15)
    else if i < 25 then rs2.getLsbD (i - 20)
    else (imm.extractLsb 11 5).getLsbD (i - 25) := by
  show ((imm.extractLsb 11 5 : BitVec 7) ++ rs2 ++ rs1 ++ f3 ++ (imm.extractLsb 4 0 : BitVec 5) ++ op : BitVec (7 + 5 + 5 + 3 + 5 + 7)).getLsbD i = _
  simp only [BitVec.getLsbD_append]
  simp only [sub_lt_iff, Nat.sub_sub, Nat.reduceAdd]

theorem encB_bit (off : BitVec 13) (rs2 rs1 : RegIdx) (f3 : BitVec 3) (op : BitVec 7) (i : Nat) :
    (encB off rs2 rs1 f3 op).getLsbD i =
    if i < 7 then op.getLsbD i
    else if i < 8 then (off.extractLsb 11 11).getLsbD (i - 7)
    else if i < 12 then (off.extractLsb 4 1).getLsbD (i - 8)
    else if i < 15 then f3.getLsbD (i - 12)
    else if i < 20 then rs1.getLsbD (i - 15)
    else if i < 25 then rs2.getLsbD (i - 20)
    else if i < 31 then (off.extractLsb 10 5).getLsbD (i - 25)
    else (off.extractLsb 12 12).getLsbD (i - 31) := by
  show ((off.extractLsb 12 12 : BitVec 1) ++ (off.extractLsb 10 5 : BitVec 6) ++ rs2 ++ rs1 ++ f3 ++ (off.extractLsb 4 1 : BitVec 4) ++ (off.extractLsb 11 11 : BitVec 1) ++ op : BitVec (1 + 6 + 5 + 5 + 3 + 4 + 1 + 7)).getLsbD i = _
  simp only [BitVec.getLsbD_append]
  simp only [sub_lt_iff, Nat.sub_sub, Nat.reduceAdd]

theorem encU_bit (imm : BitVec 20) (rd : RegIdx) (op : BitVec 7) (i : Nat) :
    (encU imm rd op).getLsbD i =
    if i < 7 then op.getLsbD i
    else if i < 12 then rd.getLsbD (i - 7)
    else imm.getLsbD (i - 12) := by
  show (imm ++ rd ++ op : BitVec (20 + 5 + 7)).getLsbD i = _
  simp only [BitVec.getLsbD_append]
  simp only [sub_lt_iff, Nat.sub_sub, Nat.reduceAdd]

theorem encJ_bit (off : BitVec 21) (rd : RegIdx) (op : BitVec 7) (i : Nat) :
    (encJ off rd op).getLsbD i =
    if i < 7 then op.getLsbD i
    else if i < 12 then rd.getLsbD (i - 7)
    else if i < 20 then (off.extractLsb 19 12).getLsbD (i - 12)
    else if i < 21 then (off.extractLsb 11 11).getLsbD (i - 20)
    else if i < 31 then (off.extractLsb 10 1).getLsbD (i - 21)
    else (off.extractLsb 20 20).getLsbD (i - 31) := by
  show ((off.extractLsb 20 20 : BitVec 1) ++ (off.extractLsb 10 1 : BitVec 10) ++ (off.extractLsb 11 11 : BitVec 1) ++ (off.extractLsb 19 12 : BitVec 8) ++ rd ++ op : BitVec (1 + 10 + 1 + 8 + 5 + 7)).getLsbD i = _
  simp only [BitVec.getLsbD_append]
  simp only [sub_lt_iff, Nat.sub_sub, Nat.reduceAdd]

@[simp] theorem opcodeOf_encR (f7 : BitVec 7) (rs2 rs1 : RegIdx) (f3 : BitVec 3) (rd : RegIdx) (op : BitVec 7) : opcodeOf (encR f7 rs2 rs1 f3 rd op) = op := by
  apply BitVec.eq_of_getLsbD_eq
  intro i hi
  rw [opcodeOf, extractBits_bit, decide_eq_true (by omega), Bool.true_and, encR_bit]
  simp only [show ∀ k, k ≤ 0 → ¬ 0 + i < k by omega, Nat.le_refl, Nat.reduceLeDiff, if_false, show 0 + i < 7 by omega, if_true]
  congr 1; omega

@[simp] theorem rdOf_encR (f7 : BitVec 7) (rs2 rs1 : RegIdx) (f3 : BitVec 3) (rd : RegIdx) (op : BitVec 7) : rdOf (encR f7 rs2 rs1 f3 rd op) = rd := by
  apply BitVec.eq_of_getLsbD_eq
  intro i hi
  rw [rdOf, extractBits_bit, decide_eq_true (by omega), Bool.true_and, encR_bit]
  simp only [show ∀ k, k ≤ 7 → ¬ 7 + i < k by omega, Nat.le_refl, Nat.reduceLeDiff, if_false, show 7 + i < 12 by omega, if_true]
  congr 1; omega

@[simp] theorem funct3Of_encR (f7 : BitVec 7) (rs2 rs1 : RegIdx) (f3 : BitVec 3) (rd : RegIdx) (op : BitVec 7) : funct3Of (encR f7 rs2 rs1 f3 rd op) = f3 := by
  apply BitVec.eq_of_getLsbD_eq
  intro i hi
  rw [funct3Of, extractBits_bit, decide_eq_true (by omega), Bool.true_and, encR_bit]
  simp only [show ∀ k, k ≤ 12 → ¬ 12 + i < k by omega, Nat.le_refl, Nat.reduceLeDiff, if_false, show 12 + i < 15 by omega, if_true]
  congr 1; omega

@[simp] theorem rs1Of_encR (f7 : BitVec 7) (rs2 rs1 : RegIdx) (f3 : BitVec 3) (rd : RegIdx) (op : BitVec 7) : rs1Of (encR f7 rs2 rs1 f3 rd op) = rs1 := by
  apply BitVec.eq_of_getLsbD_eq
  intro i hi
  rw [rs1Of, extractBits_bit, decide_eq_true (by omega), Bool.true_and, encR_bit]
  simp only [show ∀ k, k ≤ 15 → ¬ 15 + i < k by omega, Nat.le_refl, Nat.reduceLeDiff, if_false, show 15 + i < 20 by omega, if_true]
  congr 1; omega

@[simp] theorem rs2Of_encR (f7 : BitVec 7) (rs2 rs1 : RegIdx) (f3 : BitVec 3) (rd : RegIdx) (op : BitVec 7) : rs2Of (encR f7 rs2 rs1 f3 rd op) = rs2 := by
  apply BitVec.eq_of_getLsbD_eq
  intro i hi
  rw [rs2Of, extractBits_bit, decide_eq_true (by omega), Bool.true_and, encR_bit]
  simp only [show ∀ k, k ≤ 20 → ¬ 20 + i < k by omega, Nat.le_refl, Nat.reduceLeDiff, if_false, show 20 + i < 25 by omega, if_true]
  congr 1; omega

@[simp] theorem funct7Of_encR (f7 : BitVec 7) (rs2 rs1 : RegIdx) (f3 : BitVec 3) (rd : RegIdx) (op : BitVec 7) : funct7Of (encR f7 rs2 rs1 f3 rd op) = f7 := by
  apply BitVec.eq_of_getLsbD_eq
  intro i hi
  rw [funct7Of, extractBits_bit, decide_eq_true (by omega), Bool.true_and, encR_bit]
  simp only [show ∀ k, k ≤ 25 → ¬ 25 + i < k by omega, Nat.le_refl, Nat.reduceLeDiff, if_false, show 25 + i < 32 by omega, if_true]
  congr 1; omega

@[simp] theorem opcodeOf_encI (imm : BitVec 12) (rs1 : RegIdx) (f3 : BitVec 3) (rd : RegIdx) (op : BitVec 7) : opcodeOf (encI imm rs1 f3 rd op) = op := by
  apply BitVec.eq_of_getLsbD_eq
  intro i hi
  rw [opcodeOf, extractBits_bit, decide_eq_true (by omega), Bool.true_and, encI_bit]
  simp only [show ∀ k, k ≤ 0 → ¬ 0 + i < k by omega, Nat.le_refl, Nat.reduceLeDiff, if_false, show 0 + i < 7 by omega, if_true]
  congr 1; omega

@[simp] theorem rdOf_encI (imm : BitVec 12) (rs1 : RegIdx) (f3 : BitVec 3) (rd : RegIdx) (op : BitVec 7) : rdOf (encI imm rs1 f3 rd op) = rd := by
  apply BitVec.eq_of_getLsbD_eq
  intro i hi
  rw [rdOf, extractBits_bit, decide_eq_true (by omega), Bool.true_and, encI_bit]
  simp only [show ∀ k, k ≤ 7 → ¬ 7 + i < k by omega, Nat.le_refl, Nat.reduceLeDiff, if_false, show 7 + i < 12 by omega, if_true]
  congr 1; omega

@[simp] theorem funct3Of_encI (imm : BitVec 12) (rs1 : RegIdx) (f3 : BitVec 3) (rd : RegIdx) (op : BitVec 7) : funct3Of (encI imm rs1 f3 rd op) = f3 := by
  apply BitVec.eq_of_getLsbD_eq
  intro i hi
  rw [funct3Of, extractBits_bit, decide_eq_true (by omega), Bool.true_and, encI_bit]
  simp only [show ∀ k, k ≤ 12 → ¬ 12 + i < k by omega, Nat.le_refl, Nat.reduceLeDiff, if_false, show 12 + i < 15 by omega, if_true]
  congr 1; omega

@[simp] theorem rs1Of_encI (imm : BitVec 12) (rs1 : RegIdx) (f3 : BitVec 3) (rd : RegIdx) (op : BitVec 7) : rs1Of (encI imm rs1 f3 rd op) = rs1 := by
  apply BitVec.eq_of_getLsbD_eq
  intro i hi
  rw [rs1Of, extractBits_bit, decide_eq_true (by omega), Bool.true_and, encI_bit]
  simp only [show ∀ k, k ≤ 15 → ¬ 15 + i < k by omega, Nat.le_refl, Nat.reduceLeDiff, if_false, show 15 + i < 20 by omega, if_true]
  congr 1; omega

@[simp] theorem immIOf_encI (imm : BitVec 12) (rs1 : RegIdx) (f3 : BitVec 3) (rd : RegIdx) (op : BitVec 7) : immIOf (encI imm rs1 f3 rd op) = imm := by
  apply BitVec.eq_of_getLsbD_eq
  intro i hi
  rw [immIOf, extractBits_bit, decide_eq_true (by omega), Bool.true_and, encI_bit]
  simp only [show ∀ k, k ≤ 20 → ¬ 20 + i < k by omega, Nat.le_refl, Nat.reduceLeDiff, if_false, show 20 + i < 32 by omega, if_true]
  congr 1; omega

@[simp] theorem opcodeOf_encShift64 (f6 shamt : BitVec 6) (rs1 : RegIdx) (f3 : BitVec 3) (rd : RegIdx) (op : BitVec 7) : opcodeOf (encShift64 f6 shamt rs1 f3 rd op) = op := by
  apply BitVec.eq_of_getLsbD_eq
  intro i hi
  rw [opcodeOf, extractBits_bit, decide_eq_true (by omega), Bool.true_and, encShift64_bit]
  simp only [show ∀ k, k ≤ 0 → ¬ 0 + i < k by omega, Nat.le_refl, Nat.reduceLeDiff, if_false, show 0 + i < 7 by omega, if_true]
  congr 1; omega

@[simp] theorem rdOf_encShift64 (f6 shamt : BitVec 6) (rs1 : RegIdx) (f3 : BitVec 3) (rd : RegIdx) (op : BitVec 7) : rdOf (encShift64 f6 shamt rs1 f3 rd op) = rd := by
  apply BitVec.eq_of_getLsbD_eq
  intro i hi
  rw [rdOf, extractBits_bit, decide_eq_true (by omega), Bool.true_and, encShift64_bit]
  simp only [show ∀ k, k ≤ 7 → ¬ 7 + i < k by omega, Nat.le_refl, Nat.reduceLeDiff, if_false, show 7 + i < 12 by omega, if_true]
  congr 1; omega

@[simp] theorem funct3Of_encShift64 (f6 shamt : BitVec 6) (rs1 : RegIdx) (f3 : BitVec 3) (rd : RegIdx) (op : BitVec 7) : funct3Of (encShift64 f6 shamt rs1 f3 rd op) = f3 := by
  apply BitVec.eq_of_getLsbD_eq
  intro i hi
  rw [funct3Of, extractBits_bit, decide_eq_true (by omega), Bool.true_and, encShift64_bit]
  simp only [show ∀ k, k ≤ 12 → ¬ 12 + i < k by omega, Nat.le_refl, Nat.reduceLeDiff, if_false, show 12 + i < 15 by omega, if_true]
  congr 1; omega

@[simp] theorem rs1Of_encShift64 (f6 shamt : BitVec 6) (rs1 : RegIdx) (f3 : BitVec 3) (rd : RegIdx) (op : BitVec 7) : rs1Of (encShift64 f6 shamt rs1 f3 rd op) = rs1 := by
  apply BitVec.eq_of_getLsbD_eq
  intro i hi
  rw [rs1Of, extractBits_bit, decide_eq_true (by omega), Bool.true_and, encShift64_bit]
  simp only [show ∀ k, k ≤ 15 → ¬ 15 + i < k by omega, Nat.le_refl, Nat.reduceLeDiff, if_false, show 15 + i < 20 by omega, if_true]
  congr 1; omega

@[simp] theorem funct6Of_encShift64 (f6 shamt : BitVec 6) (rs1 : RegIdx) (f3 : BitVec 3) (rd : RegIdx) (op : BitVec 7) : funct6Of (encShift64 f6 shamt rs1 f3 rd op) = f6 := by
  apply BitVec.eq_of_getLsbD_eq
  intro i hi
  rw [funct6Of, extractBits_bit, decide_eq_true (by omega), Bool.true_and, encShift64_bit]
  simp only [show ∀ k, k ≤ 26 → ¬ 26 + i < k by omega, Nat.le_refl, Nat.reduceLeDiff, if_false, show 26 + i < 32 by omega, if_true]
  congr 1; omega

@[simp] theorem shamt64Of_encShift64 (f6 shamt : BitVec 6) (rs1 : RegIdx) (f3 : BitVec 3) (rd : RegIdx) (op : BitVec 7) : shamt64Of (encShift64 f6 shamt rs1 f3 rd op) = shamt := by
  apply BitVec.eq_of_getLsbD_eq
  intro i hi
  rw [shamt64Of, extractBits_bit, decide_eq_true (by omega), Bool.true_and, encShift64_bit]
  simp only [show ∀ k, k ≤ 20 → ¬ 20 + i < k by omega, Nat.le_refl, Nat.reduceLeDiff, if_false, show 20 + i < 26 by omega, if_true]
  congr 1; omega

@[simp] theorem opcodeOf_encS (imm : BitVec 12) (rs2 rs1 : RegIdx) (f3 : BitVec 3) (op : BitVec 7) : opcodeOf (encS imm rs2 rs1 f3 op) = op := by
  apply BitVec.eq_of_getLsbD_eq
  intro i hi
  rw [opcodeOf, extractBits_bit, decide_eq_true (by omega), Bool.true_and, encS_bit]
  simp only [show ∀ k, k ≤ 0 → ¬ 0 + i < k by omega, Nat.le_refl, Nat.reduceLeDiff, if_false, show 0 + i < 7 by omega, if_true]
  congr 1; omega

@[simp] theorem funct3Of_encS (imm : BitVec 12) (rs2 rs1 : RegIdx) (f3 : BitVec 3) (op : BitVec 7) : funct3Of (encS imm rs2 rs1 f3 op) = f3 := by
  apply BitVec.eq_of_getLsbD_eq
  intro i hi
  rw [funct3Of, extractBits_bit, decide_eq_true (by omega), Bool.true_and, encS_bit]
  simp only [show ∀ k, k ≤ 12 → ¬ 12 + i < k by omega, Nat.le_refl, Nat.reduceLeDiff, if_false, show 12 + i < 15 by omega, if_true]
  congr 1; omega

@[simp] theorem rs1Of_encS (imm : BitVec 12) (rs2 rs1 : RegIdx) (f3 : BitVec 3) (op : BitVec 7) : rs1Of (encS imm rs2 rs1 f3 op) = rs1 := by
  apply BitVec.eq_of_getLsbD_eq
  intro i hi
  rw [rs1Of, extractBits_bit, decide_eq_true (by omega), Bool.true_and, encS_bit]
  simp only [show ∀ k, k ≤ 15 → ¬ 15 + i < k by omega, Nat.le_refl, Nat.reduceLeDiff, if_false, show 15 + i < 20 by omega, if_true]
  congr 1; omega

@[simp] theorem rs2Of_encS (imm : BitVec 12) (rs2 rs1 : RegIdx) (f3 : BitVec 3) (op : BitVec 7) : rs2Of (encS imm rs2 rs1 f3 op) = rs2 := by
  apply BitVec.eq_of_getLsbD_eq
  intro i hi
  rw [rs2Of, extractBits_bit, decide_eq_true (by omega), Bool.true_and, encS_bit]
  simp only [show ∀ k, k ≤ 20 → ¬ 20 + i < k by omega, Nat.le_refl, Nat.reduceLeDiff, if_false, show 20 + i < 25 by omega, if_true]
  congr 1; omega

@[simp] theorem opcodeOf_encB (off : BitVec 13) (rs2 rs1 : RegIdx) (f3 : BitVec 3) (op : BitVec 7) : opcodeOf (encB off rs2 rs1 f3 op) = op := by
  apply BitVec.eq_of_getLsbD_eq
  intro i hi
  rw [opcodeOf, extractBits_bit, decide_eq_true (by omega), Bool.true_and, encB_bit]
  simp only [show ∀ k, k ≤ 0 → ¬ 0 + i < k by omega, Nat.le_refl, Nat.reduceLeDiff, if_false, show 0 + i < 7 by omega, if_true]
  congr 1; omega

@[simp] theorem funct3Of_encB (off : BitVec 13) (rs2 rs1 : RegIdx) (f3 : BitVec 3) (op : BitVec 7) : funct3Of (encB off rs2 rs1 f3 op) = f3 := by
  apply BitVec.eq_of_getLsbD_eq
  intro i hi
  rw [funct3Of, extractBits_bit, decide_eq_true (by omega), Bool.true_and, encB_bit]
  simp only [show ∀ k, k ≤ 12 → ¬ 12 + i < k by omega, Nat.le_refl, Nat.reduceLeDiff, if_false, show 12 + i < 15 by omega, if_true]
  congr 1; omega

@[simp] theorem rs1Of_encB (off : BitVec 13) (rs2 rs1 : RegIdx) (f3 : BitVec 3) (op : BitVec 7) : rs1Of (encB off rs2 rs1 f3 op) = rs1 := by
  apply BitVec.eq_of_getLsbD_eq
  intro i hi
  rw [rs1Of, extractBits_bit, decide_eq_true (by omega), Bool.true_and, encB_bit]
  simp only [show ∀ k, k ≤ 15 → ¬ 15 + i < k by omega, Nat.le_refl, Nat.reduceLeDiff, if_false, show 15 + i < 20 by omega, if_true]
  congr 1; omega

@[simp] theorem rs2Of_encB (off : BitVec 13) (rs2 rs1 : RegIdx) (f3 : BitVec 3) (op : BitVec 7) : rs2Of (encB off rs2 rs1 f3 op) = rs2 := by
  apply BitVec.eq_of_getLsbD_eq
  intro i hi
  rw [rs2Of, extractBits_bit, decide_eq_true (by omega), Bool.true_and, encB_bit]
  simp only [show ∀ k, k ≤ 20 → ¬ 20 + i < k by omega, Nat.le_refl, Nat.reduceLeDiff, if_false, show 20 + i < 25 by omega, if_true]
  congr 1; omega

@[simp] theorem opcodeOf_encU (imm : BitVec 20) (rd : RegIdx) (op : BitVec 7) : opcodeOf (encU imm rd op) = op := by
  apply BitVec.eq_of_getLsbD_eq
  intro i hi
  rw [opcodeOf, extractBits_bit, decide_eq_true (by omega), Bool.true_and, encU_bit]
  simp only [show ∀ k, k ≤ 0 → ¬ 0 + i < k by omega, Nat.le_refl, Nat.reduceLeDiff, if_false, show 0 + i < 7 by omega, if_true]
  congr 1; omega

@[simp] theorem rdOf_encU (imm : BitVec 20) (rd : RegIdx) (op : BitVec 7) : rdOf (encU imm rd op) = rd := by
  apply BitVec.eq_of_getLsbD_eq
  intro i hi
  rw [rdOf, extractBits_bit, decide_eq_true (by omega), Bool.true_and, encU_bit]
  simp only [show ∀ k, k ≤ 7 → ¬ 7 + i < k by omega, Nat.le_refl, Nat.reduceLeDiff, if_false, show 7 + i < 12 by omega, if_true]
  congr 1; omega

@[simp] theorem immUOf_encU (imm : BitVec 20) (rd : RegIdx) (op : BitVec 7) : immUOf (encU imm rd op) = imm := by
  apply BitVec.eq_of_getLsbD_eq
  intro i hi
  rw [immUOf, extractBits_bit, decide_eq_true (by omega), Bool.true_and, encU_bit]
  simp only [show ∀ k, k ≤ 12 → ¬ 12 + i < k by omega, Nat.le_refl, Nat.reduceLeDiff, if_false, show 12 + i < 32 by omega, if_true]
  congr 1; omega

@[simp] theorem opcodeOf_encJ (off : BitVec 21) (rd : RegIdx) (op : BitVec 7) : opcodeOf (encJ off rd op) = op := by
  apply BitVec.eq_of_getLsbD_eq
  intro i hi
  rw [opcodeOf, extractBits_bit, decide_eq_true (by omega), Bool.true_and, encJ_bit]
  simp only [show ∀ k, k ≤ 0 → ¬ 0 + i < k by omega, Nat.le_refl, Nat.reduceLeDiff, if_false, show 0 + i < 7 by omega, if_true]
  congr 1; omega

@[simp] theorem rdOf_encJ (off : BitVec 21) (rd : RegIdx) (op : BitVec 7) : rdOf (encJ off rd op) = rd := by
  apply BitVec.eq_of_getLsbD_eq
  intro i hi
  rw [rdOf, extractBits_bit, decide_eq_true (by omega), Bool.true_and, encJ_bit]
  simp only [show ∀ k, k ≤ 7 → ¬ 7 + i < k by omega, Nat.le_refl, Nat.reduceLeDiff, if_false, show 7 + i < 12 by omega, if_true]
  congr 1; omega

@[simp] theorem shamt32Of_encR (f7 : BitVec 7) (rs2 rs1 : RegIdx) (f3 : BitVec 3) (rd : RegIdx) (op : BitVec 7) :
    shamt32Of (encR f7 rs2 rs1 f3 rd op) = rs2 := rs2Of_encR ..

@[simp] theorem immSOf_encS (imm : BitVec 12) (rs2 rs1 : RegIdx) (f3 : BitVec 3) (op : BitVec 7) :
    immSOf (encS imm rs2 rs1 f3 op) = imm := by
  apply BitVec.eq_of_getLsbD_eq
  intro i hi
  have h (k : Nat) : (immSOf (encS imm rs2 rs1 f3 op)).getLsbD k = _ := BitVec.getLsbD_append
  rw [h]
  simp only [extractBits_bit, encS_bit, extractLsb_bit]
  interval_cases i <;> simp

/-- Bit 0 of a branch offset is not encoded. -/
theorem immBOf_encB (off : BitVec 13) (rs2 rs1 : RegIdx) (f3 : BitVec 3) (op : BitVec 7) (h0 : off.getLsbD 0 = false) :
    immBOf (encB off rs2 rs1 f3 op) = off := by
  apply BitVec.eq_of_getLsbD_eq
  intro i hi
  have h (k : Nat) : (immBOf (encB off rs2 rs1 f3 op)).getLsbD k = _ := BitVec.getLsbD_append
  rw [h]
  simp only [BitVec.getLsbD_append, extractBits_bit, encB_bit, extractLsb_bit]
  interval_cases i <;> simp_all

/-- Bit 0 of a JAL offset is not encoded. -/
theorem immJOf_encJ (off : BitVec 21) (rd : RegIdx) (op : BitVec 7) (h0 : off.getLsbD 0 = false) :
    immJOf (encJ off rd op) = off := by
  apply BitVec.eq_of_getLsbD_eq
  intro i hi
  have h (k : Nat) : (immJOf (encJ off rd op)).getLsbD k = _ := BitVec.getLsbD_append
  rw [h]
  simp only [BitVec.getLsbD_append, extractBits_bit, encJ_bit, extractLsb_bit]
  interval_cases i <;> simp_all

end Sys2Proof
end

