-- ==== Sys2Proof/Laws/Exec.lean ====
section
/-! SUPPORT. What the operations the meanings share can do (30_encoding.md R92, 45_loads_stores.md R131), in the terms of
Sys2Proof/Safety.lean. -/

namespace Sys2Proof.Machine

variable (s : State)

/-- Committing a value gives a register result. -/
theorem regResult_commit (rd : RegIdx) (v npc : Word) : RegResult s rd v npc (s.commit rd v npc) where
  target h := by rw [readReg_commit]; simp [h]
  others r h := by
    rw [readReg_commit]
    by_cases h0 : r = 0#5
    · simp [h0]
    · simp [h0, h]
  zero := readReg_zero
  pc := rfl
  count := by simp [State.commit, State.finish]
  bytes a := readByte_congr (by simp [State.commit]) a
  rest := by unfold State.commit State.finish State.writeReg; split <;> rfl

theorem regResult_commitNext (rd : RegIdx) (v : Word) :
    RegResult s rd v (pcPlus4 s.pc) (s.commitNext rd v) :=
  regResult_commit s rd v _

/-- Finishing without a commit gives a jump result. -/
theorem jumpResult_finish (npc : Word) : JumpResult s npc (s.finish npc) where
  regs _ := rfl
  pc := rfl
  count := rfl
  bytes _ := rfl
  rest := rfl

/-- A load commits what it reads, or stops the run. -/
theorem loadInto_cases (n : Nat) (ext : Word → Word) (rd rs1 : RegIdx) (imm : BitVec 12) :
    (s.inRange (loadAddress (s.readReg rs1) imm) n = true ∧
      loadInto n ext rd rs1 imm s =
        .next (s.commitNext rd (ext (Memory.load s.mem (loadAddress (s.readReg rs1) imm).toNat n)))) ∨
    (s.inRange (loadAddress (s.readReg rs1) imm) n = false ∧
      loadInto n ext rd rs1 imm s = .next { s with status := .illegal }) := by
  unfold loadInto State.memRead
  cases h : s.inRange (loadAddress (s.readReg rs1) imm) n <;> simp [State.takeException]

/-- A store writes the low bytes of its source and goes on, or stops the run. -/
theorem storeFrom_cases (n : Nat) (rs1 rs2 : RegIdx) (imm : BitVec 12) :
    (s.inRange (storeAddress (s.readReg rs1) imm) n = true ∧
      storeFrom n rs1 rs2 imm s =
        .next ({ s with
          mem := Memory.store s.mem (storeAddress (s.readReg rs1) imm).toNat n (s.readReg rs2) }.finish
            (pcPlus4 s.pc))) ∨
    (s.inRange (storeAddress (s.readReg rs1) imm) n = false ∧
      storeFrom n rs1 rs2 imm s = .next { s with status := .illegal }) := by
  unfold storeFrom State.memWrite
  cases h : s.inRange (storeAddress (s.readReg rs1) imm) n <;> simp [State.takeException]

/-- A store leaves every byte outside the stored ones as it is, stored or not. -/
theorem storeFrom_readByte_outside {n : Nat} {rs1 rs2 : RegIdx} {imm : BitVec 12} {t : State}
    (h : storeFrom n rs1 rs2 imm s = .next t) {a : Nat}
    (ha : a < (storeAddress (s.readReg rs1) imm).toNat ∨ (storeAddress (s.readReg rs1) imm).toNat + n ≤ a) :
    t.readByte a = s.readByte a := by
  obtain ⟨-, e⟩ | ⟨-, e⟩ := storeFrom_cases s n rs1 rs2 imm <;> rw [e] at h <;> cases h
  · simpa [State.readByte, State.finish] using Memory.byte_store_outside (m := s.mem) (s.readReg rs2) ha
  · rfl

theorem inRange_iff (a : Word) (n : Nat) : s.inRange a n = true ↔ a.toNat + n ≤ s.memSize := by
  simp [State.inRange]

/-- A fetch gives the word of the four bytes, or fails out of range. -/
theorem fetchWord_cases (a : Word) :
    (s.inRange a 4 = true ∧ s.fetchWord a = .ok ((Memory.load s.mem a.toNat 4).setWidth 32)) ∨
    (s.inRange a 4 = false ∧ s.fetchWord a = .error .rangeError) := by
  unfold State.fetchWord State.memRead
  cases s.inRange a 4 <;> simp [Except.map]

end Sys2Proof.Machine
end

