-- ==== Sys2Proof/Laws/PerInstr.lean ====
section
/-! SUPPORT. Per-instruction laws. The family EncodedFields: the register fields decode takes from an instruction's word
(30_encoding.md R72) are the registers the instruction names. -/

namespace Sys2Proof.Laws

open Sys2Proof.Machine

/-- The registers an instruction names: destination, first and second source. -/
structure Named where
  rd  : Option RegIdx
  rs1 : Option RegIdx
  rs2 : Option RegIdx
deriving DecidableEq, Repr

/-- The registers an instruction names. -/
def namedBy : Instr → Named
  | .add rd rs1 rs2 => ⟨some rd, some rs1, some rs2⟩
  | .sub rd rs1 rs2 => ⟨some rd, some rs1, some rs2⟩
  | .sll rd rs1 rs2 => ⟨some rd, some rs1, some rs2⟩
  | .slt rd rs1 rs2 => ⟨some rd, some rs1, some rs2⟩
  | .sltu rd rs1 rs2 => ⟨some rd, some rs1, some rs2⟩
  | .xor rd rs1 rs2 => ⟨some rd, some rs1, some rs2⟩
  | .srl rd rs1 rs2 => ⟨some rd, some rs1, some rs2⟩
  | .sra rd rs1 rs2 => ⟨some rd, some rs1, some rs2⟩
  | .or rd rs1 rs2 => ⟨some rd, some rs1, some rs2⟩
  | .and rd rs1 rs2 => ⟨some rd, some rs1, some rs2⟩
  | .addi rd rs1 _ => ⟨some rd, some rs1, none⟩
  | .slti rd rs1 _ => ⟨some rd, some rs1, none⟩
  | .sltiu rd rs1 _ => ⟨some rd, some rs1, none⟩
  | .xori rd rs1 _ => ⟨some rd, some rs1, none⟩
  | .ori rd rs1 _ => ⟨some rd, some rs1, none⟩
  | .andi rd rs1 _ => ⟨some rd, some rs1, none⟩
  | .slli rd rs1 _ => ⟨some rd, some rs1, none⟩
  | .srli rd rs1 _ => ⟨some rd, some rs1, none⟩
  | .srai rd rs1 _ => ⟨some rd, some rs1, none⟩
  | .addiw rd rs1 _ => ⟨some rd, some rs1, none⟩
  | .slliw rd rs1 _ => ⟨some rd, some rs1, none⟩
  | .srliw rd rs1 _ => ⟨some rd, some rs1, none⟩
  | .sraiw rd rs1 _ => ⟨some rd, some rs1, none⟩
  | .addw rd rs1 rs2 => ⟨some rd, some rs1, some rs2⟩
  | .subw rd rs1 rs2 => ⟨some rd, some rs1, some rs2⟩
  | .sllw rd rs1 rs2 => ⟨some rd, some rs1, some rs2⟩
  | .srlw rd rs1 rs2 => ⟨some rd, some rs1, some rs2⟩
  | .sraw rd rs1 rs2 => ⟨some rd, some rs1, some rs2⟩
  | .lui rd _ => ⟨some rd, none, none⟩
  | .auipc rd _ => ⟨some rd, none, none⟩
  | .lb rd rs1 _ => ⟨some rd, some rs1, none⟩
  | .lh rd rs1 _ => ⟨some rd, some rs1, none⟩
  | .lw rd rs1 _ => ⟨some rd, some rs1, none⟩
  | .ld rd rs1 _ => ⟨some rd, some rs1, none⟩
  | .lbu rd rs1 _ => ⟨some rd, some rs1, none⟩
  | .lhu rd rs1 _ => ⟨some rd, some rs1, none⟩
  | .lwu rd rs1 _ => ⟨some rd, some rs1, none⟩
  | .sb rs1 rs2 _ => ⟨none, some rs1, some rs2⟩
  | .sh rs1 rs2 _ => ⟨none, some rs1, some rs2⟩
  | .sw rs1 rs2 _ => ⟨none, some rs1, some rs2⟩
  | .sd rs1 rs2 _ => ⟨none, some rs1, some rs2⟩
  | .beq rs1 rs2 _ => ⟨none, some rs1, some rs2⟩
  | .bne rs1 rs2 _ => ⟨none, some rs1, some rs2⟩
  | .blt rs1 rs2 _ => ⟨none, some rs1, some rs2⟩
  | .bge rs1 rs2 _ => ⟨none, some rs1, some rs2⟩
  | .bltu rs1 rs2 _ => ⟨none, some rs1, some rs2⟩
  | .bgeu rs1 rs2 _ => ⟨none, some rs1, some rs2⟩
  | .jal rd _ => ⟨some rd, none, none⟩
  | .jalr rd rs1 _ => ⟨some rd, some rs1, none⟩
  | .halt => ⟨none, none, none⟩
  | .nop => ⟨none, none, none⟩

/-- The fields of the instruction's word hold the registers it names. -/
def EncodedFields.Statement (i : Instr) : Prop :=
  (∀ r, (namedBy i).rd = some r → (fieldsOf i).rd = r) ∧ (∀ r, (namedBy i).rs1 = some r → (fieldsOf i).rs1 = r) ∧
    ∀ r, (namedBy i).rs2 = some r → (fieldsOf i).rs2 = r

namespace EncodedFields

theorem add (rd : RegIdx) (rs1 : RegIdx) (rs2 : RegIdx) : Statement (.add rd rs1 rs2) :=
  ⟨fun _ h => Option.some.inj h ▸ rdOf_encR .., fun _ h => Option.some.inj h ▸ rs1Of_encR .., fun _ h => Option.some.inj h ▸ rs2Of_encR ..⟩
theorem sub (rd : RegIdx) (rs1 : RegIdx) (rs2 : RegIdx) : Statement (.sub rd rs1 rs2) :=
  ⟨fun _ h => Option.some.inj h ▸ rdOf_encR .., fun _ h => Option.some.inj h ▸ rs1Of_encR .., fun _ h => Option.some.inj h ▸ rs2Of_encR ..⟩
theorem sll (rd : RegIdx) (rs1 : RegIdx) (rs2 : RegIdx) : Statement (.sll rd rs1 rs2) :=
  ⟨fun _ h => Option.some.inj h ▸ rdOf_encR .., fun _ h => Option.some.inj h ▸ rs1Of_encR .., fun _ h => Option.some.inj h ▸ rs2Of_encR ..⟩
theorem slt (rd : RegIdx) (rs1 : RegIdx) (rs2 : RegIdx) : Statement (.slt rd rs1 rs2) :=
  ⟨fun _ h => Option.some.inj h ▸ rdOf_encR .., fun _ h => Option.some.inj h ▸ rs1Of_encR .., fun _ h => Option.some.inj h ▸ rs2Of_encR ..⟩
theorem sltu (rd : RegIdx) (rs1 : RegIdx) (rs2 : RegIdx) : Statement (.sltu rd rs1 rs2) :=
  ⟨fun _ h => Option.some.inj h ▸ rdOf_encR .., fun _ h => Option.some.inj h ▸ rs1Of_encR .., fun _ h => Option.some.inj h ▸ rs2Of_encR ..⟩
theorem xor (rd : RegIdx) (rs1 : RegIdx) (rs2 : RegIdx) : Statement (.xor rd rs1 rs2) :=
  ⟨fun _ h => Option.some.inj h ▸ rdOf_encR .., fun _ h => Option.some.inj h ▸ rs1Of_encR .., fun _ h => Option.some.inj h ▸ rs2Of_encR ..⟩
theorem srl (rd : RegIdx) (rs1 : RegIdx) (rs2 : RegIdx) : Statement (.srl rd rs1 rs2) :=
  ⟨fun _ h => Option.some.inj h ▸ rdOf_encR .., fun _ h => Option.some.inj h ▸ rs1Of_encR .., fun _ h => Option.some.inj h ▸ rs2Of_encR ..⟩
theorem sra (rd : RegIdx) (rs1 : RegIdx) (rs2 : RegIdx) : Statement (.sra rd rs1 rs2) :=
  ⟨fun _ h => Option.some.inj h ▸ rdOf_encR .., fun _ h => Option.some.inj h ▸ rs1Of_encR .., fun _ h => Option.some.inj h ▸ rs2Of_encR ..⟩
theorem or (rd : RegIdx) (rs1 : RegIdx) (rs2 : RegIdx) : Statement (.or rd rs1 rs2) :=
  ⟨fun _ h => Option.some.inj h ▸ rdOf_encR .., fun _ h => Option.some.inj h ▸ rs1Of_encR .., fun _ h => Option.some.inj h ▸ rs2Of_encR ..⟩
theorem and (rd : RegIdx) (rs1 : RegIdx) (rs2 : RegIdx) : Statement (.and rd rs1 rs2) :=
  ⟨fun _ h => Option.some.inj h ▸ rdOf_encR .., fun _ h => Option.some.inj h ▸ rs1Of_encR .., fun _ h => Option.some.inj h ▸ rs2Of_encR ..⟩
theorem addi (rd : RegIdx) (rs1 : RegIdx) (imm : BitVec 12) : Statement (.addi rd rs1 imm) :=
  ⟨fun _ h => Option.some.inj h ▸ rdOf_encI .., fun _ h => Option.some.inj h ▸ rs1Of_encI .., nofun⟩
theorem slti (rd : RegIdx) (rs1 : RegIdx) (imm : BitVec 12) : Statement (.slti rd rs1 imm) :=
  ⟨fun _ h => Option.some.inj h ▸ rdOf_encI .., fun _ h => Option.some.inj h ▸ rs1Of_encI .., nofun⟩
theorem sltiu (rd : RegIdx) (rs1 : RegIdx) (imm : BitVec 12) : Statement (.sltiu rd rs1 imm) :=
  ⟨fun _ h => Option.some.inj h ▸ rdOf_encI .., fun _ h => Option.some.inj h ▸ rs1Of_encI .., nofun⟩
theorem xori (rd : RegIdx) (rs1 : RegIdx) (imm : BitVec 12) : Statement (.xori rd rs1 imm) :=
  ⟨fun _ h => Option.some.inj h ▸ rdOf_encI .., fun _ h => Option.some.inj h ▸ rs1Of_encI .., nofun⟩
theorem ori (rd : RegIdx) (rs1 : RegIdx) (imm : BitVec 12) : Statement (.ori rd rs1 imm) :=
  ⟨fun _ h => Option.some.inj h ▸ rdOf_encI .., fun _ h => Option.some.inj h ▸ rs1Of_encI .., nofun⟩
theorem andi (rd : RegIdx) (rs1 : RegIdx) (imm : BitVec 12) : Statement (.andi rd rs1 imm) :=
  ⟨fun _ h => Option.some.inj h ▸ rdOf_encI .., fun _ h => Option.some.inj h ▸ rs1Of_encI .., nofun⟩
theorem slli (rd : RegIdx) (rs1 : RegIdx) (shamt : BitVec 6) : Statement (.slli rd rs1 shamt) :=
  ⟨fun _ h => Option.some.inj h ▸ rdOf_encShift64 .., fun _ h => Option.some.inj h ▸ rs1Of_encShift64 .., nofun⟩
theorem srli (rd : RegIdx) (rs1 : RegIdx) (shamt : BitVec 6) : Statement (.srli rd rs1 shamt) :=
  ⟨fun _ h => Option.some.inj h ▸ rdOf_encShift64 .., fun _ h => Option.some.inj h ▸ rs1Of_encShift64 .., nofun⟩
theorem srai (rd : RegIdx) (rs1 : RegIdx) (shamt : BitVec 6) : Statement (.srai rd rs1 shamt) :=
  ⟨fun _ h => Option.some.inj h ▸ rdOf_encShift64 .., fun _ h => Option.some.inj h ▸ rs1Of_encShift64 .., nofun⟩
theorem addiw (rd : RegIdx) (rs1 : RegIdx) (imm : BitVec 12) : Statement (.addiw rd rs1 imm) :=
  ⟨fun _ h => Option.some.inj h ▸ rdOf_encI .., fun _ h => Option.some.inj h ▸ rs1Of_encI .., nofun⟩
theorem slliw (rd : RegIdx) (rs1 : RegIdx) (shamt : BitVec 5) : Statement (.slliw rd rs1 shamt) :=
  ⟨fun _ h => Option.some.inj h ▸ rdOf_encR .., fun _ h => Option.some.inj h ▸ rs1Of_encR .., nofun⟩
theorem srliw (rd : RegIdx) (rs1 : RegIdx) (shamt : BitVec 5) : Statement (.srliw rd rs1 shamt) :=
  ⟨fun _ h => Option.some.inj h ▸ rdOf_encR .., fun _ h => Option.some.inj h ▸ rs1Of_encR .., nofun⟩
theorem sraiw (rd : RegIdx) (rs1 : RegIdx) (shamt : BitVec 5) : Statement (.sraiw rd rs1 shamt) :=
  ⟨fun _ h => Option.some.inj h ▸ rdOf_encR .., fun _ h => Option.some.inj h ▸ rs1Of_encR .., nofun⟩
theorem addw (rd : RegIdx) (rs1 : RegIdx) (rs2 : RegIdx) : Statement (.addw rd rs1 rs2) :=
  ⟨fun _ h => Option.some.inj h ▸ rdOf_encR .., fun _ h => Option.some.inj h ▸ rs1Of_encR .., fun _ h => Option.some.inj h ▸ rs2Of_encR ..⟩
theorem subw (rd : RegIdx) (rs1 : RegIdx) (rs2 : RegIdx) : Statement (.subw rd rs1 rs2) :=
  ⟨fun _ h => Option.some.inj h ▸ rdOf_encR .., fun _ h => Option.some.inj h ▸ rs1Of_encR .., fun _ h => Option.some.inj h ▸ rs2Of_encR ..⟩
theorem sllw (rd : RegIdx) (rs1 : RegIdx) (rs2 : RegIdx) : Statement (.sllw rd rs1 rs2) :=
  ⟨fun _ h => Option.some.inj h ▸ rdOf_encR .., fun _ h => Option.some.inj h ▸ rs1Of_encR .., fun _ h => Option.some.inj h ▸ rs2Of_encR ..⟩
theorem srlw (rd : RegIdx) (rs1 : RegIdx) (rs2 : RegIdx) : Statement (.srlw rd rs1 rs2) :=
  ⟨fun _ h => Option.some.inj h ▸ rdOf_encR .., fun _ h => Option.some.inj h ▸ rs1Of_encR .., fun _ h => Option.some.inj h ▸ rs2Of_encR ..⟩
theorem sraw (rd : RegIdx) (rs1 : RegIdx) (rs2 : RegIdx) : Statement (.sraw rd rs1 rs2) :=
  ⟨fun _ h => Option.some.inj h ▸ rdOf_encR .., fun _ h => Option.some.inj h ▸ rs1Of_encR .., fun _ h => Option.some.inj h ▸ rs2Of_encR ..⟩
theorem lui (rd : RegIdx) (imm : BitVec 20) : Statement (.lui rd imm) :=
  ⟨fun _ h => Option.some.inj h ▸ rdOf_encU .., nofun, nofun⟩
theorem auipc (rd : RegIdx) (imm : BitVec 20) : Statement (.auipc rd imm) :=
  ⟨fun _ h => Option.some.inj h ▸ rdOf_encU .., nofun, nofun⟩
theorem lb (rd : RegIdx) (rs1 : RegIdx) (imm : BitVec 12) : Statement (.lb rd rs1 imm) :=
  ⟨fun _ h => Option.some.inj h ▸ rdOf_encI .., fun _ h => Option.some.inj h ▸ rs1Of_encI .., nofun⟩
theorem lh (rd : RegIdx) (rs1 : RegIdx) (imm : BitVec 12) : Statement (.lh rd rs1 imm) :=
  ⟨fun _ h => Option.some.inj h ▸ rdOf_encI .., fun _ h => Option.some.inj h ▸ rs1Of_encI .., nofun⟩
theorem lw (rd : RegIdx) (rs1 : RegIdx) (imm : BitVec 12) : Statement (.lw rd rs1 imm) :=
  ⟨fun _ h => Option.some.inj h ▸ rdOf_encI .., fun _ h => Option.some.inj h ▸ rs1Of_encI .., nofun⟩
theorem ld (rd : RegIdx) (rs1 : RegIdx) (imm : BitVec 12) : Statement (.ld rd rs1 imm) :=
  ⟨fun _ h => Option.some.inj h ▸ rdOf_encI .., fun _ h => Option.some.inj h ▸ rs1Of_encI .., nofun⟩
theorem lbu (rd : RegIdx) (rs1 : RegIdx) (imm : BitVec 12) : Statement (.lbu rd rs1 imm) :=
  ⟨fun _ h => Option.some.inj h ▸ rdOf_encI .., fun _ h => Option.some.inj h ▸ rs1Of_encI .., nofun⟩
theorem lhu (rd : RegIdx) (rs1 : RegIdx) (imm : BitVec 12) : Statement (.lhu rd rs1 imm) :=
  ⟨fun _ h => Option.some.inj h ▸ rdOf_encI .., fun _ h => Option.some.inj h ▸ rs1Of_encI .., nofun⟩
theorem lwu (rd : RegIdx) (rs1 : RegIdx) (imm : BitVec 12) : Statement (.lwu rd rs1 imm) :=
  ⟨fun _ h => Option.some.inj h ▸ rdOf_encI .., fun _ h => Option.some.inj h ▸ rs1Of_encI .., nofun⟩
theorem sb (rs1 : RegIdx) (rs2 : RegIdx) (imm : BitVec 12) : Statement (.sb rs1 rs2 imm) :=
  ⟨nofun, fun _ h => Option.some.inj h ▸ rs1Of_encS .., fun _ h => Option.some.inj h ▸ rs2Of_encS ..⟩
theorem sh (rs1 : RegIdx) (rs2 : RegIdx) (imm : BitVec 12) : Statement (.sh rs1 rs2 imm) :=
  ⟨nofun, fun _ h => Option.some.inj h ▸ rs1Of_encS .., fun _ h => Option.some.inj h ▸ rs2Of_encS ..⟩
theorem sw (rs1 : RegIdx) (rs2 : RegIdx) (imm : BitVec 12) : Statement (.sw rs1 rs2 imm) :=
  ⟨nofun, fun _ h => Option.some.inj h ▸ rs1Of_encS .., fun _ h => Option.some.inj h ▸ rs2Of_encS ..⟩
theorem sd (rs1 : RegIdx) (rs2 : RegIdx) (imm : BitVec 12) : Statement (.sd rs1 rs2 imm) :=
  ⟨nofun, fun _ h => Option.some.inj h ▸ rs1Of_encS .., fun _ h => Option.some.inj h ▸ rs2Of_encS ..⟩
theorem beq (rs1 : RegIdx) (rs2 : RegIdx) (off : BitVec 13) : Statement (.beq rs1 rs2 off) :=
  ⟨nofun, fun _ h => Option.some.inj h ▸ rs1Of_encB .., fun _ h => Option.some.inj h ▸ rs2Of_encB ..⟩
theorem bne (rs1 : RegIdx) (rs2 : RegIdx) (off : BitVec 13) : Statement (.bne rs1 rs2 off) :=
  ⟨nofun, fun _ h => Option.some.inj h ▸ rs1Of_encB .., fun _ h => Option.some.inj h ▸ rs2Of_encB ..⟩
theorem blt (rs1 : RegIdx) (rs2 : RegIdx) (off : BitVec 13) : Statement (.blt rs1 rs2 off) :=
  ⟨nofun, fun _ h => Option.some.inj h ▸ rs1Of_encB .., fun _ h => Option.some.inj h ▸ rs2Of_encB ..⟩
theorem bge (rs1 : RegIdx) (rs2 : RegIdx) (off : BitVec 13) : Statement (.bge rs1 rs2 off) :=
  ⟨nofun, fun _ h => Option.some.inj h ▸ rs1Of_encB .., fun _ h => Option.some.inj h ▸ rs2Of_encB ..⟩
theorem bltu (rs1 : RegIdx) (rs2 : RegIdx) (off : BitVec 13) : Statement (.bltu rs1 rs2 off) :=
  ⟨nofun, fun _ h => Option.some.inj h ▸ rs1Of_encB .., fun _ h => Option.some.inj h ▸ rs2Of_encB ..⟩
theorem bgeu (rs1 : RegIdx) (rs2 : RegIdx) (off : BitVec 13) : Statement (.bgeu rs1 rs2 off) :=
  ⟨nofun, fun _ h => Option.some.inj h ▸ rs1Of_encB .., fun _ h => Option.some.inj h ▸ rs2Of_encB ..⟩
theorem jal (rd : RegIdx) (off : BitVec 21) : Statement (.jal rd off) :=
  ⟨fun _ h => Option.some.inj h ▸ rdOf_encJ .., nofun, nofun⟩
theorem jalr (rd : RegIdx) (rs1 : RegIdx) (imm : BitVec 12) : Statement (.jalr rd rs1 imm) :=
  ⟨fun _ h => Option.some.inj h ▸ rdOf_encI .., fun _ h => Option.some.inj h ▸ rs1Of_encI .., nofun⟩
theorem halt : Statement (.halt) := ⟨nofun, nofun, nofun⟩
theorem nop : Statement (.nop) := ⟨nofun, nofun, nofun⟩

end EncodedFields

end Sys2Proof.Laws
end

