-- ==== Sys2Proof/Tests/Slice0.lean ====
section
/-! SUPPORT. Tests. Expected results are the spec's: the encodings of 30_encoding.md R73 and R86 written out field by
field, the worked examples of the families' rules, and the pipelined examples of 95_test_vectors.md. The last part gives, for
every statement of Certificates/Slice0/Obligations.lean that has hypotheses, a concrete state and operands that meet
them. -/

namespace Sys2Proof.Tests

open Sys2Proof.Machine

/-! ### WellFormed refuses what has no word -/

theorem test_illformed_addi_is_nop : ¬ (Instr.addi 0#5 0#5 0#12).WellFormed := by decide
theorem test_illformed_beq_odd_offset : ¬ (Instr.beq 1#5 2#5 3#13).WellFormed := by decide
theorem test_illformed_bne_odd_offset : ¬ (Instr.bne 1#5 2#5 3#13).WellFormed := by decide
theorem test_illformed_blt_odd_offset : ¬ (Instr.blt 1#5 2#5 3#13).WellFormed := by decide
theorem test_illformed_bge_odd_offset : ¬ (Instr.bge 1#5 2#5 3#13).WellFormed := by decide
theorem test_illformed_bltu_odd_offset : ¬ (Instr.bltu 1#5 2#5 3#13).WellFormed := by decide
theorem test_illformed_bgeu_odd_offset : ¬ (Instr.bgeu 1#5 2#5 3#13).WellFormed := by decide
theorem test_illformed_jal_odd_offset : ¬ (Instr.jal 1#5 5#21).WellFormed := by decide
theorem test_wellformed_addi : (Instr.addi 0#5 0#5 1#12).WellFormed ∧ (Instr.addi 0#5 1#5 0#12).WellFormed := by decide

/-! ### Decoding: every row's word, its fields written out (R73, R86) -/

theorem test_decode_register :
    decode 0b0000000_11010_01011_000_10101_0110011#32 = .ok (.add 21#5 11#5 26#5) ∧
    decode 0b0100000_11010_01011_000_10101_0110011#32 = .ok (.sub 21#5 11#5 26#5) ∧
    decode 0b0000000_11010_01011_001_10101_0110011#32 = .ok (.sll 21#5 11#5 26#5) ∧
    decode 0b0000000_11010_01011_010_10101_0110011#32 = .ok (.slt 21#5 11#5 26#5) ∧
    decode 0b0000000_11010_01011_011_10101_0110011#32 = .ok (.sltu 21#5 11#5 26#5) ∧
    decode 0b0000000_11010_01011_100_10101_0110011#32 = .ok (.xor 21#5 11#5 26#5) ∧
    decode 0b0000000_11010_01011_101_10101_0110011#32 = .ok (.srl 21#5 11#5 26#5) ∧
    decode 0b0100000_11010_01011_101_10101_0110011#32 = .ok (.sra 21#5 11#5 26#5) ∧
    decode 0b0000000_11010_01011_110_10101_0110011#32 = .ok (.or 21#5 11#5 26#5) ∧
    decode 0b0000000_11010_01011_111_10101_0110011#32 = .ok (.and 21#5 11#5 26#5) := by
  decide

theorem test_decode_immediate :
    decode 0b100000000101_01011_000_10101_0010011#32 = .ok (.addi 21#5 11#5 0x805#12) ∧
    decode 0b100000000101_01011_010_10101_0010011#32 = .ok (.slti 21#5 11#5 0x805#12) ∧
    decode 0b100000000101_01011_011_10101_0010011#32 = .ok (.sltiu 21#5 11#5 0x805#12) ∧
    decode 0b100000000101_01011_100_10101_0010011#32 = .ok (.xori 21#5 11#5 0x805#12) ∧
    decode 0b100000000101_01011_110_10101_0010011#32 = .ok (.ori 21#5 11#5 0x805#12) ∧
    decode 0b100000000101_01011_111_10101_0010011#32 = .ok (.andi 21#5 11#5 0x805#12) ∧
    decode 0b000000_100011_01011_001_10101_0010011#32 = .ok (.slli 21#5 11#5 35#6) ∧
    decode 0b000000_100011_01011_101_10101_0010011#32 = .ok (.srli 21#5 11#5 35#6) ∧
    decode 0b010000_100011_01011_101_10101_0010011#32 = .ok (.srai 21#5 11#5 35#6) := by
  decide

theorem test_decode_word :
    decode 0b100000000101_01011_000_10101_0011011#32 = .ok (.addiw 21#5 11#5 0x805#12) ∧
    decode 0b0000000_10011_01011_001_10101_0011011#32 = .ok (.slliw 21#5 11#5 19#5) ∧
    decode 0b0000000_10011_01011_101_10101_0011011#32 = .ok (.srliw 21#5 11#5 19#5) ∧
    decode 0b0100000_10011_01011_101_10101_0011011#32 = .ok (.sraiw 21#5 11#5 19#5) ∧
    decode 0b0000000_11010_01011_000_10101_0111011#32 = .ok (.addw 21#5 11#5 26#5) ∧
    decode 0b0100000_11010_01011_000_10101_0111011#32 = .ok (.subw 21#5 11#5 26#5) ∧
    decode 0b0000000_11010_01011_001_10101_0111011#32 = .ok (.sllw 21#5 11#5 26#5) ∧
    decode 0b0000000_11010_01011_101_10101_0111011#32 = .ok (.srlw 21#5 11#5 26#5) ∧
    decode 0b0100000_11010_01011_101_10101_0111011#32 = .ok (.sraw 21#5 11#5 26#5) := by
  decide

theorem test_decode_upper :
    decode 0b10000000000000000101_10101_0110111#32 = .ok (.lui 21#5 0x80005#20) ∧
    decode 0b10000000000000000101_10101_0010111#32 = .ok (.auipc 21#5 0x80005#20) := by
  decide

theorem test_decode_loads :
    decode 0b100000000101_01011_000_10101_0000011#32 = .ok (.lb 21#5 11#5 0x805#12) ∧
    decode 0b100000000101_01011_001_10101_0000011#32 = .ok (.lh 21#5 11#5 0x805#12) ∧
    decode 0b100000000101_01011_010_10101_0000011#32 = .ok (.lw 21#5 11#5 0x805#12) ∧
    decode 0b100000000101_01011_011_10101_0000011#32 = .ok (.ld 21#5 11#5 0x805#12) ∧
    decode 0b100000000101_01011_100_10101_0000011#32 = .ok (.lbu 21#5 11#5 0x805#12) ∧
    decode 0b100000000101_01011_101_10101_0000011#32 = .ok (.lhu 21#5 11#5 0x805#12) ∧
    decode 0b100000000101_01011_110_10101_0000011#32 = .ok (.lwu 21#5 11#5 0x805#12) := by
  decide

theorem test_decode_stores :
    decode 0b1000001_11010_01011_000_00101_0100011#32 = .ok (.sb 11#5 26#5 0x825#12) ∧
    decode 0b1000001_11010_01011_001_00101_0100011#32 = .ok (.sh 11#5 26#5 0x825#12) ∧
    decode 0b1000001_11010_01011_010_00101_0100011#32 = .ok (.sw 11#5 26#5 0x825#12) ∧
    decode 0b1000001_11010_01011_011_00101_0100011#32 = .ok (.sd 11#5 26#5 0x825#12) := by
  decide

theorem test_decode_branches :
    decode 0b1_000011_11010_01011_000_1001_0_1100011#32 = .ok (.beq 11#5 26#5 0b1000001110010#13) ∧
    decode 0b1_000011_11010_01011_001_1001_0_1100011#32 = .ok (.bne 11#5 26#5 0b1000001110010#13) ∧
    decode 0b1_000011_11010_01011_100_1001_0_1100011#32 = .ok (.blt 11#5 26#5 0b1000001110010#13) ∧
    decode 0b1_000011_11010_01011_101_1001_0_1100011#32 = .ok (.bge 11#5 26#5 0b1000001110010#13) ∧
    decode 0b1_000011_11010_01011_110_1001_0_1100011#32 = .ok (.bltu 11#5 26#5 0b1000001110010#13) ∧
    decode 0b1_000011_11010_01011_111_1001_0_1100011#32 = .ok (.bgeu 11#5 26#5 0b1000001110010#13) := by
  decide

theorem test_decode_jumps :
    decode 0b1_0000001001_1_00000011_10101_1101111#32 = .ok (.jal 21#5 0b100000011100000010010#21) ∧
    decode 0b100000000101_01011_000_10101_1100111#32 = .ok (.jalr 21#5 11#5 0x805#12) := by
  decide

theorem test_decode_sentinels :
    decode 0b1111111_01110_11011_111_11101_1101101#32 = .ok .halt ∧
    decode 0b000000000000_00000_000_00000_0010011#32 = .ok .nop := by decide

/-- R87, R115, R117, R120, R161: words that are no instruction. -/
theorem test_decode_illegal :
    operationOf 0x00000000#32 = none ∧ operationOf 0x00000073#32 = none ∧ operationOf 0x00100073#32 = none ∧
    operationOf 0x0000000F#32 = none ∧ operationOf 0x02208033#32 = none ∧ operationOf 0x00007003#32 = none ∧
    operationOf 0x04001013#32 = none ∧ operationOf 0x80005013#32 = none ∧ operationOf 0x0200101B#32 = none ∧
    operationOf 0x00002063#32 = none ∧ operationOf 0x00001067#32 = none ∧ operationOf 0x00004023#32 = none := by
  decide

theorem test_decode_table_word : decodeTableWord 32 0x002081B3 = some (.add 3#5 1#5 2#5) ∧ decodeTableWord 32 0 = none := by
  decide

/-! ### One step on small states -/

/-- A state at `pc` with x1 and x2, and with `b0` .. at 0x100 and up. -/
def st (pc x1 x2 : Word) (bytes : List Byte) : State :=
  { State.reset with
    pc := pc, regs := (State.reset.regs.set 1 x1).set 2 x2, mem := Memory.putBytes [] 0x100 bytes }

/-- A register after a step. -/
def reg (r : StepResult) (i : RegIdx) : Option Word :=
  match r with
  | .next t => some (t.readReg i)
  | .fault _ => none
  | .refused _ => none

/-- The pc after a step. -/
def pcOf (r : StepResult) : Option Word :=
  match r with
  | .next t => some t.pc
  | .fault _ => none
  | .refused _ => none

/-- Bytes after a step. -/
def bytesAt (r : StepResult) (a n : Nat) : Option (List Byte) :=
  match r with
  | .next t => some ((List.range n).map (fun k => t.readByte (a + k)))
  | .fault _ => none
  | .refused _ => none

/-- The status after a step. -/
def statusOf (r : StepResult) : Option RunStatus :=
  match r with
  | .next t => some t.status
  | .fault _ => none
  | .refused _ => none

theorem test_exec_add : reg (exec (.add 3#5 1#5 2#5) (st 0 0x7FFFFFFFFFFFFFFF#64 1#64 [])) 3#5 = some 0x8000000000000000#64 := by
  decide
theorem test_exec_sub : reg (exec (.sub 3#5 1#5 2#5) (st 0 5#64 7#64 [])) 3#5 = some 0xFFFFFFFFFFFFFFFE#64 := by
  decide
theorem test_exec_sll : reg (exec (.sll 3#5 1#5 2#5) (st 0 1#64 65#64 [])) 3#5 = some 2#64 := by
  decide
theorem test_exec_slt : reg (exec (.slt 3#5 1#5 2#5) (st 0 0xFFFFFFFFFFFFFFFF#64 0#64 [])) 3#5 = some 1#64 := by
  decide
theorem test_exec_sltu : reg (exec (.sltu 3#5 1#5 2#5) (st 0 0xFFFFFFFFFFFFFFFF#64 0#64 [])) 3#5 = some 0#64 := by
  decide
theorem test_exec_xor : reg (exec (.xor 3#5 1#5 2#5) (st 0 0xF0F0#64 0x0FF0#64 [])) 3#5 = some 0xFF00#64 := by
  decide
theorem test_exec_srl : reg (exec (.srl 3#5 1#5 2#5) (st 0 0x8000000000000000#64 63#64 [])) 3#5 = some 1#64 := by
  decide
theorem test_exec_sra : reg (exec (.sra 3#5 1#5 2#5) (st 0 0x8000000000000000#64 4#64 [])) 3#5 = some 0xF800000000000000#64 := by
  decide
theorem test_exec_or : reg (exec (.or 3#5 1#5 2#5) (st 0 0xF0F0#64 0x0FF0#64 [])) 3#5 = some 0xFFF0#64 := by
  decide
theorem test_exec_and : reg (exec (.and 3#5 1#5 2#5) (st 0 0xF0F0#64 0x0FF0#64 [])) 3#5 = some 0x00F0#64 := by
  decide
theorem test_exec_addi : reg (exec (.addi 3#5 1#5 0xFFF#12) (st 0 0#64 0 [])) 3#5 = some 0xFFFFFFFFFFFFFFFF#64 := by
  decide
theorem test_exec_slti : reg (exec (.slti 3#5 1#5 0xFFC#12) (st 0 0xFFFFFFFFFFFFFFFB#64 0 [])) 3#5 = some 1#64 := by
  decide
theorem test_exec_sltiu : reg (exec (.sltiu 3#5 1#5 0xFFF#12) (st 0 5#64 0 [])) 3#5 = some 1#64 := by
  decide
theorem test_exec_xori : reg (exec (.xori 3#5 1#5 0xFFF#12) (st 0 0#64 0 [])) 3#5 = some 0xFFFFFFFFFFFFFFFF#64 := by
  decide
theorem test_exec_ori : reg (exec (.ori 3#5 1#5 0x0F#12) (st 0 0x100#64 0 [])) 3#5 = some 0x10F#64 := by
  decide
theorem test_exec_andi : reg (exec (.andi 3#5 1#5 0xFF#12) (st 0 0x1234#64 0 [])) 3#5 = some 0x34#64 := by
  decide
theorem test_exec_slli : reg (exec (.slli 3#5 1#5 40#6) (st 0 1#64 0 [])) 3#5 = some 0x0000010000000000#64 := by
  decide
theorem test_exec_srli : reg (exec (.srli 3#5 1#5 60#6) (st 0 0xFFFFFFFFFFFFFFFF#64 0 [])) 3#5 = some 0xF#64 := by
  decide
theorem test_exec_srai : reg (exec (.srai 3#5 1#5 4#6) (st 0 0xFFFFFFFFFFFFFF00#64 0 [])) 3#5 = some 0xFFFFFFFFFFFFFFF0#64 := by
  decide
theorem test_exec_addiw : reg (exec (.addiw 3#5 1#5 1#12) (st 0 0x00000001FFFFFFFF#64 0 [])) 3#5 = some 0#64 := by
  decide
theorem test_exec_slliw : reg (exec (.slliw 3#5 1#5 31#5) (st 0 1#64 0 [])) 3#5 = some 0xFFFFFFFF80000000#64 := by
  decide
theorem test_exec_srliw : reg (exec (.srliw 3#5 1#5 0#5) (st 0 0x80000000#64 0 [])) 3#5 = some 0xFFFFFFFF80000000#64 := by
  decide
theorem test_exec_sraiw : reg (exec (.sraiw 3#5 1#5 4#5) (st 0 0x80000000#64 0 [])) 3#5 = some 0xFFFFFFFFF8000000#64 := by
  decide
theorem test_exec_addw : reg (exec (.addw 3#5 1#5 2#5) (st 0 0x7FFFFFFF#64 1#64 [])) 3#5 = some 0xFFFFFFFF80000000#64 := by
  decide
theorem test_exec_subw : reg (exec (.subw 3#5 1#5 2#5) (st 0 5#64 7#64 [])) 3#5 = some 0xFFFFFFFFFFFFFFFE#64 := by
  decide
theorem test_exec_sllw : reg (exec (.sllw 3#5 1#5 2#5) (st 0 1#64 32#64 [])) 3#5 = some 1#64 := by
  decide
theorem test_exec_srlw : reg (exec (.srlw 3#5 1#5 2#5) (st 0 0xFFFFFFFF80000000#64 0#64 [])) 3#5 = some 0xFFFFFFFF80000000#64 := by
  decide
theorem test_exec_sraw : reg (exec (.sraw 3#5 1#5 2#5) (st 0 0x80000000#64 33#64 [])) 3#5 = some 0xFFFFFFFFC0000000#64 := by
  decide
theorem test_exec_lui : reg (exec (.lui 1#5 0x80000#20) (st 0 0 0 [])) 1#5 = some 0xFFFFFFFF80000000#64 := by
  decide
theorem test_exec_auipc : reg (exec (.auipc 6#5 1#20) (st 0x1000 0 0 [])) 6#5 = some 0x2000#64 := by
  decide
theorem test_exec_lb : reg (exec (.lb 1#5 1#5 0xFFF#12) (st 0 0x101 0 [0xF0#8])) 1#5 = some 0xFFFFFFFFFFFFFFF0#64 := by
  decide
theorem test_exec_lh : reg (exec (.lh 1#5 1#5 0xFFF#12) (st 0 0x101 0 [0x34#8, 0x92#8])) 1#5 = some 0xFFFFFFFFFFFF9234#64 := by
  decide
theorem test_exec_lw : reg (exec (.lw 1#5 1#5 0xFFF#12) (st 0 0x101 0 [0#8, 0#8, 0#8, 0x80#8])) 1#5 = some 0xFFFFFFFF80000000#64 := by
  decide
theorem test_exec_ld : reg (exec (.ld 1#5 1#5 0xFFF#12) (st 0 0x101 0 [1#8, 2#8, 3#8, 4#8, 5#8, 6#8, 7#8, 8#8])) 1#5 = some 0x0807060504030201#64 := by
  decide
theorem test_exec_lbu : reg (exec (.lbu 1#5 1#5 0xFFF#12) (st 0 0x101 0 [0xF0#8])) 1#5 = some 0xF0#64 := by
  decide
theorem test_exec_lhu : reg (exec (.lhu 1#5 1#5 0xFFF#12) (st 0 0x101 0 [0x34#8, 0x92#8])) 1#5 = some 0x9234#64 := by
  decide
theorem test_exec_lwu : reg (exec (.lwu 1#5 1#5 0xFFF#12) (st 0 0x101 0 [0#8, 0#8, 0#8, 0x80#8])) 1#5 = some 0x80000000#64 := by
  decide
theorem test_exec_sb : bytesAt (exec (.sb 1#5 2#5 0xFFC#12) (st 0 0x104 0x1234#64 (List.replicate 9 0xEE#8))) 0xFF 10 =
      some [0#8, 0x34#8, 0xEE#8, 0xEE#8, 0xEE#8, 0xEE#8, 0xEE#8, 0xEE#8, 0xEE#8, 0xEE#8] := by
  decide
theorem test_exec_sh : bytesAt (exec (.sh 1#5 2#5 0xFFC#12) (st 0 0x104 0xABCD#64 (List.replicate 9 0xEE#8))) 0xFF 10 =
      some [0#8, 0xCD#8, 0xAB#8, 0xEE#8, 0xEE#8, 0xEE#8, 0xEE#8, 0xEE#8, 0xEE#8, 0xEE#8] := by
  decide
theorem test_exec_sw : bytesAt (exec (.sw 1#5 2#5 0xFFC#12) (st 0 0x104 0x12345678#64 (List.replicate 9 0xEE#8))) 0xFF 10 =
      some [0#8, 0x78#8, 0x56#8, 0x34#8, 0x12#8, 0xEE#8, 0xEE#8, 0xEE#8, 0xEE#8, 0xEE#8] := by
  decide
theorem test_exec_sd : bytesAt (exec (.sd 1#5 2#5 0xFFC#12) (st 0 0x104 0x0807060504030201#64 (List.replicate 9 0xEE#8))) 0xFF 10 =
      some [0#8, 1#8, 2#8, 3#8, 4#8, 5#8, 6#8, 7#8, 8#8, 0xEE#8] := by
  decide
theorem test_exec_beq : pcOf (exec (.beq 1#5 2#5 0x1FF0#13) (st 0x10 3#64 3#64 [])) = some 0#64 := by
  decide
theorem test_exec_bne : pcOf (exec (.bne 1#5 2#5 0x1FF0#13) (st 0x10 1#64 1#64 [])) = some 0x14#64 := by
  decide
theorem test_exec_blt : pcOf (exec (.blt 1#5 2#5 0x1FF0#13) (st 0x10 0xFFFFFFFFFFFFFFFF#64 0#64 [])) = some 0#64 := by
  decide
theorem test_exec_bge : pcOf (exec (.bge 1#5 2#5 0x1FF0#13) (st 0x10 0xFFFFFFFFFFFFFFFF#64 0#64 [])) = some 0x14#64 := by
  decide
theorem test_exec_bltu : pcOf (exec (.bltu 1#5 2#5 0x1FF0#13) (st 0x10 0xFFFFFFFFFFFFFFFF#64 0#64 [])) = some 0x14#64 := by
  decide
theorem test_exec_bgeu : pcOf (exec (.bgeu 1#5 2#5 0x1FF0#13) (st 0x10 0xFFFFFFFFFFFFFFFF#64 0#64 [])) = some 0#64 := by
  decide
theorem test_exec_jal : pcOf (exec (.jal 1#5 0x20#21) (st 0x100 0 0 [])) = some 0x120#64 ∧
    reg (exec (.jal 1#5 0x20#21) (st 0x100 0 0 [])) 1#5 = some 0x104#64 := by
  decide
theorem test_exec_jalr : pcOf (exec (.jalr 1#5 1#5 4#12) (st 0x100 0x201 0 [])) = some 0x204#64 ∧
    reg (exec (.jalr 1#5 1#5 4#12) (st 0x100 0x201 0 [])) 1#5 = some 0x104#64 := by
  decide
theorem test_exec_halt : pcOf (exec .halt (st 8 0 0 [])) = some 8#64 ∧ statusOf (exec .halt (st 8 0 0 [])) = some .halt := by
  decide
theorem test_exec_nop : pcOf (exec .nop (st 8 0 0 [])) = some 0xC#64 := by
  decide

/-- R144: with MEM_SIZE = 0x10000, `sd` at 0xFFF8 is in range and at 0xFFF9 is not. -/
theorem test_store_range :
    statusOf (exec (.sd 1#5 2#5 0#12) (st 0 0xFFF8 1 [])) = some .running ∧
    statusOf (exec (.sd 1#5 2#5 0#12) (st 0 0xFFF9 1 [])) = some .illegal ∧
    bytesAt (exec (.sd 1#5 2#5 0#12) (st 0 0xFFF9 1 [])) 0xFFF9 1 = some [0#8] := by
  decide

/-- R131: a load that wraps past 2^64 is out of range. -/
theorem test_load_wraps : statusOf (exec (.lw 3#5 1#5 0#12) (st 0 0xFFFFFFFFFFFFFFFE 0 [])) = some .illegal := by
  decide

/-- A step runs the word placed where the next step fetches. -/
theorem test_step_runs_placed_word :
    reg (step (State.reset.withFetchWord 32 0x00500093)) 1#5 = some 5#64 := by
  decide


/-! ### Witnesses: states and operands that meet the hypotheses of the statements -/

theorem witness_ImmediateShiftResults : 0b000001#6 ≠ 0b000000#6 ∧ 0b100000#6 ≠ 0b000000#6 ∧ 0b100000#6 ≠ 0b010000#6 := by
  decide

theorem witness_WordImmediateShiftResults :
    0b0000001#7 ≠ 0b0000000#7 ∧ 0b0100001#7 ≠ 0b0000000#7 ∧ 0b0100001#7 ≠ 0b0100000#7 := by
  decide

/-- `sw x2, 4(x1)`: the address its form gives, and a byte just outside the stored ones at either end. -/
theorem witness_ExecFrame :
    addressOf (.sw 1#5 2#5 4#12) (collect (flagsOf (some (.sw 1#5 2#5 4#12))).readsRs1 (fieldsOf (.sw 1#5 2#5 4#12)).rs1
      (st 0 0x100 5 [])) = some 0x104#64 ∧
    (0x103 < (0x104#64).toNat ∧ (0x104#64).toNat + widthOf (.sw 1#5 2#5 4#12) ≤ 0x108) ∧
    (flagsOf (some (.sw 1#5 2#5 4#12))).writesMem = true ∧ (flagsOf (some (.add 1#5 2#5 3#5))).writesMem = false := by
  decide

/-- The last address of each width that is in range, and the next one. -/
theorem witness_SignedLoadResults :
    ∀ p ∈ [(1, 0xFFFF#64), (2, 0xFFFE#64), (4, 0xFFFC#64), (8, 0xFFF8#64)],
      (loadAddress ((st 0 p.2 0 []).readReg 1#5) 0#12).toNat + p.1 ≤ (st 0 p.2 0 []).memSize ∧
      (st 0 p.2 0 []).memSize < (loadAddress ((st 0 p.2 0 []).readReg 1#5) 1#12).toNat + p.1 := by
  decide

theorem witness_UnsignedLoadResults :
    ∀ p ∈ [(1, 0xFFFF#64), (2, 0xFFFE#64), (4, 0xFFFC#64)],
      (loadAddress ((st 0 p.2 0 []).readReg 1#5) 0#12).toNat + p.1 ≤ (st 0 p.2 0 []).memSize ∧
      (st 0 p.2 0 []).memSize < (loadAddress ((st 0 p.2 0 []).readReg 1#5) 1#12).toNat + p.1 := by
  decide

theorem witness_StoreResults :
    ∀ p ∈ [(1, 0xFFFF#64), (2, 0xFFFE#64), (4, 0xFFFC#64), (8, 0xFFF8#64)],
      Memory.wf (st 0 p.2 5 [1#8]).mem = true ∧
      (storeAddress ((st 0 p.2 5 [1#8]).readReg 1#5) 0#12).toNat + p.1 ≤ (st 0 p.2 5 [1#8]).memSize ∧
      (st 0 p.2 5 [1#8]).memSize < (storeAddress ((st 0 p.2 5 [1#8]).readReg 1#5) 1#12).toNat + p.1 := by
  decide

theorem witness_BranchResults : (0x1FF0#13).getLsbD 0 = false := by decide

theorem witness_JumpResults : (0x20#21).getLsbD 0 = false := by decide

theorem witness_NopResult : (fetchedRecord 0#64 0x00000013#32 0).flags = flagsOf (some .nop) := by decide

/-- A read or write of 8 bytes at 0xFFF8 is the last in range. -/
theorem witness_MemoryAccessBytes :
    8 ∈ [1, 2, 4, 8] ∧ Memory.wf (st 0 0 0 [7#8]).mem = true ∧ (0xFFF8#64).toNat + 8 ≤ (st 0 0 0 [7#8]).memSize ∧
    (st 0 0 0 [7#8]).memSize < (0xFFF9#64).toNat + 8 := by
  decide

theorem witness_StoreLoadRoundTrip :
    ∃ t, (st 0 0 0 [7#8]).memWrite 0x100#64 4 0x12345678#64 = .ok t ∧ Memory.wf (st 0 0 0 [7#8]).mem = true ∧
      t.memSize = (st 0 0 0 [7#8]).memSize :=
  ⟨_, rfl, by decide, rfl⟩

theorem witness_DecodeEncodeRoundTrip : (Instr.beq 1#5 2#5 8#13).WellFormed := by decide

theorem witness_EncodeDecodeRoundTrip : decode 0x00208463#32 = .ok (.beq 1#5 2#5 8#13) := by decide

theorem witness_DecodeMatchesTable :
    (⟨"ADD", 0xFE00707F#32, 0x00000033#32⟩ : TableRow) ∈ legalRows ∧
    TableRow.covers ⟨"ADD", 0xFE00707F#32, 0x00000033#32⟩ 0x002081B3#32 = true ∧
    decode 0x002081B3#32 = .ok (.add 3#5 1#5 2#5) := by
  decide

theorem witness_SentinelWords : opcodeOf 0xFEEDFEED#32 = 0x6D#7 ∧ decode 0xFEEDFEED#32 = .ok .halt := by decide

/-- `addi x1, x0, 5` at address 0. -/
def runnable : State := State.reset.withFetchWord 32 0x00500093

theorem witness_StepRunsDecodedInstruction :
    runnable.status = .running ∧ runnable.mode ≠ some .pipelined ∧ runnable.configLegal = true ∧
    runnable.pc.toNat + 4 ≤ runnable.memSize ∧
    decodeBytes [runnable.readByte 0, runnable.readByte 1, runnable.readByte 2, runnable.readByte 3] =
      .ok (.addi 1#5 0#5 5#12, []) ∧
    { runnable with mode := some .pipelined }.configLegal = true := by
  decide

theorem not_decoded {w : InstrWord} (h : operationOf w = none) (i : Instr) : decode w ≠ .ok i := by
  intro e; simp [operationOf, e] at h

theorem witness_FunctionalStops :
    ({ State.reset with pc := 0xFFFD#64 }).memSize < ({ State.reset with pc := 0xFFFD#64 }).pc.toNat + 4 ∧
    (State.reset.fetchWord 0#64 = .ok 0#32 ∧ ∀ i, decode 0#32 ≠ .ok i) ∧
    ({ State.reset with status := .halt }).status ≠ .running :=
  ⟨by decide, ⟨by rfl, not_decoded (by decide)⟩, by decide⟩

theorem witness_ZeroRegister :
    (fetchedRecord 0#64 0x00000033#32 0).rs1 = 0#5 ∧ (fetchedRecord 0#64 0x00000033#32 0).rs2 = 0#5 := by
  decide

/-- An image that ends at the last byte, and one that is one byte too long. -/
theorem witness_ResetValues :
    (0xFFFE#64).toNat + [1#8, 2#8].length ≤ State.reset.memSize ∧
    State.reset.memSize < (0xFFFF#64).toNat + [1#8, 2#8].length := by
  decide

theorem witness_LoadImageWrites :
    Memory.wf State.reset.mem = true ∧ (0xFFFE#64).toNat + [1#8, 2#8].length ≤ State.reset.memSize ∧
    [1#8, 2#8] ≠ [] ∧ State.reset.memSize < (0xFFFF#64).toNat + [1#8, 2#8].length := by
  decide

theorem witness_RunRefusals :
    ({ State.reset with ic := ⟨48, 16, 1, 1⟩ }).configLegal = false ∧ State.reset.configLegal = true ∧
    ({ State.reset with mode := some .functional }).configLegal = true ∧
    ({ State.reset with mode := some .pipelined }).configLegal = true := by
  decide

/-- In ID an `add x3, x1, x2`, in EX the given word, both live. -/
def pair (ex id : InstrWord) : State :=
  { State.reset with
    mode := some .pipelined
    slotEX := .full .normal (fetchedRecord 0x100#64 ex 0), slotID := .full .normal (fetchedRecord 0x104#64 id 1)
    nextDynId := 2 }

/-- With nothing live in MEM and no freeze pending, the edge of a running machine is plain. -/
theorem plain_of_idle {s : State} (h1 : s.status = .running) (h2 : s.dStall = 0) (h3 : s.slotMEM.live? = none) :
    PlainEdge s :=
  ⟨h1, h2, fun m h => by rw [h3] at h; cases h⟩

theorem pair_plain (ex id : InstrWord) : PlainEdge (pair ex id) := plain_of_idle rfl rfl rfl

theorem witness_BudgetedRunsResume :
    (∃ t, runCycles 2 (pair 0x00000013#32 0x00000013#32) = .next t) ∧ (∃ t, runInstructions 1 runnable = .next t) ∧
    (pair 0x00000013#32 0x00000013#32).configLegal = true :=
  ⟨⟨_, rfl⟩, ⟨_, rfl⟩, by decide⟩

theorem witness_ConfigurationConstant : ∃ t, step runnable = .next t := ⟨_, rfl⟩

theorem witness_StepIsTotal :
    State.reset.configLegal = true ∧ ({ State.reset with dc := ⟨64, 16, 8, 1⟩ }).configLegal = false := by
  decide

/-- A cold set, a full set without the tag, and a set with it. -/
theorem witness_CacheAccessLru :
    cacheLegal ⟨64, 16, 2, 3⟩ = true ∧ sparseWf [] Cache.empty.sets = true ∧
    cacheTag ⟨64, 16, 2, 3⟩ 0x40#64 ∉ Cache.empty.set 0 ∧ (Cache.empty.set 0).length ≠ 2 ∧
    sparseWf [] [(0, [5, 7])] = true ∧ cacheIndex ⟨64, 16, 2, 3⟩ 0x40#64 = 0 ∧
    cacheTag ⟨64, 16, 2, 3⟩ 0x40#64 ∉ (Cache.mk [(0, [5, 7])] 0 2).set 0 ∧
    ((Cache.mk [(0, [5, 7])] 0 2).set 0).length = 2 ∧
    cacheTag ⟨64, 16, 2, 3⟩ 0xA0#64 ∈ (Cache.mk [(0, [5, 7])] 0 2).set 0 := by
  decide

theorem witness_CacheHoldsMostRecent : cacheLegal ⟨64, 16, 2, 3⟩ = true := by decide

theorem witness_CacheGeometry :
    cacheLegal ⟨64, 16, 2, 3⟩ = true ∧ cacheLegal ⟨64, 16, 4, 0⟩ = true ∧ setCount ⟨64, 16, 4, 0⟩ = 1 := by
  decide

theorem witness_FreezeEdges :
    ({ State.reset with dStall := 3 }).status = .running ∧ 3 ≤ ({ State.reset with dStall := 3 }).dStall := by
  decide

/-- A live MEM occupant, its access failed or not. -/
def inMem (fault : Bool) : State :=
  { State.reset with
    mode := some .pipelined
    slotMEM := .full .normal { fetchedRecord 0x100#64 0x00002083#32 0 with memFault := fault }, nextDynId := 1 }

theorem witness_WriteBackEdge :
    (inMem true).status = .running ∧ (inMem true).dStall = 0 ∧
    (∃ m, (inMem true).slotMEM.live? = some m ∧ m.memFault = true) ∧
    (∃ m, (inMem false).slotMEM.live? = some m ∧ m.memFault = false) ∧ State.reset.slotMEM.live? = none ∧
    ({ State.reset with status := .halt }).status ≠ .running :=
  ⟨rfl, rfl, ⟨_, rfl, rfl⟩, ⟨_, rfl, rfl⟩, rfl, by decide⟩

/-- A live load or store in EX with its address filled in. -/
def accessing (w : InstrWord) (a : Word) : State :=
  { State.reset with slotEX := .full .normal { fetchedRecord 0x100#64 w 0 with memAddress := a }, nextDynId := 1 }

/-- `lw x1, 0(x0)` and `sw x1, 0(x0)`, at the last address in range and the next. -/
theorem witness_MemoryStageEdge :
    PlainEdge State.reset ∧ PlainEdge (accessing 0x00002083#32 0xFFFC#64) ∧
    (∃ e, (accessing 0x00002083#32 0xFFFC#64).slotEX.live? = some e ∧ e.op = some (.lw 1#5 0#5 0#12) ∧
      e.flags = flagsOf e.op ∧ e.flags.readsMem = true ∧ e.memAddress.toNat + 4 ≤ 0x10000) ∧
    PlainEdge (accessing 0x00102023#32 0xFFFD#64) ∧
    ∃ e, (accessing 0x00102023#32 0xFFFD#64).slotEX.live? = some e ∧ e.op = some (.sw 0#5 1#5 0#12) ∧
      e.flags = flagsOf e.op ∧ e.flags.writesMem = true ∧ 0x10000 < e.memAddress.toNat + 4 :=
  ⟨plain_of_idle rfl rfl rfl, plain_of_idle rfl rfl rfl, ⟨_, rfl, by rfl, by rfl, by rfl, by decide⟩, plain_of_idle rfl rfl rfl,
    _, rfl, by rfl, by rfl, by rfl, by decide⟩

/-- `lw x1, 0(x0)` in EX, `add x3, x1, x2` in ID. -/
theorem witness_LoadUseStallEdge :
    PlainEdge (pair 0x00002083#32 0x002081B3#32) ∧
    ∃ d e, (pair 0x00002083#32 0x002081B3#32).slotID.live? = some d ∧
      (pair 0x00002083#32 0x002081B3#32).slotEX.live? = some e ∧ e.flags = flagsOf e.op ∧ d.flags.legal = true ∧
      d.flags.halt = false ∧ d.isControl = false ∧
      loadUseHazard d (pair 0x00002083#32 0x002081B3#32).slotEX = true :=
  ⟨pair_plain .., _, _, rfl, rfl, by rfl, by rfl, by rfl, by rfl, by rfl⟩

/-- `addi x1, x0, 5` in EX, `beq x1, x2, 8` in ID. -/
theorem witness_ControlStallEdge :
    PlainEdge (pair 0x00500093#32 0x00208463#32) ∧
    ∃ d, (pair 0x00500093#32 0x00208463#32).slotID.live? = some d ∧ d.flags.legal = true ∧ d.flags.halt = false ∧
      d.isControl = true ∧
      controlHazard d (pair 0x00500093#32 0x00208463#32).slotEX (pair 0x00500093#32 0x00208463#32).slotMEM = true :=
  ⟨pair_plain .., _, rfl, by rfl, by rfl, by rfl, by rfl⟩

/-- `jal x1, 0x20`, which redirects, and `bne x0, x0, 8`, which does not, behind a NOP. -/
theorem witness_RedirectEdge :
    (∃ d, (pair 0x00000013#32 0x020000EF#32).slotID.live? = some d ∧ RecordInv d ∧ d.op = some (.jal 1#5 0x20#21) ∧
      controlHazard d (pair 0x00000013#32 0x020000EF#32).slotEX .idle = false ∧
      nextPcOf (.jal 1#5 0x20#21) d.pc 0#64 0#64 ≠ d.pc + 4#64) ∧
    (∃ d, (pair 0x00000013#32 0x00001463#32).slotID.live? = some d ∧ RecordInv d ∧ d.op = some (.bne 0#5 0#5 8#13) ∧
      controlHazard d (pair 0x00000013#32 0x00001463#32).slotEX .idle = false ∧
      nextPcOf (.bne 0#5 0#5 8#13) d.pc 0#64 0#64 = d.pc + 4#64) ∧
    (pair 0x00000013#32 0x00001463#32).iStall = 0 ∧ (pair 0x00000013#32 0x00001463#32).fetchStopped = false ∧
    (pair 0x00000013#32 0x00001463#32).slotIF.live? = none :=
  ⟨⟨_, rfl, ⟨rfl, rfl, rfl, rfl⟩, by rfl, by rfl, by decide⟩, ⟨_, rfl, ⟨rfl, rfl, rfl, rfl⟩, by rfl, by rfl, by decide⟩,
    rfl, rfl, rfl⟩

/-- Behind a NOP, and behind `sw x1, 0(x0)`. -/
theorem witness_IllegalInDecodeEdge :
    (PlainEdge (pair 0x00000013#32 0x00000000#32) ∧
      (∃ d, (pair 0x00000013#32 0x00000000#32).slotID.live? = some d ∧ d.flags.legal = false) ∧
      ∀ e, (pair 0x00000013#32 0x00000000#32).slotEX.live? = some e → e.flags = flagsOf e.op ∧ e.flags.writesMem = false) ∧
    PlainEdge (pair 0x00102023#32 0x00000000#32) ∧
    (∃ d, (pair 0x00102023#32 0x00000000#32).slotID.live? = some d ∧ d.flags.legal = false) ∧
    ∃ e, (pair 0x00102023#32 0x00000000#32).slotEX.live? = some e ∧ e.op = some (.sw 0#5 1#5 0#12) ∧ e.flags = flagsOf e.op :=
  ⟨⟨pair_plain .., ⟨_, rfl, by rfl⟩, fun e he => by cases he; exact ⟨rfl, by rfl⟩⟩, pair_plain .., ⟨_, rfl, by rfl⟩,
    _, rfl, by rfl, rfl⟩

theorem witness_MemoryRangeEdge :
    (inMem true).status = .running ∧ (inMem true).dStall = 0 ∧
    ∃ m, (inMem true).slotMEM.live? = some m ∧ m.memFault = true :=
  ⟨rfl, rfl, _, rfl, rfl⟩

/-- A record `e` live in EX, a record `d` squashed in ID behind it, fetching stopped. -/
def haltingWith (e d : Record) : State :=
  { State.reset with
    mode := some .pipelined, slotEX := .full .normal e, slotID := .full .squashed d, slotIF := .bubble
    fetchStopped := true, nextDynId := 2 }

/-- A halt that has left ID: it is live in EX, the record behind it squashed in ID, fetching stopped. -/
def halting : State :=
  haltingWith (fetchedRecord 0x100#64 0xFEEDFEED#32 0) (fetchedRecord 0x104#64 0x002081B3#32 1)

theorem halting_cold (c : CacheConfig) : CacheInv c Cache.empty :=
  ⟨by decide, fun _ _ => rfl, fun _ => Nat.zero_le _, fun _ => List.nodup_nil⟩

theorem haltingWith_slots (e d : Record) :
    slotsOf (haltingWith e d) = [.bubble, .full .squashed d, .full .normal e, .idle, .idle] := rfl

theorem haltingWith_inv {e d : Record} (he : RecordInv e) (hd : RecordInv d) (hl : e.flags.legal = true)
    (hh : e.flags.halt = true) (hm : e.memFault = false) (h0 : e.dynId = 0) (h1 : d.dynId = 1) : Inv (haltingWith e d) where
  memory := rfl
  memoryRange _ _ := rfl
  zero := rfl
  icache := halting_cold _
  dcache := halting_cold _
  records sl h r hr := by
    rw [haltingWith_slots] at h
    simp only [List.mem_cons, List.not_mem_nil, or_false] at h
    rcases h with rfl | rfl | rfl | rfl | rfl <;> cases hr <;> assumption
  ids := by
    rw [haltingWith_slots]
    show List.Pairwise _ [d, e]
    simp [h0, h1]
  nextId sl h r hr := by
    rw [haltingWith_slots] at h
    simp only [List.mem_cons, List.not_mem_nil, or_false] at h
    change _ < 2
    rcases h with rfl | rfl | rfl | rfl | rfl <;> cases hr <;> omega
  fetches := Nat.zero_le _
  speculative sl h r := by
    rw [show [(haltingWith e d).slotID, (haltingWith e d).slotEX, (haltingWith e d).slotMEM, (haltingWith e d).slotWB] =
      [.full .squashed d, .full .normal e, .idle, .idle] from rfl] at h
    simp only [List.mem_cons, List.not_mem_nil, or_false] at h
    rcases h with rfl | rfl | rfl | rfl <;> exact nofun
  legal sl h r hr := by
    rw [show [(haltingWith e d).slotEX, (haltingWith e d).slotMEM, (haltingWith e d).slotWB] =
      [.full .normal e, .idle, .idle] from rfl] at h
    simp only [List.mem_cons, List.not_mem_nil, or_false] at h
    rcases h with rfl | rfl | rfl <;> cases hr
    exact hl
  memFault sl h r hr := by
    rw [show [(haltingWith e d).slotIF, (haltingWith e d).slotID, (haltingWith e d).slotEX, (haltingWith e d).slotWB] =
      [.bubble, .full .squashed d, .full .normal e, .idle] from rfl] at h
    simp only [List.mem_cons, List.not_mem_nil, or_false] at h
    rcases h with rfl | rfl | rfl | rfl <;> cases hr
    exact hm
  memFaultNoFreeze _ h := nomatch h
  memFaultAccess _ h := nomatch h
  iStallBound := Nat.zero_le _
  dStallBound := Nat.zero_le _
  freeze h := absurd h (Nat.lt_irrefl 0)
  haltEX _ := rfl
  haltMEM := fun ⟨_, h, _⟩ => nomatch h
  haltWB := fun ⟨_, h, _⟩ => nomatch h
  fetchStopped _ := ⟨rfl, rfl, rfl⟩
  stopCause _ := .inl ⟨e, rfl, hh⟩
  endStatus _ := ⟨nofun, nofun⟩
  unused h := absurd rfl h
  unstarted h := nomatch h

theorem halting_inv : Inv halting :=
  haltingWith_inv ⟨rfl, rfl, rfl, rfl⟩ ⟨rfl, rfl, rfl, rfl⟩ (by rfl) (by rfl) rfl rfl rfl

theorem witness_HaltInDecodeEdge :
    (PlainEdge (pair 0x00000013#32 0xFEEDFEED#32) ∧
      ∃ d, (pair 0x00000013#32 0xFEEDFEED#32).slotID.live? = some d ∧ d.flags.legal = true ∧ d.flags.halt = true) ∧
    Inv halting ∧ PlainEdge halting ∧ halting.fetchStopped = true :=
  ⟨⟨pair_plain .., _, rfl, by rfl, by rfl⟩, halting_inv, plain_of_idle rfl rfl rfl, rfl⟩

theorem witness_SquashedStaysSquashed :
    Inv halting ∧ halting.mode = some .pipelined ∧ halting.configLegal = true ∧
    (∃ r r' sl', .full .squashed r ∈ slotsOf halting ∧ sl' ∈ slotsOf (edge halting) ∧ recordOf sl' = some r' ∧
      r'.dynId = r.dynId) :=
  ⟨halting_inv, rfl, by decide,
    fetchedRecord 0x104#64 0x002081B3#32 1, fetchedRecord 0x104#64 0x002081B3#32 1,
    .full .squashed (fetchedRecord 0x104#64 0x002081B3#32 1), .tail _ (.head _),
    .tail _ (.tail _ (.head _)), rfl, rfl⟩

/-- `pair` with `f` in IF, the fetch of IF pending for `n` edges, and the fetch stop as given. -/
def advancing (ex id f : InstrWord) (n : Nat) (stopped : Bool) : State :=
  { pair ex id with
    slotIF := .full .normal (fetchedRecord 0x108#64 f 2), iStall := n, fetchStopped := stopped, nextDynId := 3 }

theorem advancing_plain (ex id f : InstrWord) (n : Nat) (b : Bool) : PlainEdge (advancing ex id f n b) :=
  plain_of_idle rfl rfl rfl

/-- `add x3, x1, x2` behind `addi x1, x0, 5` raises no event. -/
theorem advancing_noEvent (f : InstrWord) (n : Nat) (b : Bool) : NoIdEvent (advancing 0x00500093#32 0x002081B3#32 f n b) := by
  intro d hd
  obtain rfl : fetchedRecord 0x104#64 0x002081B3#32 1 = d := Option.some.inj hd
  exact ⟨by rfl, by rfl, fun _ => by rfl, fun h => absurd h (by decide)⟩

theorem advancing_slotIF (ex id f : InstrWord) (n : Nat) (b : Bool) :
    (advancing ex id f n b).slotIF = .full .normal (fetchedRecord 0x108#64 f 2) := rfl

/-- What executes. -/
theorem witness_ExecuteStageEdge :
    PlainEdge (pair 0x00500093#32 0x002081B3#32) ∧
    ∃ d r, (pair 0x00500093#32 0x002081B3#32).slotID.live? = some d ∧ RecordInv d ∧ d.op = some (.add 3#5 1#5 2#5) ∧
      (edge (pair 0x00500093#32 0x002081B3#32)).slotEX = .full .normal r :=
  ⟨pair_plain .., _, _, rfl, ⟨rfl, rfl, rfl, rfl⟩, by rfl, rfl⟩

/-- An advance with no event: the fetch of IF pending or not, fetching stopped or not, a branch or none in IF. -/
theorem witness_ExecuteStageEdge_advance (f : InstrWord) (n : Nat) (b : Bool) :
    let o := advancing 0x00500093#32 0x002081B3#32 f n b
    PlainEdge o ∧ NoIdEvent o ∧ o.iStall = n ∧ o.fetchStopped = b ∧ ∃ r, o.slotIF.live? = some r ∧ r = fetchedRecord 0x108#64 f 2 :=
  ⟨advancing_plain .., advancing_noEvent f n b, rfl, rfl, _, by rw [advancing_slotIF]; rfl, rfl⟩

theorem advancing_control :
    (fetchedRecord 0x108#64 0x00208463#32 2).isControl = true ∧ (fetchedRecord 0x108#64 0x00000013#32 2).isControl = false :=
  ⟨by rfl, by rfl⟩

/-- An advance with nothing in ID. -/
theorem witness_ExecuteStageEdge_empty : PlainEdge State.reset ∧ NoIdEvent State.reset ∧ State.reset.slotID.live? = none := by
  have h : State.reset.slotID.live? = none := rfl
  refine ⟨plain_of_idle rfl rfl rfl, fun d hd => ?_, h⟩
  rw [h] at hd
  cases hd

/-- The fetch behind a branch entering ID is SPECULATIVE, behind an `addi` NORMAL (70_reset_and_hazards.md R202, R210). -/
theorem test_fetch_tags :
    (edge (advancing 0x00000013#32 0x00000013#32 0x00208463#32 0 false)).slotIF.status = .speculative ∧
    (edge (advancing 0x00000013#32 0x00000013#32 0x00500093#32 0 false)).slotIF.status = .normal :=
  ⟨by rfl, by rfl⟩

theorem witness_StickyFlags : halting.fetchStopped = true ∧ ∃ t, step halting = .next t := ⟨rfl, _, rfl⟩

theorem witness_WideLiteral : 5#5 ≠ 0#5 := by decide

theorem witness_InvariantKept : Inv halting ∧ ∃ t, step halting = .next t := ⟨halting_inv, _, rfl⟩

theorem witness_InvariantKeptByCommands :
    Inv halting ∧ (∀ cfg, HostCommand.runCycles 1 ≠ .configure cfg) ∧ ∃ t, hostCommand (.runCycles 1) halting = .next t :=
  ⟨halting_inv, nofun, _, rfl⟩

/-- `Coherent` as a check. -/
def coherentCheck (s : State) : Bool :=
  [s.slotIF, s.slotID, s.slotEX].all fun sl =>
    match sl.live? with
    | none => true
    | some r =>
      match r.raw, s.fetchWord r.pc with
      | none, _ => true
      | some w, .ok w' => w == w'
      | some _, .error _ => false

theorem coherent_of_check {s : State} (h : coherentCheck s = true) : Coherent s := by
  intro sl hsl r w hr hw
  have := List.all_eq_true.1 h sl hsl
  simp only [hr, hw] at this
  split at this <;> simp_all

/-- The program HALT alone, at address 0. -/
def haltAlone : State := State.reset.withFetchWord 32 0xFEEDFEED

/-- The halt's fetch misses the cold instruction cache, and the halt retires at the eighth edge. -/
theorem witness_PipelineAgreesWithFunctional :
    Fresh haltAlone ∧ (∀ k, k ≤ 8 → Coherent (edges k haltAlone)) ∧ (edges 8 haltAlone).status = .halt := by
  refine ⟨⟨rfl, rfl, rfl, rfl, ⟨rfl, rfl⟩, ⟨rfl, rfl⟩, ⟨rfl, rfl⟩⟩, fun k hk => coherent_of_check ?_, by rfl⟩
  have : k = 0 ∨ k = 1 ∨ k = 2 ∨ k = 3 ∨ k = 4 ∨ k = 5 ∨ k = 6 ∨ k = 7 ∨ k = 8 := by omega
  rcases this with rfl | rfl | rfl | rfl | rfl | rfl | rfl | rfl | rfl <;> rfl

end Sys2Proof.Tests
end

section
/-! PROOFS. x0, where a functional run stops, and reset (10_state.md R20, R44; 30_encoding.md R93). -/

namespace Sys2Proof.Machine

/-! ### x0 -/

@[simp] theorem writeReg_zero (s : State) (v : Word) : s.writeReg 0#5 v = s := by simp [State.writeReg]

@[simp] theorem collect_zero (b : Bool) (s : State) : collect b 0#5 s = 0#64 := by simp [collect]

/-- No record produces x0, so no match is made on it. -/
@[simp] theorem Record.writes_zero (r : Record) : r.writes 0#5 = false := by simp [Record.writes]

@[simp] theorem forward_zero (ex : Slot) (s : State) : forward ex s 0#5 = 0#64 := by
  unfold forward
  cases ex.live? <;> simp

theorem loadUseHazard_zero {d : Record} (h1 : d.rs1 = 0#5) (h2 : d.rs2 = 0#5) (ex : Slot) : loadUseHazard d ex = false := by
  unfold loadUseHazard
  cases ex.live? <;> simp [Record.readsRs1Of, Record.readsRs2Of, h1, h2]

theorem controlHazard_zero {d : Record} (h1 : d.rs1 = 0#5) (h2 : d.rs2 = 0#5) (ex mem : Slot) :
    controlHazard d ex mem = false := by
  unfold controlHazard
  cases ex.live? <;> cases mem.live? <;> simp [Record.readsRs1Of, Record.readsRs2Of, h1, h2]

/-- Settles O32: one fact per place that reads, writes or matches a register. -/
theorem zeroRegister : Obligations.ZeroRegister := fun s =>
  ⟨readReg_zero, writeReg_zero s, fun b => collect_zero b s, fun ex => forward_zero ex s, Record.writes_zero,
    fun _ h1 h2 => ⟨loadUseHazard_zero h1 h2, controlHazard_zero h1 h2⟩⟩

/-! ### Where a functional run stops -/

theorem edge_of_stopped {o : State} (h : o.status ≠ .running) : edge o = o := by simp [edge, h]

theorem functionalStep_of_stopped {s : State} (h : s.status ≠ .running) : functionalStep s = .next s := by
  simp [functionalStep, h]

theorem functionalStep_of_fetch_error {s : State} {e : Fault} (h : s.status = .running)
    (hf : s.fetchWord s.pc = .error e) : functionalStep s = .next { s with status := .illegal } := by
  simp [functionalStep, h, hf, State.takeException]

theorem functionalStep_of_illegal {s : State} {w : InstrWord} {e : DecodeReject} (h : s.status = .running)
    (hf : s.fetchWord s.pc = .ok w) (hd : decode w = .error e) :
    functionalStep s = .next { s with status := .illegal } := by
  simp [functionalStep, h, hf, hd, State.takeException]

theorem functionalStep_of_decode {s : State} {w : InstrWord} {i : Instr} (h : s.status = .running)
    (hf : s.fetchWord s.pc = .ok w) (hd : decode w = .ok i) : functionalStep s = exec i s := by
  simp [functionalStep, h, hf, hd]

/-- What a functional step can do: nothing, stop, or run the decoded instruction. -/
theorem functionalStep_cases (s : State) :
    (s.status ≠ .running ∧ functionalStep s = .next s) ∨
    (s.status = .running ∧ functionalStep s = .next { s with status := .illegal }) ∨
    (∃ i, s.status = .running ∧ functionalStep s = exec i s) := by
  by_cases h : s.status = .running
  · cases hf : s.fetchWord s.pc with
    | error e => exact .inr (.inl ⟨h, functionalStep_of_fetch_error h hf⟩)
    | ok w =>
      cases hd : decode w with
      | error e => exact .inr (.inl ⟨h, functionalStep_of_illegal h hf hd⟩)
      | ok i => exact .inr (.inr ⟨i, h, functionalStep_of_decode h hf hd⟩)
  · exact .inl ⟨h, functionalStep_of_stopped h⟩

theorem fetchWord_out_of_range {s : State} {a : Word} (h : s.memSize < a.toNat + 4) :
    s.fetchWord a = .error .rangeError := by
  obtain ⟨hr, -⟩ | ⟨-, e⟩ := fetchWord_cases s a
  · rw [inRange_iff] at hr; omega
  · exact e

/-- Settles O29, by the three ways a functional step does not run an instruction. -/
theorem functionalStops : Obligations.FunctionalStops := by
  intro s
  refine ⟨fun h hr => functionalStep_of_fetch_error h (fetchWord_out_of_range hr), fun w h hf hd => ?_,
    fun h => ⟨functionalStep_of_stopped h, edge_of_stopped h⟩⟩
  cases e : decode w with
  | ok i => exact absurd e (hd i)
  | error x => exact functionalStep_of_illegal h hf e

/-! ### Reset -/

/-- A memory in canonical form that lists no byte at or above `size`. -/
structure MemoryWithin (size : Nat) (m : List Host.Cell) : Prop where
  wf    : Memory.wf m = true
  range : ∀ a, size ≤ a → Memory.byte m a = unlistedByte

theorem MemoryWithin.nil (size : Nat) : MemoryWithin size [] := ⟨Memory.wf_nil, fun _ _ => rfl⟩

theorem MemoryWithin.store {size : Nat} {m : List Host.Cell} (h : MemoryWithin size m) {a n : Nat} (v : Word)
    (hr : a + n ≤ size) : MemoryWithin size (Memory.store m a n v) where
  wf := Memory.wf_store h.wf a n v
  range x hx := by rw [Memory.byte_store_outside v (by omega), h.range x hx]

theorem MemoryWithin.putBytes {size : Nat} {m : List Host.Cell} (h : MemoryWithin size m) {a : Nat} {bs : List Byte}
    (hr : bs = [] ∨ a + bs.length ≤ size) : MemoryWithin size (Memory.putBytes m a bs) := by
  rcases hr with rfl | hr
  · exact h
  · exact ⟨Memory.wf_putBytes h.wf a bs, fun x hx => by
      rw [Memory.byte_putBytes_outside bs (by omega), h.range x hx]⟩

theorem MemoryWithin.initialMemory (size : Nat) (l : List Host.Cell) : MemoryWithin size (initialMemory size l) := by
  induction l with
  | nil => exact .nil size
  | cons p t ih =>
    obtain ⟨a, b⟩ := p
    unfold Machine.initialMemory
    split
    · exact ⟨Memory.wf_setByte ih.wf a b, fun x hx => by
        rw [Memory.byte_setByte_ne b (by omega), ih.range x hx]⟩
    · exact ih

/-- INIT_MEM as it is stored reads as the statements write it down. -/
theorem byte_initialMemory (b : BootParams) (size a : Nat) :
    Memory.byte (initialMemory size b.initMem) a = initialByte b size a := by
  unfold initialByte
  split
  case isFalse h => exact (MemoryWithin.initialMemory size _).range a (by omega)
  case isTrue h =>
    induction b.initMem with
    | nil => rfl
    | cons p t ih =>
      obtain ⟨x, v⟩ := p
      unfold initialMemory
      by_cases hx : x = a
      · subst hx
        simp [h, Memory.byte_setByte_eq (MemoryWithin.initialMemory size t).wf]
      · rw [List.find?_cons_of_neg (by simpa using hx), ← ih]
        split
        · exact Memory.byte_setByte_ne v (Ne.symm hx)
        · rfl

/-- What `loadImage` can do: place every byte, none of them out of range, or be refused. -/
theorem loadImage_cases (base : Word) (bytes : List Byte) (s : State) :
    ((bytes = [] ∨ base.toNat + bytes.length ≤ s.memSize) ∧
      loadImage base bytes s = .next { s with mem := Memory.putBytes s.mem base.toNat bytes }) ∨
    (s.memSize < base.toNat + bytes.length ∧ bytes ≠ [] ∧ loadImage base bytes s = .refused .imageOutOfRange) := by
  unfold loadImage
  by_cases h : bytes = [] ∨ base.toNat + bytes.length ≤ s.memSize
  · exact .inl ⟨h, if_pos (by simpa using h)⟩
  · have h' := not_or.1 h
    exact .inr ⟨by omega, h'.1, if_neg (by simpa using h')⟩

/-- The state a reset leaves, but for the bytes of memory. -/
def resetWith (b : BootParams) (s : State) (mem : List Host.Cell) : State :=
  { State.reset with
    ic := s.ic, dc := s.dc, excHandlerAddr := s.excHandlerAddr, memSize := s.memSize
    regs := b.initRegs.set 0 0#64, pc := b.resetPc, fetchPc := b.resetPc, mem := mem }

/-- What `State.hostReset` can do: INIT_MEM with the image over it, or INIT_MEM if the image does not fit. -/
theorem hostReset_cases (b : BootParams) (s : State) :
    ((b.image = [] ∨ b.imageBase.toNat + b.image.length ≤ s.memSize) ∧
      s.hostReset b = resetWith b s (Memory.putBytes (initialMemory s.memSize b.initMem) b.imageBase.toNat b.image)) ∨
    (s.memSize < b.imageBase.toNat + b.image.length ∧ b.image ≠ [] ∧
      s.hostReset b = resetWith b s (initialMemory s.memSize b.initMem)) := by
  unfold State.hostReset
  obtain ⟨h, e⟩ | ⟨h, hn, e⟩ := loadImage_cases b.imageBase b.image (resetWith b s (initialMemory s.memSize b.initMem))
  · exact .inl ⟨h, by simp only [resetWith] at e ⊢; rw [e]⟩
  · exact .inr ⟨h, hn, by simp only [resetWith] at e ⊢; rw [e]⟩

/-- Every reset leaves `resetWith` some memory of the store. -/
theorem hostReset_eq (b : BootParams) (s : State) :
    ∃ mem, MemoryWithin s.memSize mem ∧ s.hostReset b = resetWith b s mem := by
  have hi := MemoryWithin.initialMemory s.memSize b.initMem
  obtain ⟨h, e⟩ | ⟨-, -, e⟩ := hostReset_cases b s
  · exact ⟨_, hi.putBytes h, e⟩
  · exact ⟨_, hi, e⟩

theorem readReg_resetWith (b : BootParams) (s : State) (mem : List Host.Cell) (r : RegIdx) :
    (resetWith b s mem).readReg r = if r = 0#5 then 0#64 else b.initRegs[r.toNat]'r.isLt := by
  by_cases h : r = 0#5
  · simp [h]
  · have : (0 : Nat) ≠ r.toNat := fun e => h (BitVec.eq_of_toNat_eq e.symm)
    simp [State.readReg, resetWith, h, this]

theorem readByte_hostReset_image {b : BootParams} {s : State} (h : b.imageBase.toNat + b.image.length ≤ s.memSize)
    {k : Nat} (hk : k < b.image.length) : (s.hostReset b).readByte (b.imageBase.toNat + k) = b.image[k] := by
  obtain ⟨-, e⟩ | ⟨h', -⟩ := hostReset_cases b s
  · rw [e]
    exact Memory.byte_putBytes_inside (MemoryWithin.initialMemory s.memSize b.initMem).wf hk
  · omega

/-- Where the image is not, or does not fit, memory holds INIT_MEM. -/
theorem readByte_hostReset_initial {b : BootParams} {s : State} {a : Nat}
    (h : s.memSize < b.imageBase.toNat + b.image.length ∨ a < b.imageBase.toNat ∨
      b.imageBase.toNat + b.image.length ≤ a) :
    (s.hostReset b).readByte a = initialByte b s.memSize a := by
  rw [← byte_initialMemory]
  obtain ⟨h', e⟩ | ⟨-, -, e⟩ := hostReset_cases b s <;> rw [e]
  · have : b.image = [] ∨ a < b.imageBase.toNat ∨ b.imageBase.toNat + b.image.length ≤ a := by
      rcases h' with h' | h'
      · exact .inl h'
      · exact .inr (by omega)
    rcases this with hn | ha
    · simp [State.readByte, resetWith, hn, Memory.putBytes]
    · exact Memory.byte_putBytes_outside b.image ha
  · rfl

/-- Settles O33: the registers and memory by their lemmas, every other field as `resetWith` has it. -/
theorem resetValues : Obligations.ResetValues := by
  intro s b t
  obtain ⟨mem, -, e⟩ := hostReset_eq b s
  have ht : t = resetWith b s mem := e
  have fits := fun h => And.intro (fun k (hk : k < b.image.length) => readByte_hostReset_image (s := s) h hk)
    fun a ha => readByte_hostReset_initial (b := b) (s := s) (a := a) (.inr ha)
  have tooLong := fun h a => readByte_hostReset_initial (b := b) (s := s) (a := a) (.inl h)
  refine ⟨fun r => by rw [ht, readReg_resetWith], ?_⟩
  simp only [← and_assoc]
  refine ⟨⟨?_, fits⟩, tooLong⟩
  rw [ht]
  simp [resetWith, State.reset, slotsOf, Cache.empty, Cache.set, sparseGet]

end Sys2Proof.Machine
end

section
/-! PROOFS. What an instruction can do in functional mode, and its frame (30_encoding.md R92, R93). -/

namespace Sys2Proof.Machine

open Sys2Proof.Laws

/-- The fields of every instruction's word hold the registers it names. -/
theorem encodedFields : ∀ i : Instr, EncodedFields.Statement i
  | .add _ _ _ => EncodedFields.add ..
  | .sub _ _ _ => EncodedFields.sub ..
  | .sll _ _ _ => EncodedFields.sll ..
  | .slt _ _ _ => EncodedFields.slt ..
  | .sltu _ _ _ => EncodedFields.sltu ..
  | .xor _ _ _ => EncodedFields.xor ..
  | .srl _ _ _ => EncodedFields.srl ..
  | .sra _ _ _ => EncodedFields.sra ..
  | .or _ _ _ => EncodedFields.or ..
  | .and _ _ _ => EncodedFields.and ..
  | .addi _ _ _ => EncodedFields.addi ..
  | .slti _ _ _ => EncodedFields.slti ..
  | .sltiu _ _ _ => EncodedFields.sltiu ..
  | .xori _ _ _ => EncodedFields.xori ..
  | .ori _ _ _ => EncodedFields.ori ..
  | .andi _ _ _ => EncodedFields.andi ..
  | .slli _ _ _ => EncodedFields.slli ..
  | .srli _ _ _ => EncodedFields.srli ..
  | .srai _ _ _ => EncodedFields.srai ..
  | .addiw _ _ _ => EncodedFields.addiw ..
  | .slliw _ _ _ => EncodedFields.slliw ..
  | .srliw _ _ _ => EncodedFields.srliw ..
  | .sraiw _ _ _ => EncodedFields.sraiw ..
  | .addw _ _ _ => EncodedFields.addw ..
  | .subw _ _ _ => EncodedFields.subw ..
  | .sllw _ _ _ => EncodedFields.sllw ..
  | .srlw _ _ _ => EncodedFields.srlw ..
  | .sraw _ _ _ => EncodedFields.sraw ..
  | .lui _ _ => EncodedFields.lui ..
  | .auipc _ _ => EncodedFields.auipc ..
  | .lb _ _ _ => EncodedFields.lb ..
  | .lh _ _ _ => EncodedFields.lh ..
  | .lw _ _ _ => EncodedFields.lw ..
  | .ld _ _ _ => EncodedFields.ld ..
  | .lbu _ _ _ => EncodedFields.lbu ..
  | .lhu _ _ _ => EncodedFields.lhu ..
  | .lwu _ _ _ => EncodedFields.lwu ..
  | .sb _ _ _ => EncodedFields.sb ..
  | .sh _ _ _ => EncodedFields.sh ..
  | .sw _ _ _ => EncodedFields.sw ..
  | .sd _ _ _ => EncodedFields.sd ..
  | .beq _ _ _ => EncodedFields.beq ..
  | .bne _ _ _ => EncodedFields.bne ..
  | .blt _ _ _ => EncodedFields.blt ..
  | .bge _ _ _ => EncodedFields.bge ..
  | .bltu _ _ _ => EncodedFields.bltu ..
  | .bgeu _ _ _ => EncodedFields.bgeu ..
  | .jal _ _ => EncodedFields.jal ..
  | .jalr _ _ _ => EncodedFields.jalr ..
  | .halt => EncodedFields.halt
  | .nop => EncodedFields.nop

theorem fieldsOf_rd {i : Instr} {r : RegIdx} (h : (namedBy i).rd = some r) : (fieldsOf i).rd = r :=
  (encodedFields i).1 r h

theorem fieldsOf_rs1 {i : Instr} {r : RegIdx} (h : (namedBy i).rs1 = some r) : (fieldsOf i).rs1 = r := by
  obtain ⟨-, hrs1, -⟩ := encodedFields i
  exact hrs1 r h

/-- What an instruction can do to the machine in functional mode (30_encoding.md R92, R93). -/
inductive ExecCase (i : Instr) (s : State) : State → Prop where
  /-- It commits a value to the register it names. -/
  | commit {rd : RegIdx} (v npc : Word) (named : (namedBy i).rd = some rd)
      (flags : (flagsOf (some i)).writesRd = true ∧ (flagsOf (some i)).writesMem = false) :
      ExecCase i s (s.commit rd v npc)
  /-- It writes no register and no memory. -/
  | jump (npc : Word) (flags : (flagsOf (some i)).writesMem = false) : ExecCase i s (s.finish npc)
  /-- It stores in range at the address of its address form. -/
  | store {m : Word} (v npc : Word) (flags : (flagsOf (some i)).writesMem = true)
      (address : addressOf i (collect (flagsOf (some i)).readsRs1 (fieldsOf i).rs1 s) = some m)
      (inRange : m.toNat + widthOf i ≤ s.memSize) :
      ExecCase i s ({ s with mem := Memory.store s.mem m.toNat (widthOf i) v }.finish npc)
  /-- It is a load or a store that stops the run. -/
  | stop (flags : (flagsOf (some i)).readsMem = true ∨ (flagsOf (some i)).writesMem = true)
      (address : ∃ m, addressOf i (collect (flagsOf (some i)).readsRs1 (fieldsOf i).rs1 s) = some m) :
      ExecCase i s { s with status := .illegal }
  /-- It is a halt. -/
  | halt (isHalt : i = .halt) : ExecCase i s { s with status := .halt, dynInstrCount := s.dynInstrCount + 1 }

/-- The base operand of an instruction that reads the first source it names. -/
theorem collect_rs1 {i : Instr} {rs1 : RegIdx} (s : State) (hf : (flagsOf (some i)).readsRs1 = true)
    (hn : (namedBy i).rs1 = some rs1) :
    collect (flagsOf (some i)).readsRs1 (fieldsOf i).rs1 s = s.readReg rs1 := by
  rw [hf, fieldsOf_rs1 hn, collect, if_pos rfl]

/-- A load commits what it reads or stops. -/
theorem execCase_load {i : Instr} {n : Nat} {ext : Word → Word} {rd rs1 : RegIdx} {imm : BitVec 12} {s : State}
    (he : exec i s = loadInto n ext rd rs1 imm s) (hn : namedBy i = ⟨some rd, some rs1, none⟩)
    (hf : flagsOf (some i) = classFlags .load) (ha : ∀ a, addressOf i a = some (loadAddress a imm)) :
    ∃ t, exec i s = .next t ∧ ExecCase i s t := by
  rw [he]
  obtain ⟨-, e⟩ | ⟨-, e⟩ := loadInto_cases s n ext rd rs1 imm <;> rw [e]
  · exact ⟨_, rfl, .commit _ _ (by rw [hn]) (by rw [hf]; exact ⟨rfl, rfl⟩)⟩
  · exact ⟨_, rfl, .stop (.inl (by rw [hf]; rfl)) ⟨_, ha _⟩⟩

/-- A store writes in range or stops. -/
theorem execCase_store {i : Instr} {rs1 rs2 : RegIdx} {imm : BitVec 12} {s : State}
    (he : exec i s = storeFrom (widthOf i) rs1 rs2 imm s) (hn : (namedBy i).rs1 = some rs1)
    (hf : flagsOf (some i) = classFlags .store) (ha : ∀ a, addressOf i a = some (storeAddress a imm)) :
    ∃ t, exec i s = .next t ∧ ExecCase i s t := by
  have hw : (flagsOf (some i)).writesMem = true := by rw [hf]; rfl
  have hb := collect_rs1 s (by rw [hf]; rfl) hn
  rw [he]
  obtain ⟨hr, e⟩ | ⟨-, e⟩ := storeFrom_cases s (widthOf i) rs1 rs2 imm <;> rw [e]
  · exact ⟨_, rfl, .store _ _ hw (by rw [hb, ha]) ((inRange_iff s _ _).1 hr)⟩
  · exact ⟨_, rfl, .stop (.inr hw) ⟨_, ha _⟩⟩

/-- Every instruction answers a next state, by one of the ways of `ExecCase`. -/
theorem exec_cases (i : Instr) (s : State) : ∃ t, exec i s = .next t ∧ ExecCase i s t := by
  cases i
  case lb => exact execCase_load rfl rfl rfl fun _ => rfl
  case lh => exact execCase_load rfl rfl rfl fun _ => rfl
  case lw => exact execCase_load rfl rfl rfl fun _ => rfl
  case ld => exact execCase_load rfl rfl rfl fun _ => rfl
  case lbu => exact execCase_load rfl rfl rfl fun _ => rfl
  case lhu => exact execCase_load rfl rfl rfl fun _ => rfl
  case lwu => exact execCase_load rfl rfl rfl fun _ => rfl
  case sb => exact execCase_store rfl rfl rfl fun _ => rfl
  case sh => exact execCase_store rfl rfl rfl fun _ => rfl
  case sw => exact execCase_store rfl rfl rfl fun _ => rfl
  case sd => exact execCase_store rfl rfl rfl fun _ => rfl
  case beq => exact ⟨_, rfl, .jump _ rfl⟩
  case bne => exact ⟨_, rfl, .jump _ rfl⟩
  case blt => exact ⟨_, rfl, .jump _ rfl⟩
  case bge => exact ⟨_, rfl, .jump _ rfl⟩
  case bltu => exact ⟨_, rfl, .jump _ rfl⟩
  case bgeu => exact ⟨_, rfl, .jump _ rfl⟩
  case nop => exact ⟨_, rfl, .jump _ rfl⟩
  case halt => exact ⟨_, rfl, .halt rfl⟩
  all_goals exact ⟨_, rfl, .commit _ _ rfl ⟨rfl, rfl⟩⟩

/-- `t` is `s` but for the registers, the pc, the status, the instruction count and memory. -/
def ArchFrame (s t : State) : Prop :=
  t = { s with regs := t.regs, pc := t.pc, status := t.status, dynInstrCount := t.dynInstrCount, mem := t.mem }

theorem ExecCase.frame {i : Instr} {s t : State} (h : ExecCase i s t) : ArchFrame s t := by
  cases h with
  | commit v npc => unfold ArchFrame State.commit State.writeReg; split <;> rfl
  | _ => rfl

theorem ExecCase.readReg {i : Instr} {s t : State} (h : ExecCase i s t) {r : RegIdx}
    (hr : r ≠ (fieldsOf i).rd ∨ (flagsOf (some i)).writesRd = false) : t.readReg r = s.readReg r := by
  cases h with
  | commit v npc named flags =>
    rw [fieldsOf_rd named, flags.1] at hr
    exact (regResult_commit s _ v npc).others r (by simpa using hr)
  | _ => rfl

theorem ExecCase.mem_of_not_store {i : Instr} {s t : State} (h : ExecCase i s t)
    (hf : (flagsOf (some i)).writesMem = false) : t.mem = s.mem := by
  cases h with
  | commit => simp [State.commit]
  | store _ _ flags => rw [hf] at flags; cases flags
  | _ => rfl

/-- The only bytes an instruction changes are those of its width from the address its form gives. -/
theorem ExecCase.readByte {i : Instr} {s t : State} (h : ExecCase i s t) {m : Word}
    (hm : addressOf i (collect (flagsOf (some i)).readsRs1 (fieldsOf i).rs1 s) = some m) {a : Nat}
    (ha : a < m.toNat ∨ m.toNat + widthOf i ≤ a) : t.readByte a = s.readByte a := by
  cases h with
  | commit => exact readByte_congr (by simp [State.commit]) a
  | store v npc flags address =>
    rw [hm] at address
    cases address
    exact Memory.byte_store_outside v ha
  | _ => rfl

theorem ExecCase.address_of_store {i : Instr} {s t : State} (h : ExecCase i s t)
    (hf : (flagsOf (some i)).writesMem = true) :
    ∃ m, addressOf i (collect (flagsOf (some i)).readsRs1 (fieldsOf i).rs1 s) = some m := by
  cases h with
  | commit _ _ _ flags => rw [hf] at flags; cases flags.2
  | jump _ flags => rw [hf] at flags; cases flags
  | store _ _ _ address => exact ⟨_, address⟩
  | stop _ address => exact address
  | halt isHalt => subst isHalt; cases hf

theorem ExecCase.status {i : Instr} {s t : State} (h : ExecCase i s t) :
    t.status = s.status ∨ i = .halt ∧ t.status = .halt ∨
      ((flagsOf (some i)).readsMem = true ∨ (flagsOf (some i)).writesMem = true) ∧
        t = { s with status := .illegal } := by
  cases h with
  | commit => exact .inl (by simp [State.commit])
  | jump => exact .inl rfl
  | store => exact .inl rfl
  | stop flags => exact .inr (.inr ⟨flags, rfl⟩)
  | halt isHalt => exact .inr (.inl ⟨isHalt, rfl⟩)

/-- Settles O31, from the ways an instruction can end. -/
theorem execFrame : Obligations.ExecFrame := by
  intro i s
  obtain ⟨t, he, h⟩ := exec_cases i s
  exact ⟨t, he, h.frame, fun _ => h.readReg, h.mem_of_not_store, fun _ hm _ => h.readByte hm, h.address_of_store,
    h.status⟩

/-- A register write leaves x0's cell alone. -/
theorem regs_zero_writeReg {s : State} (h : s.regs[0] = 0#64) (r : RegIdx) (v : Word) :
    (s.writeReg r v).regs[0] = 0#64 := by
  unfold State.writeReg
  split
  · exact h
  · next hr =>
    have : r.toNat ≠ 0 := fun e => hr (BitVec.eq_of_toNat_eq e)
    simpa [this] using h

theorem ExecCase.regs_zero {i : Instr} {s t : State} (h : ExecCase i s t) (hz : s.regs[0] = 0#64) :
    t.regs[0] = 0#64 := by
  cases h with
  | commit v npc => exact regs_zero_writeReg hz _ v
  | _ => exact hz

theorem ExecCase.memoryWithin {i : Instr} {s t : State} (h : ExecCase i s t) (hm : MemoryWithin s.memSize s.mem) :
    MemoryWithin s.memSize t.mem := by
  cases h with
  | commit => simpa [State.commit] using hm
  | store v _ _ _ inRange => exact hm.store v inRange
  | _ => exact hm

end Sys2Proof.Machine
end

section
/-! PROOFS. What a step and an edge can do (70_reset_and_hazards.md R187, R188, R192), the configuration and the sticky
flags. -/

namespace Sys2Proof.Machine

/-! ### What a run command answers -/

theorem runRefusal_eq_none {m : RunMode} {s : State} :
    runRefusal m s = none ↔ s.configLegal = true ∧ (s.mode = some m ∨ s.mode = none) := by
  unfold runRefusal
  cases s.configLegal with
  | false => simp
  | true => by_cases hm : s.mode = some m ∨ s.mode = none <;> simp [hm]

/-- A run of edges that is not refused (70_reset_and_hazards.md R187). -/
theorem runCycles_next {n : Nat} {s t : State} (h : runCycles n s = .next t) :
    s.configLegal = true ∧ (s.mode = some .pipelined ∨ s.mode = none) ∧
      t = edges n { s with mode := some .pipelined } := by
  unfold runCycles at h
  cases hr : runRefusal .pipelined s with
  | some r => simp [hr] at h
  | none =>
    obtain ⟨hc, hm⟩ := runRefusal_eq_none.1 hr
    simp only [hr] at h
    cases h
    exact ⟨hc, hm, rfl⟩

/-- A run of functional steps that is not refused (70_reset_and_hazards.md R188). -/
theorem runInstructions_next {n : Nat} {s t : State} (h : runInstructions n s = .next t) :
    s.configLegal = true ∧ (s.mode = some .functional ∨ s.mode = none) ∧
      functionalSteps n { s with mode := some .functional } = .next t := by
  unfold runInstructions at h
  cases hr : runRefusal .functional s with
  | some r => simp [hr] at h
  | none =>
    obtain ⟨hc, hm⟩ := runRefusal_eq_none.1 hr
    simp only [hr] at h
    exact ⟨hc, hm, h⟩

theorem functionalSteps_one (s : State) : functionalSteps 1 s = functionalStep s := by
  simp only [functionalSteps]
  cases functionalStep s <;> rfl

/-- A step is an edge of a pipelined session, or a functional step of any other. -/
theorem step_cases {s t : State} (h : step s = .next t) :
    (s.configLegal = true ∧ s.mode = some .pipelined ∧ t = edge s) ∨
    (s.mode ≠ some .pipelined ∧ functionalStep { s with mode := some .functional } = .next t) := by
  have functional (h : runInstructions 1 s = .next t) :
      s.mode ≠ some .pipelined ∧ functionalStep { s with mode := some .functional } = .next t := by
    obtain ⟨-, hm, he⟩ := runInstructions_next h
    exact ⟨by rcases hm with hm | hm <;> simp [hm], by rwa [functionalSteps_one] at he⟩
  unfold step at h
  cases hm : s.mode with
  | none => rw [hm] at h; exact .inr ⟨nofun, (functional h).2⟩
  | some m =>
    rw [hm] at h
    cases m with
    | functional => exact .inr ⟨nofun, (functional h).2⟩
    | pipelined =>
      obtain ⟨hc, -, rfl⟩ := runCycles_next h
      exact .inl ⟨hc, rfl, by rw [← hm]; rfl⟩

/-! ### A functional step -/

/-- What every functional step keeps, of the state it starts from. -/
structure FunctionalFrame (s t : State) : Prop where
  frame  : ArchFrame s t
  zero   : s.regs[0] = 0#64 → t.regs[0] = 0#64
  memory : MemoryWithin s.memSize s.mem → MemoryWithin s.memSize t.mem

/-- A stopped machine, a stop and an instruction all keep the frame. -/
theorem functionalStep_frame {s t : State} (h : functionalStep s = .next t) : FunctionalFrame s t := by
  obtain ⟨-, e⟩ | ⟨-, e⟩ | ⟨i, -, e⟩ := functionalStep_cases s <;> rw [e] at h
  · cases h; exact ⟨rfl, id, id⟩
  · cases h; exact ⟨rfl, id, id⟩
  · obtain ⟨u, hu, hc⟩ := exec_cases i s
    rw [hu] at h
    cases h
    exact ⟨hc.frame, hc.regs_zero, hc.memoryWithin⟩

/-! ### An edge -/

/-- What the front end can do (70_reset_and_hazards.md R192 steps 4 to 6), with what each case rests on. -/
inductive FrontEndCase (o s : State) : State → Prop where
  | stalled {d : Record} (n : Nat) (live : o.slotID.live? = some d) :
      FrontEndCase o s (stall { s with loadUseStalls := n })
  | raised {d : Record} (live : o.slotID.live? = some d) (illegal : d.flags.legal = false) :
      FrontEndCase o s (takeIdException o d.excKind s)
  | redirected {d : Record} (target : Word) (live : o.slotID.live? = some d)
      (legal : d.flags.legal = true ∧ d.flags.halt = false) : FrontEndCase o s (redirectTo o target s)
  | halted {d : Record} (live : o.slotID.live? = some d) (legal : d.flags.legal = true ∧ d.flags.halt = true) :
      FrontEndCase o s (haltInId o s)
  | pending (quiet : ∀ d, o.slotID.live? = some d → d.flags.legal = true ∧ d.flags.halt = false)
      (wait : 0 < s.iStall) :
      FrontEndCase o s { s with slotEX := intoEX o s, slotID := .bubble, iStall := s.iStall - 1 }
  | stopped (quiet : ∀ d, o.slotID.live? = some d → d.flags.legal = true ∧ d.flags.halt = false)
      (ready : s.iStall = 0) (stop : s.fetchStopped = true) :
      FrontEndCase o s { s with slotEX := intoEX o s, slotID := o.slotIF.settle, slotIF := .bubble }
  | advanced (tag : Tag) (quiet : ∀ d, o.slotID.live? = some d → d.flags.legal = true ∧ d.flags.halt = false)
      (ready : s.iStall = 0) (go : s.fetchStopped = false) :
      FrontEndCase o s (fetch tag { s with slotEX := intoEX o s, slotID := o.slotIF.settle })

theorem frontEndCase_flow {o s : State}
    (quiet : ∀ d, o.slotID.live? = some d → d.flags.legal = true ∧ d.flags.halt = false) :
    FrontEndCase o s (flow o s) := by
  unfold flow
  split
  case isTrue h => exact .pending quiet h
  case isFalse h =>
    have ready : s.iStall = 0 := by omega
    split
    case isTrue hs => exact .stopped quiet ready hs
    case isFalse hs => exact .advanced _ quiet ready (by simpa using hs)

theorem frontEndCase (o s : State) : FrontEndCase o s (frontEnd o s) := by
  unfold frontEnd
  obtain ⟨hn, e⟩ | ⟨d, hd, ⟨hl, e⟩ | ⟨hl, hh, e⟩ | ⟨-, -, -, -, e⟩ | ⟨hl, hh, -, -, -, e⟩ | ⟨hl, hh, -, -, -, e⟩ |
    ⟨-, -, -, -, e⟩ | ⟨hl, hh, -, -, e⟩⟩ := idEvent_cases o s <;> rw [e]
  · exact frontEndCase_flow fun d hd => by rw [hn] at hd; cases hd
  · exact .raised hd hl
  · exact .halted hd ⟨hl, hh⟩
  · exact .stalled s.loadUseStalls hd
  · exact frontEndCase_flow fun x hx => by rw [hd] at hx; cases hx; exact ⟨hl, hh⟩
  · exact .redirected _ hd ⟨hl, hh⟩
  · exact .stalled _ hd
  · exact frontEndCase_flow fun x hx => by rw [hd] at hx; cases hx; exact ⟨hl, hh⟩

/-- What an edge can do (70_reset_and_hazards.md R192). -/
inductive EdgeCase (o : State) : State → Prop where
  | stopped (status : o.status ≠ .running) : EdgeCase o o
  | frozen (status : o.status = .running) (wait : 0 < o.dStall) : EdgeCase o (freeze o.tick)
  | faulted {m : Record} (status : o.status = .running) (ready : o.dStall = 0) (live : o.slotMEM.live? = some m)
      (fault : m.memFault = true) : EdgeCase o (takeMemoryRange o (wbStage o o.tick))
  | plain (status : o.status = .running) (ready : o.dStall = 0)
      (sound : ∀ m, o.slotMEM.live? = some m → m.memFault = false) : EdgeCase o (frontEnd o (midEdge o))

theorem edgeCase (o : State) : EdgeCase o (edge o) := by
  obtain ⟨h, e⟩ | ⟨h, hd, e⟩ | ⟨h, hd, hf, e⟩ | ⟨h, hd, hf, e⟩ := edge_cases o <;> rw [e]
  · exact .stopped h
  · exact .frozen h hd
  · obtain ⟨m, hm, hx⟩ := (memFaulting_iff o).1 hf
    exact .faulted h hd hm hx
  · refine .plain h hd fun m hm => ?_
    cases hx : m.memFault with
    | false => rfl
    | true => rw [(memFaulting_iff o).2 ⟨m, hm, hx⟩] at hf; cases hf

/-! ### The configuration registers and the mode -/

/-- `t` has the configuration registers and the mode of `s`. -/
structure SameConfiguration (s t : State) : Prop where
  ic : t.ic = s.ic
  dc : t.dc = s.dc
  excHandlerAddr : t.excHandlerAddr = s.excHandlerAddr
  memSize : t.memSize = s.memSize
  mode : t.mode = s.mode

theorem ArchFrame.configuration {s t : State} (h : ArchFrame s t) : SameConfiguration s t := by
  unfold ArchFrame at h
  constructor <;> rw [h]

theorem edge_configuration (o : State) : SameConfiguration o (edge o) := by
  obtain ⟨-, e⟩ | ⟨-, -, e⟩ | ⟨-, -, -, e⟩ | ⟨-, -, -, e⟩ := edge_cases o <;> rw [e]
  · exact ⟨rfl, rfl, rfl, rfl, rfl⟩
  · exact ⟨rfl, rfl, rfl, rfl, rfl⟩
  · constructor <;> simp [takeMemoryRange]
  · constructor <;> simp

/-- Settles O37: an edge and a functional step have their frames. -/
theorem configurationConstant : Obligations.ConfigurationConstant := by
  intro s t h
  obtain ⟨-, -, rfl⟩ | ⟨-, h⟩ := step_cases h
  · have h := edge_configuration s
    exact ⟨h.ic, h.dc, h.excHandlerAddr, h.memSize⟩
  · have h := (functionalStep_frame h).frame.configuration
    exact ⟨h.ic, h.dc, h.excHandlerAddr, h.memSize⟩

/-! ### The sticky flags -/

/-- Only a failed access raises MEMORY_RANGE (60_exceptions.md R162). -/
theorem excKind_ne_memoryRange (d : Record) : d.excKind ≠ .memoryRange := by
  unfold Record.excKind
  split <;> nofun

theorem FrontEndCase.flags {o s t : State} (h : FrontEndCase o s t) :
    (s.excRaised = true → t.excRaised = true) ∧ (s.fetchStopped = true → t.fetchStopped = true) := by
  cases h with
  | raised => simp [takeIdException, excKind_ne_memoryRange]
  | redirected => simp [redirectTo]
  | halted => exact ⟨id, fun _ => rfl⟩
  | advanced => simp
  | _ => exact ⟨id, id⟩

theorem EdgeCase.flags {o t : State} (h : EdgeCase o t) :
    (o.excRaised = true → t.excRaised = true) ∧
    (o.fetchStopped = true → t.fetchStopped = true ∨
      (∃ m, o.slotMEM.live? = some m ∧ m.memFault = true) ∧ t.excRaised = true) := by
  cases h with
  | stopped => exact ⟨id, .inl⟩
  | frozen => exact ⟨id, .inl⟩
  | faulted _ _ live fault =>
    have raised : (takeMemoryRange o (wbStage o o.tick)).excRaised = true := by simp [takeMemoryRange]
    exact ⟨fun _ => raised, fun _ => .inr ⟨⟨_, live, fault⟩, raised⟩⟩
  | plain =>
    obtain ⟨hx, hf⟩ := (frontEndCase o (midEdge o)).flags
    exact ⟨fun h => hx (by simpa using h), fun h => .inl (hf (by simpa using h))⟩

/-- Settles O55: an edge by its cases; a functional step changes neither flag. -/
theorem stickyFlags : Obligations.StickyFlags := by
  intro s t h
  obtain ⟨-, -, rfl⟩ | ⟨-, h⟩ := step_cases h
  · exact (edgeCase s).flags
  · have e := (functionalStep_frame h).frame
    unfold ArchFrame at e
    rw [e]
    exact ⟨id, .inl⟩

end Sys2Proof.Machine
end

section
/-! PROOFS. The invariant of a machine whose pipeline has not run: reset, functional mode and `loadImage`. -/

namespace Sys2Proof

open Sys2Proof.Machine

/-! ### A machine whose pipeline has not run -/

/-- The pipeline and the caches are as reset leaves them. -/
def PipelineUnused (s : State) : Prop :=
  slotsOf s = [.idle, .idle, .idle, .idle, .idle] ∧ s.cycle = 0 ∧ s.iStall = 0 ∧ s.dStall = 0 ∧ s.excRaised = false ∧
  s.fetchStopped = false ∧ s.loadUseStalls = 0 ∧ s.nextDynId = 0 ∧ s.icache = Cache.empty ∧ s.dcache = Cache.empty

theorem cacheInv_empty (c : CacheConfig) : CacheInv c Cache.empty :=
  ⟨sparseWf_nil, fun _ _ => rfl, fun _ => Nat.zero_le _, fun _ => List.nodup_nil⟩

/-- With an unused pipeline the invariant is about memory, x0 and the mode. -/
theorem inv_of_unused {s : State} (unused : PipelineUnused s) (memory : MemoryWithin s.memSize s.mem)
    (zero : s.regs[0] = 0#64) (running : s.mode = some .pipelined → s.status = .running)
    (unstarted : s.mode = none → s.status = .running ∧ s.dynInstrCount = 0) : Inv s := by
  obtain ⟨slots, -, iStall, dStall, -, stopped, -, nextId, icache, dcache⟩ := id unused
  have ⟨hIF, hID, hEX, hMEM, hWB⟩ : s.slotIF = .idle ∧ s.slotID = .idle ∧ s.slotEX = .idle ∧ s.slotMEM = .idle ∧
      s.slotWB = .idle := by simpa [slotsOf] using slots
  exact {
    memory := memory.wf
    memoryRange := memory.range
    zero := zero
    icache := icache ▸ cacheInv_empty _
    dcache := dcache ▸ cacheInv_empty _
    records := by simp [slots, recordOf]
    ids := by rw [slots]; exact .nil
    nextId := by simp [slots, recordOf]
    fetches := by simp [icache, Cache.empty]
    speculative := by simp [hID, hEX, hMEM, hWB]
    legal := by simp [hEX, hMEM, hWB]
    memFault := by simp [hIF, hID, hEX, hWB]
    memFaultNoFreeze := fun _ _ _ => dStall
    memFaultAccess := by simp [hMEM]
    iStallBound := by omega
    dStallBound := by omega
    freeze := by omega
    haltEX := by simp [liveHalt, hEX]
    haltMEM := by simp [liveHalt, hMEM]
    haltWB := by simp [liveHalt, hWB]
    fetchStopped := by simp [stopped]
    stopCause := by simp [stopped]
    endStatus := fun h => by simp [running h]
    unused := fun _ => unused
    unstarted := unstarted }

theorem inv_resetWith (b : BootParams) (s : State) {mem : List Host.Cell} (h : MemoryWithin s.memSize mem) :
    Inv (resetWith b s mem) :=
  inv_of_unused ⟨rfl, rfl, rfl, rfl, rfl, rfl, rfl, rfl, rfl, rfl⟩ h (by simp [resetWith]) (fun _ => rfl)
    fun _ => ⟨rfl, rfl⟩

/-- Settles O57: the state after reset has an unused pipeline and an empty memory. -/
theorem invariantAtReset : Obligations.InvariantAtReset :=
  inv_of_unused ⟨rfl, rfl, rfl, rfl, rfl, rfl, rfl, rfl, rfl, rfl⟩ (.nil _) (by decide) (fun _ => rfl)
    fun _ => ⟨rfl, rfl⟩

theorem Inv.memoryWithin {s : State} (h : Inv s) : MemoryWithin s.memSize s.mem := ⟨h.memory, h.memoryRange⟩

/-- Starting a functional session, or going on with one, keeps the invariant. -/
theorem Inv.startFunctional {s : State} (h : Inv s) (hm : s.mode ≠ some .pipelined) :
    Inv { s with mode := some .functional } :=
  inv_of_unused (h.unused hm) h.memoryWithin h.zero nofun nofun

/-- Starting a pipelined session, or going on with one, keeps the invariant. -/
theorem Inv.startPipelined {s : State} (h : Inv s) (hm : s.mode = some .pipelined ∨ s.mode = none) :
    Inv { s with mode := some .pipelined } := by
  rcases hm with hm | hm
  · rw [← hm]; exact h
  · exact inv_of_unused (h.unused (by simp [hm])) h.memoryWithin h.zero (fun _ => (h.unstarted hm).1) nofun

theorem Inv.functionalStep_next {s t : State} (h : Inv s) (hm : s.mode = some .functional)
    (hs : functionalStep s = .next t) : Inv t ∧ t.mode = some .functional := by
  obtain ⟨frame, zero, memory⟩ := functionalStep_frame hs
  have mode : t.mode = some .functional := frame.configuration.mode.trans hm
  have unused : PipelineUnused t := by
    unfold ArchFrame at frame
    rw [frame]
    exact h.unused (by simp [hm])
  refine ⟨inv_of_unused unused ?_ (zero h.zero) (by simp [mode]) (by simp [mode]), mode⟩
  rw [frame.configuration.memSize]
  exact memory h.memoryWithin

theorem Inv.functionalSteps_next {s t : State} (h : Inv s) (hm : s.mode = some .functional) (n : Nat)
    (hs : functionalSteps n s = .next t) : Inv t ∧ t.mode = some .functional := by
  induction n generalizing s with
  | zero => cases hs; exact ⟨h, hm⟩
  | succ n ih =>
    unfold functionalSteps at hs
    cases hu : functionalStep s with
    | next u =>
      obtain ⟨hi, hm⟩ := h.functionalStep_next hm hu
      rw [hu] at hs
      exact ih hi hm hs
    | fault f => rw [hu] at hs; cases hs
    | refused r => rw [hu] at hs; cases hs

theorem Inv.loadImage_next {s t : State} {base : Word} {bytes : List Byte} (h : Inv s)
    (hs : loadImage base bytes s = .next t) : Inv t := by
  obtain ⟨hr, e⟩ | ⟨-, -, e⟩ := loadImage_cases base bytes s <;> rw [e] at hs <;> cases hs
  have hm := h.memoryWithin.putBytes hr
  exact { h with memory := hm.wf, memoryRange := hm.range }

end Sys2Proof
end

section
/-! PROOFS. How an edge moves the records from slot to slot, and what a record keeps on its way (10_state.md R31, R32). -/

namespace Sys2Proof.Machine

/-! ### How a record moves from slot to slot -/

/-- The two records are of one fetch: what is fixed at fetch (10_state.md R31) is the same. -/
structure SameFetch (r r' : Record) : Prop where
  pc         : r'.pc = r.pc
  raw        : r'.raw = r.raw
  fields     : r'.fields = r.fields
  op         : r'.op = r.op
  flags      : r'.flags = r.flags
  dynId      : r'.dynId = r.dynId
  fetchFault : r'.fetchFault = r.fetchFault

theorem SameFetch.refl (r : Record) : SameFetch r r := ⟨rfl, rfl, rfl, rfl, rfl, rfl, rfl⟩

theorem SameFetch.recordInv {r r' : Record} (h : SameFetch r r') (hr : RecordInv r) : RecordInv r' :=
  ⟨by rw [h.fields, h.raw, hr.fields], by rw [h.op, h.raw, hr.op], by rw [h.flags, h.op, hr.flags],
    by rw [h.fetchFault, h.raw, hr.fetchFault]⟩

/-- EX fills value fields only. -/
theorem sameFetch_execute (d : Record) (ex : Slot) (s : State) :
    SameFetch d (execute d ex s) ∧ (execute d ex s).memFault = d.memFault := by
  unfold execute
  split
  · exact ⟨.refl d, rfl⟩
  · exact ⟨⟨rfl, rfl, rfl, rfl, rfl, rfl, rfl⟩, rfl⟩

/-- The refresh of a store fills its data operand only. -/
theorem sameFetch_refreshStoreData (wb : Slot) (m : Record) :
    SameFetch m (refreshStoreData wb m) ∧ (refreshStoreData wb m).memFault = m.memFault := by
  have kept : refreshStoreData wb m = m ∨ ∃ v, refreshStoreData wb m = { m with operand2 := v } := by
    unfold refreshStoreData
    split
    · split
      · split
        · exact .inr ⟨_, rfl⟩
        · exact .inl rfl
      · exact .inl rfl
    · exact .inl rfl
  obtain e | ⟨v, e⟩ := kept <;> rw [e]
  · exact ⟨.refl m, rfl⟩
  · exact ⟨⟨rfl, rfl, rfl, rfl, rfl, rfl, rfl⟩, rfl⟩

/-- `b` is what a step makes of the slot `a`: the record keeps its fetch, and a squashed one stays squashed. -/
inductive Becomes : Slot → Slot → Prop where
  | same (a : Slot) : Becomes a a
  | full {tag tag' : Tag} {r r' : Record} (record : SameFetch r r') (squashed : tag = .squashed → tag' = .squashed) :
      Becomes (.full tag r) (.full tag' r')

theorem becomes_squash (a : Slot) : Becomes a a.squash := by
  cases a with
  | full tag r => exact .full (.refl r) fun _ => rfl
  | _ => exact .same _

theorem becomes_settle (a : Slot) : Becomes a a.settle := by
  cases a with
  | full tag r => cases tag <;> exact .full (.refl r) (by simp)
  | _ => exact .same _

/-- What enters EX: the executed record of a live ID occupant, or the occupant itself. -/
theorem intoEX_cases (o s : State) :
    (∃ d, o.slotID.live? = some d ∧ intoEX o s = .full .normal (execute d o.slotEX s)) ∨
    (o.slotID.live? = none ∧ intoEX o s = o.slotID) := by
  unfold intoEX
  cases h : o.slotID.live? with
  | none => exact .inr ⟨rfl, rfl⟩
  | some d => exact .inl ⟨d, rfl, rfl⟩

theorem becomes_intoEX (o s : State) : Becomes o.slotID (intoEX o s) := by
  obtain ⟨d, hd, e⟩ | ⟨-, e⟩ := intoEX_cases o s <;> rw [e]
  · have hx := (sameFetch_execute d o.slotEX s).1
    rcases live_cases hd with h | h <;> rw [h] <;> exact .full hx nofun
  · exact .same _

/-- What the MEM step can do (70_reset_and_hazards.md R195): move the EX occupant in; note a failed access; or perform
the access in range. -/
inductive MemCase (o s : State) : State → Prop where
  | moves (plain : ∀ r, o.slotEX.live? = some r → r.flags.readsMem = false ∧ r.flags.writesMem = false) :
      MemCase o s { s with slotMEM := o.slotEX }
  | fails {tag : Tag} {r r' : Record} (slot : o.slotEX = .full tag r) (live : o.slotEX.live? = some r)
      (access : r.flags.readsMem = true ∨ r.flags.writesMem = true) (record : SameFetch r r') :
      MemCase o s { s with slotMEM := .full tag r' }
  | accesses {tag : Tag} {r r' : Record} (a : Word) {mem : List Host.Cell} (slot : o.slotEX = .full tag r)
      (live : o.slotEX.live? = some r) (access : r.flags.readsMem = true ∨ r.flags.writesMem = true)
      (record : SameFetch r r') (fault : r'.memFault = r.memFault)
      (memory : MemoryWithin s.memSize s.mem → MemoryWithin s.memSize mem) :
      MemCase o s { { s with mem := mem }.accessDC a with slotMEM := .full tag r' }

theorem memCase (o s : State) : MemCase o s (memStage o s) := by
  obtain ⟨e, h⟩ | ⟨tag, r, hs, hl, ha, e⟩ := memStage_cases o s <;> rw [e]
  · exact .moves h
  · obtain ⟨hk, hf⟩ := sameFetch_refreshStoreData s.slotWB r
    obtain ⟨r', e, ⟨-, rfl⟩ | ⟨i, -, -, rfl⟩⟩ | ⟨i, v, mem, -, hr, e, hm⟩ := memAccess_cases tag r s <;> rw [e]
    · exact .fails hs hl ha hk
    · exact .fails hs hl ha { hk with }
    · refine .accesses _ hs hl ha { hk with } hf fun h => ?_
      rcases hm with ⟨-, rfl, -⟩ | ⟨-, -, rfl⟩
      · exact h
      · exact h.store _ ((inRange_iff s _ _).1 hr)

theorem MemCase.becomes {o s t : State} (h : MemCase o s t) : Becomes o.slotEX t.slotMEM := by
  cases h with
  | moves => exact .same _
  | fails slot _ _ record => rw [slot]; exact .full record id
  | accesses a slot _ _ record => rw [slot]; exact .full record id

/-- What the WB step makes of the MEM occupant. -/
theorem becomes_wbStage (o s : State) : Becomes o.slotMEM (wbStage o s).slotWB := by
  obtain ⟨r, -, -, e⟩ | ⟨-, e⟩ | ⟨r, -, -, e⟩ := wbStage_cases o s <;> rw [e]
  · exact .same _
  · exact .same _
  · exact becomes_squash _

/-! ### How the five occupants move at an edge -/

/-- How an edge of a running machine moves the occupants: the oldest leaves, and a bubble or, behind all others, a new
record enters. -/
inductive OccupantsMove (o t : State) : Prop where
  | bubble (young old : List Slot) (slots : slotsOf t = young ++ .bubble :: old)
      (moved : List.Forall₂ Becomes (slotsOf o).dropLast (young ++ old)) (nextId : t.nextDynId = o.nextDynId)
  | fetched (tag : Tag) (r : Record) (old : List Slot) (slots : slotsOf t = .full tag r :: old)
      (moved : List.Forall₂ Becomes (slotsOf o).dropLast old) (record : RecordInv r) (id : r.dynId = o.nextDynId)
      (nextId : t.nextDynId = o.nextDynId + 1)

/-- The four occupants that stay, each as it was or as a step left it. -/
theorem forall₂_becomes {o : State} {a b c d : Slot} (ha : Becomes o.slotIF a) (hb : Becomes o.slotID b)
    (hc : Becomes o.slotEX c) (hd : Becomes o.slotMEM d) : List.Forall₂ Becomes (slotsOf o).dropLast [a, b, c, d] :=
  .cons ha (.cons hb (.cons hc (.cons hd .nil)))

/-- A fetch puts a new record into IF. -/
theorem fetch_slotIF (tag : Tag) (s : State) :
    ∃ r, (fetch tag s).slotIF = .full tag r ∧ r.dynId = s.nextDynId ∧ RecordInv r ∧ r.memFault = false := by
  obtain ⟨w, -, e, -⟩ | ⟨x, -, e, -⟩ := fetch_cases s tag
  · exact ⟨_, e, rfl, ⟨rfl, rfl, rfl, rfl⟩, rfl⟩
  · exact ⟨_, e, rfl, ⟨rfl, rfl, rfl, rfl⟩, rfl⟩

/-- An edge that fetches moves every occupant. -/
theorem occupantsMove_fetch {o s : State} (tag : Tag) (hn : s.nextDynId = o.nextDynId) (hID : Becomes o.slotIF s.slotID)
    (hEX : Becomes o.slotID s.slotEX) (hMEM : Becomes o.slotEX s.slotMEM) (hWB : Becomes o.slotMEM s.slotWB) :
    OccupantsMove o (fetch tag s) := by
  obtain ⟨r, e, hi, hr, -⟩ := fetch_slotIF tag s
  exact .fetched tag r _ (by simp only [slotsOf, e, fetch_slotID, fetch_slotEX, fetch_slotMEM, fetch_slotWB])
    (forall₂_becomes hID hEX hMEM hWB) hr (hi.trans hn) (by simp [hn])

theorem midEdge_becomes (o : State) :
    Becomes o.slotEX (midEdge o).slotMEM ∧ Becomes o.slotMEM (midEdge o).slotWB :=
  ⟨(memCase o _).becomes, by simpa using becomes_wbStage o o.tick⟩

theorem FrontEndCase.occupantsMove {o t : State} (h : FrontEndCase o (midEdge o) t) : OccupantsMove o t := by
  obtain ⟨hMEM, hWB⟩ := midEdge_becomes o
  have hIF : (midEdge o).slotIF = o.slotIF := by simp
  have hID : (midEdge o).slotID = o.slotID := by simp
  have hn : (midEdge o).nextDynId = o.nextDynId := by simp
  have hEX := becomes_intoEX o (midEdge o)
  cases h with
  | stalled =>
    exact .bubble [(midEdge o).slotIF, (midEdge o).slotID] [(midEdge o).slotMEM, (midEdge o).slotWB] rfl
      (forall₂_becomes (by rw [hIF]; exact .same _) (by rw [hID]; exact .same _) hMEM hWB) hn
  | raised => exact occupantsMove_fetch _ hn (becomes_squash _) (becomes_squash _) hMEM hWB
  | redirected => exact occupantsMove_fetch _ hn (becomes_squash _) hEX hMEM hWB
  | halted =>
    exact .bubble [] [_, _, _, _] rfl (forall₂_becomes (becomes_squash _) hEX hMEM hWB) hn
  | pending =>
    exact .bubble [(midEdge o).slotIF] [_, _, _] rfl
      (forall₂_becomes (by rw [hIF]; exact .same _) hEX hMEM hWB) hn
  | stopped => exact .bubble [] [_, _, _, _] rfl (forall₂_becomes (becomes_settle _) hEX hMEM hWB) hn
  | advanced => exact occupantsMove_fetch _ hn (becomes_settle _) hEX hMEM hWB

theorem EdgeCase.occupantsMove {o t : State} (h : EdgeCase o t) (hr : o.status = .running) : OccupantsMove o t := by
  cases h with
  | stopped h => exact absurd hr h
  | frozen =>
    exact .bubble [o.slotIF, o.slotID, o.slotEX, o.slotMEM] [] rfl
      (forall₂_becomes (.same _) (.same _) (.same _) (.same _)) rfl
  | faulted =>
    exact occupantsMove_fetch _ (by simp) (becomes_squash _) (becomes_squash _) (becomes_squash _)
      (by simpa using becomes_wbStage o o.tick)
  | plain => exact (frontEndCase o _).occupantsMove

/-! ### What moves with the occupants: records and identifiers -/

theorem Becomes.recordOf {a b : Slot} (h : Becomes a b) {r' : Record} (hr : recordOf b = some r') :
    ∃ r, recordOf a = some r ∧ SameFetch r r' := by
  cases h with
  | same => exact ⟨r', hr, .refl r'⟩
  | full record => cases hr; exact ⟨_, rfl, record⟩

theorem forall₂_origin {l l' : List Slot} (h : List.Forall₂ Becomes l l') {b : Slot} (hb : b ∈ l') :
    ∃ a ∈ l, Becomes a b := by
  induction h with
  | nil => cases hb
  | cons hab _ ih =>
    rcases List.mem_cons.1 hb with rfl | hb
    · exact ⟨_, List.mem_cons_self, hab⟩
    · obtain ⟨a, ha, h⟩ := ih hb
      exact ⟨a, List.mem_cons_of_mem _ ha, h⟩

/-- Every record after an edge was in a slot before it, or is the one just fetched. -/
theorem OccupantsMove.origin {o t : State} (h : OccupantsMove o t) {b : Slot} (hb : b ∈ slotsOf t) {r' : Record}
    (hr : recordOf b = some r') :
    (o.nextDynId ≤ t.nextDynId ∧ ∃ a ∈ slotsOf o, Becomes a b) ∨
    (t.nextDynId = o.nextDynId + 1 ∧ r'.dynId = o.nextDynId ∧ RecordInv r') := by
  cases h with
  | bubble young old slots moved nextId =>
    rw [slots, List.mem_append, List.mem_cons] at hb
    have hb : b ∈ young ++ old := by
      rcases hb with hb | rfl | hb
      · exact List.mem_append_left _ hb
      · cases hr
      · exact List.mem_append_right _ hb
    obtain ⟨a, ha, hab⟩ := forall₂_origin moved hb
    exact .inl ⟨nextId.ge, a, List.dropLast_subset _ ha, hab⟩
  | fetched tag r old slots moved record id nextId =>
    rw [slots, List.mem_cons] at hb
    rcases hb with rfl | hb
    · cases hr; exact .inr ⟨nextId, id, record⟩
    · obtain ⟨a, ha, hab⟩ := forall₂_origin moved hb
      exact .inl ⟨by omega, a, List.dropLast_subset _ ha, hab⟩

/-- The record in `a`, if there is one, is younger than the one in `b`. -/
def Younger (a b : Slot) : Prop := ∀ r, recordOf a = some r → ∀ r', recordOf b = some r' → r'.dynId < r.dynId

theorem ids_iff (l : List Slot) :
    (l.filterMap recordOf).Pairwise (fun a b => b.dynId < a.dynId) ↔ l.Pairwise Younger :=
  List.pairwise_filterMap

theorem Younger.becomes {a a' b b' : Slot} (h : Younger a b) (ha : Becomes a a') (hb : Becomes b b') :
    Younger a' b' := by
  intro r hr r' hr'
  obtain ⟨x, hx, hsx⟩ := ha.recordOf hr
  obtain ⟨y, hy, hsy⟩ := hb.recordOf hr'
  rw [hsx.dynId, hsy.dynId]
  exact h x hx y hy

theorem pairwise_younger_becomes {l l' : List Slot} (h : List.Forall₂ Becomes l l') (hl : l.Pairwise Younger) :
    l'.Pairwise Younger := by
  induction h with
  | nil => exact .nil
  | cons hab hrest ih =>
    rw [List.pairwise_cons] at hl ⊢
    refine ⟨fun b hb => ?_, ih hl.2⟩
    obtain ⟨a, ha, h⟩ := forall₂_origin hrest hb
    exact (hl.1 a ha).becomes hab h

theorem younger_bubble_left (b : Slot) : Younger .bubble b := fun _ h => nomatch h

theorem younger_bubble_right (a : Slot) : Younger a .bubble := fun _ _ _ h => nomatch h

/-- A bubble among the occupants takes no part in their order. -/
theorem pairwise_younger_bubble {young old : List Slot} (h : (young ++ old).Pairwise Younger) :
    (young ++ .bubble :: old).Pairwise Younger := by
  rw [List.pairwise_append] at h ⊢
  obtain ⟨hy, ho, hc⟩ := h
  refine ⟨hy, List.pairwise_cons.2 ⟨fun b _ => younger_bubble_left b, ho⟩, fun a ha b hb => ?_⟩
  rcases List.mem_cons.1 hb with rfl | hb
  · exact younger_bubble_right a
  · exact hc a ha b hb

/-- What the invariant says of all records alike. -/
structure RecordsInv (s : State) : Prop where
  records : ∀ sl ∈ slotsOf s, ∀ r, recordOf sl = some r → RecordInv r
  ids     : (slotsOf s).Pairwise Younger
  nextId  : ∀ sl ∈ slotsOf s, ∀ r, recordOf sl = some r → r.dynId < s.nextDynId

theorem recordsInv_of_inv {s : State} (h : Inv s) : RecordsInv s := ⟨h.records, (ids_iff _).1 h.ids, h.nextId⟩

theorem OccupantsMove.recordsInv {o t : State} (h : OccupantsMove o t) (ho : RecordsInv o) : RecordsInv t where
  records b hb r' hr := by
    obtain ⟨-, a, ha, hab⟩ | ⟨-, -, hi⟩ := h.origin hb hr
    · obtain ⟨r, hr, hs⟩ := hab.recordOf hr
      exact hs.recordInv (ho.records a ha r hr)
    · exact hi
  nextId b hb r' hr := by
    obtain ⟨hn, a, ha, hab⟩ | ⟨hn, hi, -⟩ := h.origin hb hr
    · obtain ⟨r, hr, hs⟩ := hab.recordOf hr
      have := ho.nextId a ha r hr
      rw [hs.dynId]
      omega
    · omega
  ids := by
    have hd : (slotsOf o).dropLast.Pairwise Younger := ho.ids.sublist (List.dropLast_sublist _)
    cases h with
    | bubble young old slots moved =>
      rw [slots]
      exact pairwise_younger_bubble (pairwise_younger_becomes moved hd)
    | fetched tag r old slots moved record id =>
      rw [slots]
      refine List.pairwise_cons.2 ⟨fun b hb x hx r' hr' => ?_, pairwise_younger_becomes moved hd⟩
      obtain ⟨a, ha, hab⟩ := forall₂_origin moved hb
      obtain ⟨y, hy, hs⟩ := hab.recordOf hr'
      cases hx
      rw [hs.dynId, id]
      exact ho.nextId a (List.dropLast_subset _ ha) y hy

/-- No two slots hold records of one identifier. -/
theorem RecordsInv.slot_unique {s : State} (h : RecordsInv s) {a b : Slot} (ha : a ∈ slotsOf s) (hb : b ∈ slotsOf s)
    {r r' : Record} (hr : recordOf a = some r) (hr' : recordOf b = some r') (hid : r.dynId = r'.dynId) : a = b := by
  have hp : (slotsOf s).Pairwise fun a b =>
      ∀ r r', recordOf a = some r → recordOf b = some r' → r.dynId ≠ r'.dynId :=
    h.ids.imp fun hy r r' hr hr' => (hy r hr r' hr').ne'
  have hs : Std.Symm fun a b => ∀ r r', recordOf a = some r → recordOf b = some r' → r.dynId ≠ r'.dynId :=
    ⟨fun _ _ hs r r' hr hr' => (hs r' r hr' hr).symm⟩
  by_contra hne
  exact hp.forall ha hb hne r r' hr hr' hid

/-- Settles O46: the record after the edge comes from a slot before it, and identifiers tell slots apart. -/
theorem squashedStaysSquashed : Obligations.SquashedStaysSquashed := by
  intro o r r' inv _ _ hr sl' hsl' hr' hid
  have kept {a : Slot} (ha : a ∈ slotsOf o) (h : Becomes a sl') :
      sl' = .full .squashed r' ∧ r'.pc = r.pc ∧ r'.raw = r.raw ∧ r'.fields = r.fields := by
    obtain ⟨x, hx, hs⟩ := h.recordOf hr'
    obtain rfl := (recordsInv_of_inv inv).slot_unique hr ha rfl hx (hid.symm.trans hs.dynId)
    cases h with
    | same => cases hr'; exact ⟨rfl, rfl, rfl, rfl⟩
    | full record squashed =>
      cases hr'
      exact ⟨by rw [squashed rfl], record.pc, record.raw, record.fields⟩
  by_cases hrun : o.status = .running
  · obtain ⟨-, a, ha, hab⟩ | ⟨-, hi, -⟩ := ((edgeCase o).occupantsMove hrun).origin hsl' hr'
    · exact kept ha hab
    · have := inv.nextId _ hr r rfl
      omega
  · rw [edge_of_stopped hrun] at hsl'
    exact kept hsl' (.same _)

end Sys2Proof.Machine
end

section
/-! PROOFS. Every part of the invariant is kept by an edge, and so by every step and command. -/

namespace Sys2Proof.Machine

/-! ### Memory and registers at an edge -/

theorem regs_zero_wbStage {o s : State} (h : s.regs[0] = 0#64) : (wbStage o s).regs[0] = 0#64 := by
  obtain ⟨r, -, -, e⟩ | ⟨-, e⟩ | ⟨r, -, -, e⟩ := wbStage_cases o s <;> rw [e]
  · show (retire r s).regs[0] = 0#64
    rw [retire_regs]
    split
    · exact regs_zero_writeReg h _ _
    · exact h
  · exact h
  · exact h

theorem EdgeCase.regs_zero {o t : State} (h : EdgeCase o t) (hz : o.regs[0] = 0#64) : t.regs[0] = 0#64 := by
  have hw : (wbStage o o.tick).regs[0] = 0#64 := regs_zero_wbStage hz
  cases h with
  | stopped => exact hz
  | frozen => exact hz
  | faulted => simpa [takeMemoryRange] using hw
  | plain => simpa using hw

theorem MemCase.memoryWithin {o s t : State} (h : MemCase o s t) (hm : MemoryWithin s.memSize s.mem) :
    MemoryWithin s.memSize t.mem := by
  cases h with
  | moves => exact hm
  | fails => exact hm
  | accesses a _ _ _ _ _ memory => exact memory hm

theorem EdgeCase.memoryWithin {o t : State} (h : EdgeCase o t) (hm : MemoryWithin o.memSize o.mem) :
    MemoryWithin o.memSize t.mem := by
  cases h with
  | stopped => exact hm
  | frozen => exact hm
  | faulted => simpa [takeMemoryRange] using hm
  | plain =>
    have := (memCase o (wbStage o o.tick)).memoryWithin (by simpa using hm)
    simpa using this

/-! ### The caches and their stall counters at an edge -/

/-- An access keeps a cache within its bounds. -/
theorem cacheInv_access {c : CacheConfig} {k : Cache} (hl : cacheLegal c = true) (h : CacheInv c k) (a : Word) :
    CacheInv c (k.access c a).2 where
  canonical := Cache.access_canonical h.canonical a
  index i hi := by
    have := cacheIndex_lt hl a
    rw [Cache.set_access_ne (by omega), h.index i hi]
  bound i := by
    by_cases hi : i = cacheIndex c a
    · rw [hi, Cache.set_access_eq h.canonical]
      exact touch_length (ways_pos hl) (h.bound _)
    · rw [Cache.set_access_ne hi]
      exact h.bound i
  nodup i := by
    by_cases hi : i = cacheIndex c a
    · rw [hi, Cache.set_access_eq h.canonical]
      exact touch_nodup (h.nodup _)
    · rw [Cache.set_access_ne hi]
      exact h.nodup i

/-- What the invariant says of the instruction cache and its stall counter. -/
structure FetchInv (s : State) : Prop where
  icache      : CacheInv s.ic s.icache
  fetches     : s.icache.hits + s.icache.misses ≤ s.nextDynId
  iStallBound : s.iStall ≤ s.ic.missLatency + icExtraStall

theorem FetchInv.congr {o s : State} (h : FetchInv o) (hc : s.ic = o.ic) (hk : s.icache = o.icache)
    (hn : s.nextDynId = o.nextDynId) (hi : s.iStall ≤ o.iStall) : FetchInv s where
  icache := by rw [hc, hk]; exact h.icache
  fetches := by rw [hk, hn]; exact h.fetches
  iStallBound := by rw [hc]; exact hi.trans h.iStallBound

theorem FetchInv.fetch {o s : State} (h : FetchInv o) (hl : cacheLegal o.ic = true) (tag : Tag) (hc : s.ic = o.ic)
    (hk : s.icache = o.icache) (hn : s.nextDynId = o.nextDynId) : FetchInv (fetch tag s) := by
  have hf := h.fetches
  obtain ⟨w, -, -, e, ei⟩ | ⟨x, -, -, e, ei⟩ := fetch_cases s tag
  · have hcount := Cache.access_count s.ic s.icache s.fetchPc
    constructor
    · rw [e, fetch_ic, hc, hk]; exact cacheInv_access hl h.icache _
    · rw [e, hcount, hk, fetch_nextDynId, hn]; omega
    · rw [ei, fetch_ic]; split <;> omega
  · constructor
    · rw [e, fetch_ic, hc, hk]; exact h.icache
    · rw [e, hk, fetch_nextDynId, hn]; omega
    · rw [ei]; omega

theorem FrontEndCase.fetchInv {o t : State} (h : FrontEndCase o (midEdge o) t) (ho : FetchInv o)
    (hl : cacheLegal o.ic = true) : FetchInv t := by
  have hc : (midEdge o).ic = o.ic := by simp
  have hk : (midEdge o).icache = o.icache := by simp
  have hn : (midEdge o).nextDynId = o.nextDynId := by simp
  have hi : (midEdge o).iStall = o.iStall := by simp
  cases h with
  | stalled => exact ho.congr hc hk hn (hi ▸ Nat.sub_le _ _)
  | raised => exact ho.fetch hl _ hc hk hn
  | redirected => exact ho.fetch hl _ hc hk hn
  | halted => exact ho.congr hc hk hn (Nat.zero_le _)
  | pending => exact ho.congr hc hk hn (hi ▸ Nat.sub_le _ _)
  | stopped => exact ho.congr hc hk hn hi.le
  | advanced => exact ho.fetch hl _ hc hk hn

theorem EdgeCase.fetchInv {o t : State} (h : EdgeCase o t) (ho : FetchInv o) (hl : cacheLegal o.ic = true) :
    FetchInv t := by
  cases h with
  | stopped => exact ho
  | frozen => exact ho.congr rfl rfl rfl (Nat.sub_le _ _)
  | faulted => exact ho.fetch hl _ (by simp) (by simp) (by simp)
  | plain => exact (frontEndCase o _).fetchInv ho hl

/-- What the invariant says of the data cache and its stall counter. -/
structure DataInv (s : State) : Prop where
  dcache      : CacheInv s.dc s.dcache
  dStallBound : s.dStall ≤ s.dc.missLatency

theorem DataInv.congr {o s : State} (h : DataInv o) (hc : s.dc = o.dc) (hk : s.dcache = o.dcache)
    (hd : s.dStall ≤ o.dStall) : DataInv s where
  dcache := by rw [hc, hk]; exact h.dcache
  dStallBound := by rw [hc]; exact hd.trans h.dStallBound

theorem DataInv.accessDC {s : State} (h : DataInv s) (hl : cacheLegal s.dc = true) (a : Word) :
    DataInv (s.accessDC a) where
  dcache := cacheInv_access hl h.dcache a
  dStallBound := by
    have := h.dStallBound
    unfold State.accessDC
    dsimp only
    split <;> omega

theorem MemCase.dataInv {o s t : State} (h : MemCase o s t) (hs : DataInv s) (hl : cacheLegal s.dc = true) :
    DataInv t := by
  cases h with
  | moves => exact hs.congr rfl rfl le_rfl
  | fails => exact hs.congr rfl rfl le_rfl
  | @accesses _ _ _ a mem =>
    have : DataInv { s with mem := mem } := hs.congr rfl rfl le_rfl
    exact (this.accessDC hl a).congr rfl rfl le_rfl

theorem EdgeCase.dataInv {o t : State} (h : EdgeCase o t) (ho : DataInv o) (hl : cacheLegal o.dc = true) :
    DataInv t := by
  cases h with
  | stopped => exact ho
  | frozen => exact ho.congr rfl rfl (Nat.sub_le _ _)
  | faulted => exact ho.congr (by simp [takeMemoryRange]) (by simp [takeMemoryRange]) (by simp [takeMemoryRange])
  | plain =>
    have hw : DataInv (wbStage o o.tick) := ho.congr (by simp) (by simp) (by simp)
    have hm := (memCase o (wbStage o o.tick)).dataInv hw (by simpa using hl)
    exact hm.congr (by simp) (by simp) (by simp)

/-! ### What each slot may hold -/

/-- The slot holds no SPECULATIVE record. -/
def Slot.Settled (sl : Slot) : Prop := ∀ r, sl ≠ .full .speculative r

/-- The slot's live record is legal. -/
def Slot.Legal (sl : Slot) : Prop := ∀ r, sl.live? = some r → r.flags.legal = true

/-- The slot's live record has no failed access. -/
def Slot.Faultless (sl : Slot) : Prop := ∀ r, sl.live? = some r → r.memFault = false

/-- What may stand in EX and WB. -/
structure Slot.Issued (sl : Slot) : Prop where
  settled   : sl.Settled
  legal     : sl.Legal
  faultless : sl.Faultless

/-- What may stand in MEM while the data-cache stall counter is `dStall`. -/
structure Slot.InMem (sl : Slot) (dStall : Nat) : Prop where
  settled : sl.Settled
  legal   : sl.Legal
  pending : ∀ r, sl.live? = some r → r.memFault = true →
    dStall = 0 ∧ (r.flags.readsMem = true ∨ r.flags.writesMem = true)
  freeze  : 0 < dStall → ∃ r, sl.live? = some r ∧ (r.flags.readsMem = true ∨ r.flags.writesMem = true)

theorem settled_of_dead {sl : Slot} (h : sl.live? = none) : sl.Settled := by
  rintro r rfl
  cases h

/-- A slot with no live record may stand anywhere. -/
theorem issued_of_dead {sl : Slot} (h : sl.live? = none) : sl.Issued :=
  ⟨settled_of_dead h, fun r hr => by simp [h] at hr, fun r hr => by simp [h] at hr⟩

theorem Slot.Issued.inMem {sl : Slot} (h : sl.Issued) : sl.InMem 0 where
  settled := h.settled
  legal := h.legal
  pending r hr hf := by rw [h.faultless r hr] at hf; cases hf
  freeze h := absurd h (Nat.lt_irrefl 0)

theorem settled_normal (r : Record) : Slot.Settled (.full .normal r) := by
  intro x h
  cases h

theorem settled_settle (sl : Slot) : sl.settle.Settled := by
  cases sl with
  | full tag r =>
    cases tag with
    | squashed => exact settled_of_dead rfl
    | _ => exact settled_normal r
  | _ => exact settled_of_dead rfl

theorem Slot.Faultless.settle {sl : Slot} (h : sl.Faultless) : sl.settle.Faultless := by
  unfold Slot.Faultless
  rw [live_settle]
  exact h

theorem faultless_fetch (tag : Tag) (s : State) : (fetch tag s).slotIF.Faultless := by
  obtain ⟨r, e, -, -, hf⟩ := fetch_slotIF tag s
  rw [e]
  intro x hx
  cases tag <;> cases hx
  · exact hf
  · exact hf

/-- A legal record may go from ID into EX. -/
theorem issued_intoEX (o s : State) (legal : o.slotID.Legal) (faultless : o.slotID.Faultless) :
    (intoEX o s).Issued := by
  obtain ⟨d, hd, e⟩ | ⟨hd, e⟩ := intoEX_cases o s <;> rw [e]
  · obtain ⟨hs, hf⟩ := sameFetch_execute d o.slotEX s
    refine ⟨settled_normal _, fun r hr => ?_, fun r hr => ?_⟩ <;> cases hr
    · rw [hs.flags, legal d hd]
    · rw [hf, faultless d hd]
  · exact issued_of_dead hd

/-- Whether a slot is live depends on its tag alone. -/
theorem live_full_of_same_tag {tag : Tag} {r r' x : Record} (hr : Slot.live? (.full tag r) = some x) :
    Slot.live? (.full tag r') = some r' := by
  cases tag
  · rfl
  · rfl
  · cases hr

/-- After the MEM step a fault is pending only without a freeze, and a freeze only behind an access. -/
theorem MemCase.inMem {o s t : State} (h : MemCase o s t) (hd : s.dStall = 0) (ho : o.slotEX.Issued) :
    t.slotMEM.InMem t.dStall := by
  cases h with
  | moves => rw [hd]; exact ho.inMem
  | @fails tag r r' slot live access record =>
    have hl := live_full_of_same_tag (r' := r') (slot ▸ live)
    refine ⟨fun x e => ?_, fun x hx => ?_, fun x hx _ => ?_, fun hp => ?_⟩
    · cases e; exact ho.settled r slot
    · cases hl.symm.trans hx; rw [record.flags, ho.legal r live]
    · cases hl.symm.trans hx; exact ⟨hd, by rwa [record.flags]⟩
    · simp [hd] at hp
  | @accesses tag r r' a mem slot live access record fault =>
    have hl := live_full_of_same_tag (r' := r') (slot ▸ live)
    refine ⟨fun x e => ?_, fun x hx => ?_, fun x hx hf => ?_, fun _ => ⟨r', hl, by rwa [record.flags]⟩⟩
    · cases e; exact ho.settled r slot
    · cases hl.symm.trans hx; rw [record.flags, ho.legal r live]
    · cases hl.symm.trans hx; rw [fault, ho.faultless r live] at hf; cases hf

/-- What the invariant says of each slot. -/
structure SlotsInv (s : State) : Prop where
  slotIF      : s.slotIF.Faultless
  settledID   : s.slotID.Settled
  faultlessID : s.slotID.Faultless
  slotEX      : s.slotEX.Issued
  slotMEM     : s.slotMEM.InMem s.dStall
  slotWB      : s.slotWB.Issued

theorem slotsInv_of_inv {s : State} (h : Inv s) : SlotsInv s where
  slotIF := h.memFault _ (by simp)
  settledID := h.speculative _ (by simp)
  faultlessID := h.memFault _ (by simp)
  slotEX := ⟨h.speculative _ (by simp), h.legal _ (by simp), h.memFault _ (by simp)⟩
  slotMEM := ⟨h.speculative _ (by simp), h.legal _ (by simp),
    fun r hr hf => ⟨h.memFaultNoFreeze r hr hf, h.memFaultAccess r hr hf⟩, h.freeze⟩
  slotWB := ⟨h.speculative _ (by simp), h.legal _ (by simp), h.memFault _ (by simp)⟩

/-- A fetch leaves the older slots as they are. -/
theorem slotsInv_fetch {s : State} (tag : Tag) (settledID : s.slotID.Settled) (faultlessID : s.slotID.Faultless)
    (slotEX : s.slotEX.Issued) (slotMEM : s.slotMEM.InMem s.dStall) (slotWB : s.slotWB.Issued) :
    SlotsInv (fetch tag s) where
  slotIF := faultless_fetch tag s
  settledID := by rwa [fetch_slotID]
  faultlessID := by rwa [fetch_slotID]
  slotEX := by rwa [fetch_slotEX]
  slotMEM := by rwa [fetch_slotMEM, fetch_dStall]
  slotWB := by rwa [fetch_slotWB]

theorem FrontEndCase.slotsInv {o t : State} (h : FrontEndCase o (midEdge o) t) (ho : SlotsInv o)
    (hMEM : (midEdge o).slotMEM.InMem (midEdge o).dStall) (hWB : (midEdge o).slotWB.Issued) : SlotsInv t := by
  have hIF : (midEdge o).slotIF = o.slotIF := by simp
  have hID : (midEdge o).slotID = o.slotID := by simp
  have squashed (sl : Slot) : sl.squash.Issued := issued_of_dead (live_squash sl)
  have bubble : Slot.Issued .bubble := issued_of_dead rfl
  have hEX (legal : o.slotID.Legal) := issued_intoEX o (midEdge o) legal ho.faultlessID
  have legal {d : Record} (live : o.slotID.live? = some d) (hl : d.flags.legal = true) : o.slotID.Legal := by
    intro x hx
    cases live.symm.trans hx
    exact hl
  cases h with
  | stalled => exact ⟨hIF ▸ ho.slotIF, hID ▸ ho.settledID, hID ▸ ho.faultlessID, bubble, hMEM, hWB⟩
  | raised => exact slotsInv_fetch _ (squashed _).settled (squashed _).faultless (squashed _) hMEM hWB
  | redirected target live hl =>
    exact slotsInv_fetch _ (squashed _).settled (squashed _).faultless (hEX (legal live hl.1)) hMEM hWB
  | halted live hl =>
    exact ⟨bubble.faultless, (squashed _).settled, (squashed _).faultless, hEX (legal live hl.1), hMEM, hWB⟩
  | pending quiet =>
    exact ⟨hIF ▸ ho.slotIF, bubble.settled, bubble.faultless, hEX fun d hd => (quiet d hd).1, hMEM, hWB⟩
  | stopped quiet =>
    exact ⟨bubble.faultless, settled_settle _, ho.slotIF.settle, hEX fun d hd => (quiet d hd).1, hMEM, hWB⟩
  | advanced tag quiet =>
    exact slotsInv_fetch tag (settled_settle _) ho.slotIF.settle (hEX fun d hd => (quiet d hd).1) hMEM hWB

/-- The MEM occupant whose access did not fail may stand in WB, and a faulting one moves in squashed. -/
theorem issued_wbStage (o s : State) (ho : o.slotMEM.InMem o.dStall) : (wbStage o s).slotWB.Issued := by
  obtain ⟨r, hr, hf, e⟩ | ⟨hn, e⟩ | ⟨r, -, -, e⟩ := wbStage_cases o s <;> rw [e]
  · exact ⟨ho.settled, ho.legal, fun x hx => by cases hr.symm.trans hx; exact hf⟩
  · exact issued_of_dead hn
  · exact issued_of_dead (live_squash _)

theorem EdgeCase.slotsInv {o t : State} (h : EdgeCase o t) (ho : SlotsInv o) : SlotsInv t := by
  cases h with
  | stopped => exact ho
  | frozen _ wait =>
    refine ⟨ho.slotIF, ho.settledID, ho.faultlessID, ho.slotEX, ⟨ho.slotMEM.settled, ho.slotMEM.legal,
      fun r hr hf => ?_, fun _ => ho.slotMEM.freeze wait⟩, issued_of_dead rfl⟩
    have := (ho.slotMEM.pending r hr hf).1
    omega
  | faulted _ ready =>
    have squashed (sl : Slot) : sl.squash.Issued := issued_of_dead (live_squash sl)
    have hd : (wbStage o o.tick).dStall = 0 := by simpa using ready
    exact slotsInv_fetch _ (squashed _).settled (squashed _).faultless (squashed _)
      (by simpa [ready] using (squashed o.slotEX).inMem) (issued_wbStage o o.tick ho.slotMEM)
  | plain _ ready =>
    exact (frontEndCase o _).slotsInv ho ((memCase o _).inMem (by simpa using ready) ho.slotEX)
      (by simpa using issued_wbStage o o.tick ho.slotMEM)

/-! ### Halts and the fetch stop -/

/-- What the invariant says of halts and the fetch stop. -/
structure HaltInv (s : State) : Prop where
  haltEX       : liveHalt s.slotEX → s.fetchStopped = true
  haltMEM      : liveHalt s.slotMEM → s.fetchStopped = true ∧ s.slotEX.live? = none
  haltWB       : liveHalt s.slotWB → s.status ≠ .running ∧ s.slotMEM.live? = none ∧ s.slotEX.live? = none
  fetchStopped : s.fetchStopped = true → s.slotID.live? = none ∧ s.slotIF.live? = none ∧ s.iStall = 0
  stopCause    : s.fetchStopped = true → liveHalt s.slotEX ∨ liveHalt s.slotMEM ∨ s.status ≠ .running

theorem haltInv_of_inv {s : State} (h : Inv s) : HaltInv s :=
  ⟨h.haltEX, h.haltMEM, h.haltWB, h.fetchStopped, h.stopCause⟩

theorem not_liveHalt_of_dead {sl : Slot} (h : sl.live? = none) : ¬ liveHalt sl := by
  rintro ⟨r, hr, -⟩
  rw [h] at hr
  cases hr

/-- A live slot was live before it moved, with the same flags. -/
theorem Becomes.live {a b : Slot} (h : Becomes a b) {r' : Record} (hr : b.live? = some r') :
    ∃ r, a.live? = some r ∧ SameFetch r r' := by
  cases h with
  | same => exact ⟨r', hr, .refl r'⟩
  | @full tag tag' r _ record squashed =>
    cases tag with
    | squashed => rw [squashed rfl] at hr; cases hr
    | _ => cases tag' <;> cases hr <;> exact ⟨r, rfl, record⟩

theorem Becomes.dead {a b : Slot} (h : Becomes a b) (ha : a.live? = none) : b.live? = none := by
  cases hb : b.live? with
  | none => rfl
  | some r' =>
    obtain ⟨r, hr, -⟩ := h.live hb
    rw [ha] at hr
    cases hr

theorem Becomes.liveHalt {a b : Slot} (h : Becomes a b) (hb : liveHalt b) : liveHalt a := by
  obtain ⟨r', hr, hf⟩ := hb
  obtain ⟨r, hr, hs⟩ := h.live hr
  exact ⟨r, hr, by rwa [hs.flags] at hf⟩

/-- A halt in EX moves into MEM. -/
theorem MemCase.liveHalt {o s t : State} (h : MemCase o s t) (ho : liveHalt o.slotEX) : liveHalt t.slotMEM := by
  obtain ⟨x, hx, hf⟩ := ho
  cases h with
  | moves => exact ⟨x, hx, hf⟩
  | fails slot live _ record =>
    cases hx.symm.trans live
    exact ⟨_, live_full_of_same_tag (slot ▸ live), by rwa [record.flags]⟩
  | accesses a slot live _ record =>
    cases hx.symm.trans live
    exact ⟨_, live_full_of_same_tag (slot ▸ live), by rwa [record.flags]⟩

/-- A halt in ID moves into EX. -/
theorem liveHalt_intoEX (o s : State) {d : Record} (live : o.slotID.live? = some d) (hd : d.flags.halt = true) :
    liveHalt (intoEX o s) := by
  obtain ⟨x, hx, e⟩ | ⟨hn, -⟩ := intoEX_cases o s
  · cases live.symm.trans hx
    exact ⟨_, by rw [e]; rfl, by rw [(sameFetch_execute d o.slotEX s).1.flags, hd]⟩
  · rw [live] at hn
    cases hn

/-- The WB step ends a run exactly by retiring a halt. -/
theorem wbStage_status (o s : State) (sound : ∀ m, o.slotMEM.live? = some m → m.memFault = false) :
    (liveHalt o.slotMEM ∧ (wbStage o s).status = if s.excRaised then .illegal else .halt) ∨
    (¬ liveHalt o.slotMEM ∧ (wbStage o s).status = s.status) := by
  obtain ⟨r, hr, -, e⟩ | ⟨hn, e⟩ | ⟨r, hr, hf, -⟩ := wbStage_cases o s
  · rw [e]
    cases hh : r.flags.halt with
    | true => exact .inl ⟨⟨r, hr, hh⟩, by simp [hh]⟩
    | false =>
      refine .inr ⟨?_, by simp [hh]⟩
      rintro ⟨x, hx, hxh⟩
      cases hr.symm.trans hx
      rw [hh] at hxh
      cases hxh
  · exact .inr ⟨not_liveHalt_of_dead hn, by rw [e]⟩
  · rw [sound r hr] at hf
    cases hf

/-- With fetching stopped and nothing live in ID, the front end lets the last occupants run out. -/
theorem frontEnd_of_stopped {o s : State} (hID : o.slotID.live? = none) (ready : s.iStall = 0)
    (stop : s.fetchStopped = true) :
    frontEnd o s = { s with slotEX := o.slotID, slotID := o.slotIF.settle, slotIF := .bubble } := by
  have e : idEvent o s = .none := by simp [idEvent, hID]
  simp [frontEnd, e, flow, ready, stop, intoEX, hID]

/-- The front end stops fetching exactly by letting a halt into EX. -/
theorem FrontEndCase.stops {o s t : State} (h : FrontEndCase o s t) (hs : s.fetchStopped = false) :
    (t.fetchStopped = false ∧ ¬ liveHalt t.slotEX) ∨
    (t.fetchStopped = true ∧ liveHalt t.slotEX ∧ t.slotID.live? = none ∧ t.slotIF.live? = none ∧ t.iStall = 0) := by
  have quietEX (quiet : ∀ d, o.slotID.live? = some d → d.flags.legal = true ∧ d.flags.halt = false) :
      ¬ liveHalt (intoEX o s) := by
    intro hh
    obtain ⟨d, hd, hx⟩ := (becomes_intoEX o s).liveHalt hh
    rw [(quiet d hd).2] at hx
    cases hx
  cases h with
  | stalled => exact .inl ⟨hs, not_liveHalt_of_dead rfl⟩
  | raised =>
    exact .inl ⟨by simp [takeIdException, excKind_ne_memoryRange, hs], by simp [takeIdException, liveHalt]⟩
  | redirected target live legal =>
    refine .inl ⟨by simp [redirectTo, hs], ?_⟩
    unfold redirectTo
    rw [fetch_slotEX]
    exact quietEX fun x hx => by cases live.symm.trans hx; exact legal
  | halted live legal => exact .inr ⟨rfl, liveHalt_intoEX o s live legal.2, live_squash _, rfl, rfl⟩
  | pending quiet => exact .inl ⟨hs, quietEX quiet⟩
  | stopped _ _ stop => rw [hs] at stop; cases stop
  | advanced tag quiet =>
    exact .inl ⟨by simp [hs], by rw [fetch_slotEX]; exact quietEX quiet⟩

/-- While fetching is stopped a plain edge lets the halt run out. -/
theorem haltInv_plain_stopped {o : State} (ho : HaltInv o) (run : o.status = .running)
    (sound : ∀ m, o.slotMEM.live? = some m → m.memFault = false) (hs : o.fetchStopped = true) :
    HaltInv (frontEnd o (midEdge o)) := by
  obtain ⟨hID, hIF, hi⟩ := ho.fetchStopped hs
  obtain ⟨hMEM, hWB⟩ := midEdge_becomes o
  have stop : (midEdge o).fetchStopped = true := by simpa using hs
  have ready : (midEdge o).iStall = 0 := by simpa using hi
  have ended : liveHalt o.slotMEM → (midEdge o).status ≠ .running := by
    intro hm
    obtain ⟨-, e⟩ | ⟨hn, -⟩ := wbStage_status o o.tick sound
    · rw [memStage_status, e]; split <;> nofun
    · exact absurd hm hn
  rw [frontEnd_of_stopped hID ready stop]
  exact {
    haltEX := fun _ => stop
    haltMEM := fun _ => ⟨stop, hID⟩
    haltWB := fun h => ⟨ended (hWB.liveHalt h), hMEM.dead (ho.haltMEM (hWB.liveHalt h)).2, hID⟩
    fetchStopped := fun _ => ⟨by simpa using hIF, rfl, ready⟩
    stopCause := fun _ => by
      rcases ho.stopCause hs with h | h | h
      · exact .inr (.inl ((memCase o _).liveHalt h))
      · exact .inr (.inr (ended h))
      · exact absurd run h }

/-- While fetching goes on no halt is past ID, and a plain edge can only let one into EX. -/
theorem haltInv_plain_fetching {o : State} (ho : HaltInv o) (hs : o.fetchStopped = false) :
    HaltInv (frontEnd o (midEdge o)) := by
  obtain ⟨hMEM, hWB⟩ := midEdge_becomes o
  have going {p : Prop} (h : o.fetchStopped = true) : p := by rw [hs] at h; cases h
  have noMEM (h : liveHalt (frontEnd o (midEdge o)).slotMEM) : o.fetchStopped = true := by
    rw [frontEnd_slotMEM] at h
    exact ho.haltEX (hMEM.liveHalt h)
  have noWB (h : liveHalt (frontEnd o (midEdge o)).slotWB) : o.fetchStopped = true := by
    rw [frontEnd_slotWB] at h
    exact (ho.haltMEM (hWB.liveHalt h)).1
  obtain ⟨stop, noEX⟩ | ⟨stop, halt, dead⟩ := (frontEndCase o (midEdge o)).stops (by simpa using hs)
  · exact {
      haltEX := fun h => absurd h noEX
      haltMEM := fun h => going (noMEM h)
      haltWB := fun h => going (noWB h)
      fetchStopped := fun h => by rw [stop] at h; cases h
      stopCause := fun h => by rw [stop] at h; cases h }
  · exact {
      haltEX := fun _ => stop
      haltMEM := fun h => going (noMEM h)
      haltWB := fun h => going (noWB h)
      fetchStopped := fun _ => dead
      stopCause := fun _ => .inl halt }

/-- A faulting MEM occupant does not retire. -/
theorem wbStage_of_fault {o s : State} {m : Record} (live : o.slotMEM.live? = some m) (fault : m.memFault = true) :
    wbStage o s = { s with slotWB := o.slotMEM.squash } := by
  simp [wbStage, memFaulting, live, fault]

theorem EdgeCase.haltInv {o t : State} (h : EdgeCase o t) (ho : HaltInv o) : HaltInv t := by
  cases h with
  | stopped => exact ho
  | frozen =>
    refine ⟨ho.haltEX, ho.haltMEM, fun h => absurd h (not_liveHalt_of_dead rfl), fun h => ?_, ho.stopCause⟩
    obtain ⟨hID, hIF, hi⟩ := ho.fetchStopped h
    exact ⟨hID, hIF, by simp [freeze, hi]⟩
  | faulted _ _ live fault =>
    rw [wbStage_of_fault live fault]
    have squashed (sl : Slot) : ¬ liveHalt sl.squash := not_liveHalt_of_dead (live_squash sl)
    constructor <;> simp [takeMemoryRange, squashed]
  | plain run _ sound =>
    cases hs : o.fetchStopped with
    | true => exact haltInv_plain_stopped ho run sound hs
    | false => exact haltInv_plain_fetching ho hs

/-- A run that has ended is ILLEGAL exactly if an exception was raised. -/
def EndStatus (s : State) : Prop :=
  (s.status = .illegal → s.excRaised = true) ∧ (s.status = .halt → s.excRaised = false)

theorem endStatus_of_running {s : State} (h : s.status = .running) : EndStatus s := by
  simp [EndStatus, h]

theorem EdgeCase.endStatus {o t : State} (h : EdgeCase o t) (ho : HaltInv o) (he : EndStatus o) : EndStatus t := by
  cases h with
  | stopped => exact he
  | frozen run => exact endStatus_of_running run
  | faulted run _ live fault =>
    apply endStatus_of_running
    rw [wbStage_of_fault live fault]
    simpa [takeMemoryRange] using run
  | plain run _ sound =>
    obtain ⟨halt, e⟩ | ⟨-, e⟩ := wbStage_status o o.tick sound
    · obtain ⟨hID, -, hi⟩ := ho.fetchStopped (ho.haltMEM halt).1
      have hs := (ho.haltMEM halt).1
      rw [frontEnd_of_stopped hID (by simpa using hi) (by simpa using hs)]
      cases hx : o.excRaised <;> simp [EndStatus, e, hx]
    · exact endStatus_of_running (by simpa [e] using run)

end Sys2Proof.Machine

/-! ### The invariant is kept -/

namespace Sys2Proof

open Sys2Proof.Machine

/-- An edge of a pipelined session keeps the invariant. -/
theorem Inv.edge {o : State} (h : Inv o) (hm : o.mode = some .pipelined) (hl : o.configLegal = true) :
    Inv (edge o) := by
  have he := edgeCase o
  have conf := edge_configuration o
  have mode : (Machine.edge o).mode = some .pipelined := conf.mode.trans hm
  obtain ⟨legalIC, legalDC⟩ : cacheLegal o.ic = true ∧ cacheLegal o.dc = true := by
    simpa [State.configLegal] using hl
  have memory : MemoryWithin (Machine.edge o).memSize (Machine.edge o).mem := by
    rw [conf.memSize]; exact he.memoryWithin h.memoryWithin
  have fetching := he.fetchInv ⟨h.icache, h.fetches, h.iStallBound⟩ legalIC
  have data := he.dataInv ⟨h.dcache, h.dStallBound⟩ legalDC
  have slots := he.slotsInv (slotsInv_of_inv h)
  have halts := he.haltInv (haltInv_of_inv h)
  have records : RecordsInv (Machine.edge o) := by
    by_cases run : o.status = .running
    · exact (he.occupantsMove run).recordsInv (recordsInv_of_inv h)
    · rw [edge_of_stopped run]; exact recordsInv_of_inv h
  exact {
    memory := memory.wf
    memoryRange := memory.range
    zero := he.regs_zero h.zero
    icache := fetching.icache
    dcache := data.dcache
    records := records.records
    ids := (ids_iff _).2 records.ids
    nextId := records.nextId
    fetches := fetching.fetches
    speculative := by
      simpa using ⟨slots.settledID, slots.slotEX.settled, slots.slotMEM.settled, slots.slotWB.settled⟩
    legal := by simpa using ⟨slots.slotEX.legal, slots.slotMEM.legal, slots.slotWB.legal⟩
    memFault := by
      simpa using ⟨slots.slotIF, slots.faultlessID, slots.slotEX.faultless, slots.slotWB.faultless⟩
    memFaultNoFreeze := fun r hr hf => (slots.slotMEM.pending r hr hf).1
    memFaultAccess := fun r hr hf => (slots.slotMEM.pending r hr hf).2
    iStallBound := fetching.iStallBound
    dStallBound := data.dStallBound
    freeze := slots.slotMEM.freeze
    haltEX := halts.haltEX
    haltMEM := halts.haltMEM
    haltWB := halts.haltWB
    fetchStopped := halts.fetchStopped
    stopCause := halts.stopCause
    endStatus := fun _ => he.endStatus (haltInv_of_inv h) (h.endStatus hm)
    unused := fun hu => absurd mode hu
    unstarted := fun hn => by rw [mode] at hn; cases hn }

/-- Settles O58: an edge by the parts of the invariant, a functional step with the pipeline unused. -/
theorem invariantKept : Obligations.InvariantKept := by
  intro s t h hs
  obtain ⟨hl, hm, rfl⟩ | ⟨hm, hs⟩ := step_cases hs
  · exact h.edge hm hl
  · exact ((h.startFunctional hm).functionalStep_next rfl hs).1

theorem Inv.edges {s : State} (h : Inv s) (hm : s.mode = some .pipelined) (hl : s.configLegal = true) (n : Nat) :
    Inv (edges n s) := by
  induction n generalizing s with
  | zero => exact h
  | succ n ih =>
    have conf := edge_configuration s
    refine ih (h.edge hm hl) (conf.mode.trans hm) ?_
    rw [State.configLegal, conf.ic, conf.dc]
    exact hl

theorem Inv.runCycles_next {s t : State} {n : Nat} (h : Inv s) (hs : runCycles n s = .next t) : Inv t := by
  obtain ⟨hl, hm, rfl⟩ := Machine.runCycles_next hs
  exact (h.startPipelined hm).edges rfl hl n

theorem Inv.runInstructions_next {s t : State} {n : Nat} (h : Inv s) (hs : runInstructions n s = .next t) : Inv t := by
  obtain ⟨-, hm, hs⟩ := Machine.runInstructions_next hs
  exact ((h.startFunctional (by rcases hm with hm | hm <;> simp [hm])).functionalSteps_next rfl n hs).1

theorem Inv.runUntilStop_next {s t : State} {m : RunMode} (h : Inv s) (fuel : Nat)
    (hs : runUntilStop m fuel s = .next t) : Inv t := by
  induction fuel generalizing s with
  | zero => cases hs; exact h
  | succ fuel ih =>
    unfold runUntilStop at hs
    split at hs
    · cases hu : runOne m s with
      | next u =>
        rw [hu] at hs
        cases m with
        | pipelined => exact ih (h.runCycles_next hu) hs
        | functional => exact ih (h.runInstructions_next hu) hs
      | fault f => rw [hu] at hs; cases hs
      | refused r => rw [hu] at hs; cases hs
    · cases hs; exact h

theorem inv_hostReset (b : BootParams) (s : State) : Inv (s.hostReset b) := by
  obtain ⟨mem, hm, e⟩ := hostReset_eq b s
  rw [e]
  exact inv_resetWith b s hm

/-- Settles O59, command by command. -/
theorem invariantKeptByCommands : Obligations.InvariantKeptByCommands := by
  intro s t c h hc hs
  cases c with
  | configure c => exact absurd rfl (hc c)
  | reset b => cases hs; exact inv_hostReset b s
  | loadImage base bytes => exact h.loadImage_next hs
  | runCycles n => exact h.runCycles_next hs
  | runInstructions n => exact h.runInstructions_next hs
  | runUntilStop m fuel =>
    simp only [hostCommand] at hs
    split at hs
    · cases hs
    · exact h.runUntilStop_next fuel hs

end Sys2Proof
end

section
/-! PROOFS. The memory store, byte by byte, and the step that runs what stands in it (20_memory.md R46 to R50). -/

namespace Sys2Proof.Machine

/-! ### Bytes and little-endian values -/

/-- Byte `k` of a word is its digit `k` to the base 256. -/
theorem byteOf_eq_ofNat (v : Word) (k : Nat) : byteOf v k = BitVec.ofNat 8 (v.toNat / 256 ^ k) := by
  apply BitVec.eq_of_toNat_eq
  simp [byteOf, Nat.shiftRight_eq_div_pow, Nat.pow_mul]

theorem leValue_lt (s : State) (a n : Nat) : leValue s a n < 256 ^ n := by
  induction n generalizing a with
  | zero => exact Nat.one_pos
  | succ n ih =>
    have hb := (s.readByte a).isLt
    have hv := ih (a + 1)
    rw [leValue, Nat.pow_succ]
    omega

/-- A load of at most a word's bytes has their little-endian value (20_memory.md R47). -/
theorem Memory.load_toNat (s : State) (a : Nat) {n : Nat} (hn : n ≤ 8) :
    (Memory.load s.mem a n).toNat = leValue s a n := by
  induction n generalizing a with
  | zero => rfl
  | succ n ih =>
    have hb : (Memory.byte s.mem a).toNat < 2 ^ 8 := (Memory.byte s.mem a).isLt
    have hv : leValue s (a + 1) n < 256 ^ 7 :=
      (leValue_lt s (a + 1) n).trans_le (Nat.pow_le_pow_right (by omega) (by omega))
    have hs : leValue s (a + 1) n <<< 8 % 2 ^ 64 = leValue s (a + 1) n <<< 8 :=
      Nat.mod_eq_of_lt (by rw [Nat.shiftLeft_eq]; omega)
    rw [Memory.load, BitVec.toNat_or, BitVec.toNat_shiftLeft, ih (a + 1) (by omega), hs, BitVec.toNat_setWidth,
      Nat.mod_eq_of_lt (by omega), ← Nat.shiftLeft_add_eq_or_of_lt hb, Nat.shiftLeft_eq, leValue, State.readByte]
    omega

/-! ### MemRead and MemWrite -/

theorem memRead_of_le {s : State} {a : Word} {n : Nat} (h : a.toNat + n ≤ s.memSize) :
    s.memRead a n = .ok (Memory.load s.mem a.toNat n) := if_pos ((inRange_iff s a n).2 h)

theorem memWrite_of_le {s : State} {a : Word} {n : Nat} (v : Word) (h : a.toNat + n ≤ s.memSize) :
    s.memWrite a n v = .ok { s with mem := Memory.store s.mem a.toNat n v } := if_pos ((inRange_iff s a n).2 h)

theorem memRead_of_lt {s : State} {a : Word} {n : Nat} (h : s.memSize < a.toNat + n) :
    s.memRead a n = .error .rangeError := if_neg (by rw [inRange_iff]; omega)

theorem memWrite_of_lt {s : State} {a : Word} {n : Nat} (v : Word) (h : s.memSize < a.toNat + n) :
    s.memWrite a n v = .error .rangeError := if_neg (by rw [inRange_iff]; omega)

/-- Settles O19: a read by the value of a load, a write byte by byte. -/
theorem memoryAccessBytes : Obligations.MemoryAccessBytes := by
  intro s a v n hn
  have h8 : n ≤ 8 := by
    simp only [List.mem_cons, List.not_mem_nil, or_false] at hn
    omega
  refine ⟨inRange_iff s a n, fun h => ⟨⟨_, memRead_of_le h, Memory.load_toNat s _ h8⟩, fun hm => ?_⟩,
    fun h => ⟨memRead_of_lt h, memWrite_of_lt v h⟩⟩
  exact ⟨_, memWrite_of_le v h, rfl, fun k hk => (Memory.byte_store_inside hm v hk).trans (byteOf_eq_ofNat v k),
    fun x hx => Memory.byte_store_outside v hx⟩

/-- Settles O34: an image that fits is placed byte by byte, any other is refused. -/
theorem loadImageWrites : Obligations.LoadImageWrites := by
  intro s base bytes hm
  obtain ⟨hr, e⟩ | ⟨hr, -, e⟩ := loadImage_cases base bytes s
  · refine ⟨fun _ => ⟨_, e, rfl, fun k hk => Memory.byte_putBytes_inside hm hk,
      fun a ha => Memory.byte_putBytes_outside bytes ha⟩, fun hn h => ?_⟩
    rcases hr with hr | hr
    · exact absurd hr hn
    · omega
  · exact ⟨fun h => by omega, fun _ _ => e⟩

/-! ### A step -/

theorem toNat_append_byte {n : Nat} (x : BitVec n) (b : Byte) : (x ++ b).toNat = 256 * x.toNat + b.toNat := by
  rw [BitVec.toNat_append, ← Nat.shiftLeft_add_eq_or_of_lt b.isLt, Nat.shiftLeft_eq, Nat.mul_comm]

/-- The word of four bytes has their little-endian value (20_memory.md R49). -/
theorem wordOfBytes_toNat (s : State) (a : Nat) :
    (wordOfBytes (s.readByte a) (s.readByte (a + 1)) (s.readByte (a + 2)) (s.readByte (a + 3))).toNat =
      leValue s a 4 := by
  simp only [wordOfBytes, toNat_append_byte, leValue, Nat.add_assoc, Nat.reduceAdd]
  omega

/-- A fetch in range gives the word of the four bytes. -/
theorem fetchWord_of_le {s : State} {a : Word} (h : a.toNat + 4 ≤ s.memSize) :
    s.fetchWord a = .ok (wordOfBytes (s.readByte a.toNat) (s.readByte (a.toNat + 1)) (s.readByte (a.toNat + 2))
      (s.readByte (a.toNat + 3))) := by
  rw [State.fetchWord, memRead_of_le h, Except.map]
  refine congrArg Except.ok (BitVec.eq_of_toNat_eq ?_)
  rw [BitVec.toNat_setWidth, Memory.load_toNat s _ (by omega), wordOfBytes_toNat,
    Nat.mod_eq_of_lt (show _ < 2 ^ 32 from leValue_lt s a.toNat 4)]

theorem decode_of_decodeBytes {b0 b1 b2 b3 : Byte} {rest : List Byte} {i : Instr}
    (h : decodeBytes [b0, b1, b2, b3] = .ok (i, rest)) : decode (wordOfBytes b0 b1 b2 b3) = .ok i := by
  change Except.map _ (decode _) = _ at h
  cases hd : decode (wordOfBytes b0 b1 b2 b3) with
  | error e => rw [hd] at h; cases h
  | ok j => rw [hd] at h; cases h; rfl

/-- A step of a session that is not pipelined is a functional step (70_reset_and_hazards.md R188). -/
theorem step_of_functional {s : State} (hc : s.configLegal = true) (hm : s.mode ≠ some .pipelined) :
    step s = functionalStep { s with mode := some .functional } := by
  have hm : s.mode = some .functional ∨ s.mode = none := by
    cases h : s.mode with
    | none => exact .inr rfl
    | some m =>
      cases m with
      | functional => exact .inl rfl
      | pipelined => exact absurd h hm
  have hr : runRefusal .functional s = none := runRefusal_eq_none.2 ⟨hc, hm⟩
  have hs : step s = runInstructions 1 s := by
    unfold step
    rcases hm with hm | hm <;> rw [hm] <;> rfl
  rw [hs, runInstructions, hr]
  exact functionalSteps_one _

/-- A step of a pipelined session is an edge (70_reset_and_hazards.md R187). -/
theorem step_of_pipelined {s : State} (hc : s.configLegal = true) (hm : s.mode = some .pipelined) :
    step s = .next (edge s) := by
  have hr : runRefusal .pipelined s = none := runRefusal_eq_none.2 ⟨hc, .inl hm⟩
  have hs : { s with mode := some .pipelined } = s := by rw [← hm]
  have e : step s = runCycles 1 s := by rw [step, hm]; rfl
  rw [e, runCycles, hr, hs]
  rfl

/-- Settles O28: fetch, decode and `exec` in a functional step. -/
theorem stepRunsDecodedInstruction : Obligations.StepRunsDecodedInstruction := by
  refine ⟨fun s i hs hm hc hr hd => ?_, fun s hm hc => step_of_pipelined hc hm⟩
  rw [step_of_functional hc hm]
  exact functionalStep_of_decode hs (fetchWord_of_le hr) (decode_of_decodeBytes hd)

end Sys2Proof.Machine
end

section
/-! PROOFS. The caches: the parts of an address, one access, and what a sequence of accesses leaves in a set
(20_memory.md R63 to R67). -/

namespace Sys2Proof.Machine

/-! ### Geometry -/

/-- The check of a cache configuration says what 20_memory.md R63 asks. -/
theorem cacheLegal_iff (c : CacheConfig) : cacheLegal c = true ↔ LegalCache c := by
  simp [cacheLegal, LegalCache, isPowerOfTwo_iff, and_assoc]

/-- The sets of a legal configuration fill it exactly. -/
theorem setCount_mul {c : CacheConfig} (h : cacheLegal c = true) : setCount c * (c.blockSize * c.ways) = c.size := by
  obtain ⟨⟨z, hz⟩, ⟨b, hb⟩, ⟨w, hw⟩, hle⟩ := (cacheLegal_iff c).1 h
  apply Nat.div_mul_cancel
  rw [hb, hw, hz, ← Nat.pow_add] at hle ⊢
  exact Nat.pow_dvd_pow 2 ((Nat.pow_le_pow_iff_right Nat.one_lt_two).1 hle)

/-- The index is the block number modulo the set count (20_memory.md R64). -/
theorem cacheIndex_eq {c : CacheConfig} (h : cacheLegal c = true) (a : Word) :
    cacheIndex c a = a.toNat / c.blockSize % setCount c := by
  obtain ⟨-, ⟨b, hb⟩, -⟩ := (cacheLegal_iff c).1 h
  obtain ⟨k, hk⟩ := setCount_pow h
  rw [cacheIndex, offsetBits, hb, hk, Nat.log2_two_pow, Nat.and_two_pow_sub_one_eq_mod, Nat.shiftRight_eq_div_pow]

/-- The tag is what stands above block offset and index (20_memory.md R64). -/
theorem cacheTag_eq {c : CacheConfig} (h : cacheLegal c = true) (a : Word) :
    cacheTag c a = a.toNat / (c.blockSize * setCount c) := by
  obtain ⟨-, ⟨b, hb⟩, -⟩ := (cacheLegal_iff c).1 h
  obtain ⟨k, hk⟩ := setCount_pow h
  rw [cacheTag, offsetBits, indexBits, hb, hk, Nat.log2_two_pow, Nat.log2_two_pow, Nat.shiftRight_eq_div_pow,
    Nat.pow_add]

/-- Settles O41: index and tag in plain arithmetic, and the address put together again by two divisions. -/
theorem cacheGeometry : Obligations.CacheGeometry := by
  intro c a h
  have hi := cacheIndex_eq h a
  have ht := cacheTag_eq h a
  refine ⟨hi, ht, setCount_pow h, setCount_mul h, ?_, fun h1 => ?_⟩
  · rw [hi, ht, ← Nat.div_div_eq_div_mul, Nat.div_add_mod', Nat.div_add_mod']
  · rw [hi, h1, Nat.mod_one]

/-! ### One access -/

theorem Cache.access_hit (c : CacheConfig) (k : Cache) (a : Word) :
    (k.access c a).1 = true ↔ cacheTag c a ∈ k.set (cacheIndex c a) := decide_eq_true_iff

theorem touch_of_mem (ways : Nat) {g : Nat} {l : List Nat} (h : g ∈ l) : touch ways g l = l.erase g ++ [g] := if_pos h

theorem touch_of_full {ways g : Nat} {l : List Nat} (h : g ∉ l) (hl : l.length = ways) :
    touch ways g l = l.tail ++ [g] := by
  rw [touch, if_neg h, if_pos hl]

theorem touch_of_room {ways g : Nat} {l : List Nat} (h : g ∉ l) (hl : l.length ≠ ways) :
    touch ways g l = l ++ [g] := by
  rw [touch, if_neg h, if_neg hl]

/-- A hit counts as a hit only. -/
theorem Cache.access_counters_of_mem {c : CacheConfig} {k : Cache} {a : Word}
    (h : cacheTag c a ∈ k.set (cacheIndex c a)) :
    (k.access c a).2.hits = k.hits + 1 ∧ (k.access c a).2.misses = k.misses := by
  simp [Cache.access, h]

/-- A miss counts as a miss only. -/
theorem Cache.access_counters_of_not_mem {c : CacheConfig} {k : Cache} {a : Word}
    (h : cacheTag c a ∉ k.set (cacheIndex c a)) :
    (k.access c a).2.misses = k.misses + 1 ∧ (k.access c a).2.hits = k.hits := by
  simp [Cache.access, h]

/-- Settles O39: the set touched by the three cases of `touch`, the others left alone. -/
theorem cacheAccessLru : Obligations.CacheAccessLru := by
  intro c k a hc hk L g t
  have ht : t.set (cacheIndex c a) = touch c.ways g L := Cache.set_access_eq hk a
  refine ⟨Cache.access_hit c k a, fun h => ⟨?_, Cache.access_counters_of_mem h⟩,
    fun h => ⟨fun hl => ?_, fun hl => ht.trans (touch_of_room h hl), Cache.access_counters_of_not_mem h⟩,
    fun i hi => Cache.set_access_ne hi, Cache.access_canonical hk a⟩
  · obtain ⟨p, q, hp, hL, he⟩ := List.exists_erase_eq h
    exact ⟨p, q, hL, hp, by rw [ht, touch_of_mem _ h, he]⟩
  · rw [touch_of_full h hl] at ht
    obtain ⟨x, q, hL⟩ := List.exists_cons_of_length_pos (hl ▸ ways_pos hc : 0 < L.length)
    exact ⟨x, q, hL, by rw [ht, hL, List.tail_cons]⟩

/-! ### A sequence of accesses -/

theorem accessAll_concat (c : CacheConfig) (k : Cache) (as : List Word) (a : Word) :
    accessAll c k (as ++ [a]) = ((accessAll c k as).access c a).2 := by
  induction as generalizing k with
  | nil => rfl
  | cons b as ih => exact ih _

theorem accessAll_canonical {c : CacheConfig} {k : Cache} (hk : sparseWf [] k.sets = true) (as : List Word) :
    sparseWf [] (accessAll c k as).sets = true := by
  induction as generalizing k with
  | nil => exact hk
  | cons a as ih => exact ih (Cache.access_canonical hk a)

theorem distinct_nodup (l : List Nat) : (distinct l).Nodup := by
  induction l with
  | nil => exact List.nodup_nil
  | cons x xs ih => exact List.nodup_cons.2 ⟨by simp, ih.filter _⟩

/-- A value that is not among the first `n` can be dropped from the rest. -/
theorem take_filter_of_not_mem {g n : Nat} {l : List Nat} (h : g ∉ l.take n) :
    (l.filter (· ≠ g)).take n = l.take n := by
  induction l generalizing n with
  | nil => rfl
  | cons x xs ih =>
    cases n with
    | zero => rfl
    | succ n =>
      rw [List.take_succ_cons, List.mem_cons, not_or] at h
      obtain ⟨hx, hxs⟩ := h
      rw [List.filter_cons_of_pos (by simpa using Ne.symm hx), List.take_succ_cons, List.take_succ_cons, ih hxs]

/-- Without a member of the first `n + 1` there is room for `n` of the rest. -/
theorem erase_take_of_mem {g n : Nat} {l : List Nat} (hl : l.Nodup) (h : g ∈ l.take (n + 1)) :
    (l.take (n + 1)).erase g = (l.filter (· ≠ g)).take n := by
  induction l generalizing n with
  | nil => cases h
  | cons x xs ih =>
    obtain ⟨hx, hxs⟩ := List.nodup_cons.1 hl
    rw [List.take_succ_cons] at h ⊢
    by_cases hg : x = g
    · subst hg
      rw [List.erase_cons_head, List.filter_cons_of_neg (by simp),
        take_filter_of_not_mem fun hm => hx (List.mem_of_mem_take hm)]
    · have hm : g ∈ xs.take n := (List.mem_cons.1 h).resolve_left (Ne.symm hg)
      rw [List.erase_cons_tail (by simpa using hg), List.filter_cons_of_pos (by simpa using hg)]
      cases n with
      | zero => cases hm
      | succ n => rw [List.take_succ_cons, ih hxs hm]

/-- The last `ways` different tags of a list that has the newest first, the newest at the tail (20_memory.md R67). -/
def recentTags (ways : Nat) (l : List Nat) : List Nat := ((distinct l).take ways).reverse

theorem recentTags_length (ways : Nat) (l : List Nat) : (recentTags ways l).length ≤ ways := by
  simp [recentTags]

theorem recentTags_nodup (ways : Nat) (l : List Nat) : (recentTags ways l).Nodup :=
  List.nodup_reverse.2 ((distinct_nodup l).sublist (List.take_sublist ways _))

/-- With one more tag in front, that tag is at the tail and all others keep their order. -/
theorem recentTags_cons (n g : Nat) (l : List Nat) :
    recentTags (n + 1) (g :: l) = (((distinct l).filter (· ≠ g)).take n).reverse ++ [g] := by
  simp [recentTags, distinct]

/-- The oldest tag of a full set is the one a cache with one way less would not hold. -/
theorem tail_recentTags {n : Nat} {l : List Nat} (h : (recentTags (n + 1) l).length = n + 1) :
    (recentTags (n + 1) l).tail = ((distinct l).take n).reverse := by
  rw [recentTags, List.length_reverse] at h
  rw [recentTags, List.tail_reverse, List.dropLast_eq_take, h, List.take_take, Nat.add_sub_cancel,
    Nat.min_eq_left (Nat.le_succ n)]

/-- Touching the most recent tags with `g` gives the most recent tags with `g` in front. -/
theorem touch_recentTags {ways : Nat} (hw : 0 < ways) (g : Nat) (l : List Nat) :
    touch ways g (recentTags ways l) = recentTags ways (g :: l) := by
  obtain ⟨n, rfl⟩ : ∃ n, ways = n + 1 := ⟨ways - 1, by omega⟩
  rw [recentTags_cons]
  by_cases hg : g ∈ recentTags (n + 1) l
  · have hm : g ∈ (distinct l).take (n + 1) := List.mem_reverse.1 hg
    have hd := distinct_nodup l
    rw [touch_of_mem _ hg, (recentTags_nodup (n + 1) l).erase_eq_filter, recentTags, List.filter_reverse,
      ← (hd.sublist (List.take_sublist _ _)).erase_eq_filter, erase_take_of_mem hd hm]
  · have hm : g ∉ (distinct l).take n := fun h => hg (List.mem_reverse.2 (List.take_subset_take_left _ (by omega) h))
    rw [take_filter_of_not_mem hm]
    by_cases hl : (recentTags (n + 1) l).length = n + 1
    · rw [touch_of_full hg hl, tail_recentTags hl]
    · have hlen : (distinct l).length ≤ n := by
        rw [recentTags, List.length_reverse, List.length_take] at hl
        omega
      rw [touch_of_room hg hl, recentTags, List.take_of_length_le hlen, List.take_of_length_le (by omega)]

/-- The tags accessed in set `i`, the newest first. -/
def tagsInSet (c : CacheConfig) (i : Nat) (as : List Word) : List Nat :=
  ((as.filter (fun a => cacheIndex c a == i)).map (cacheTag c)).reverse

theorem tagsInSet_concat_same (c : CacheConfig) (as : List Word) (a : Word) :
    tagsInSet c (cacheIndex c a) (as ++ [a]) = cacheTag c a :: tagsInSet c (cacheIndex c a) as := by
  simp [tagsInSet]

theorem tagsInSet_concat_other {c : CacheConfig} {i : Nat} {a : Word} (h : i ≠ cacheIndex c a) (as : List Word) :
    tagsInSet c i (as ++ [a]) = tagsInSet c i as := by
  simp [tagsInSet, h.symm]

/-- What a cold cache holds after any sequence of accesses. -/
theorem set_accessAll_empty {c : CacheConfig} (hc : cacheLegal c = true) (as : List Word) (i : Nat) :
    (accessAll c Cache.empty as).set i = recentTags c.ways (tagsInSet c i as) := by
  induction as using List.reverseRecOn with
  | nil => simp [accessAll, Cache.set, Cache.empty, sparseGet, tagsInSet, recentTags, distinct]
  | append_singleton as a ih =>
    rw [accessAll_concat]
    by_cases h : i = cacheIndex c a
    · subst h
      rw [Cache.set_access_eq (accessAll_canonical sparseWf_nil as), ih, touch_recentTags (ways_pos hc),
        tagsInSet_concat_same]
    · rw [Cache.set_access_ne h, ih, tagsInSet_concat_other h]

/-- Settles O40: each set holds the most recent tags accessed in it, by induction on the sequence of accesses. -/
theorem cacheHoldsMostRecent : Obligations.CacheHoldsMostRecent := by
  intro c as i hc
  have h := set_accessAll_empty hc as i
  refine ⟨h, ?_, ?_⟩ <;> rw [h]
  · exact recentTags_length ..
  · exact recentTags_nodup ..

end Sys2Proof.Machine
end

section
/-! PROOFS. The encoder and the decoder (30_encoding.md R73, R83 to R86): each gives back what the other took. -/

namespace Sys2Proof

/-! ### Decoding an encoded instruction -/

theorem decode_haltWord : decode haltWord = .ok .halt := rfl

theorem decode_nopWord : decode nopWord = .ok .nop := rfl

theorem decode_eq_decodeRow {w : InstrWord} (hh : w ≠ haltWord) (hn : w ≠ nopWord) : decode w = decodeRow w := by
  rw [decode, if_neg hh, if_neg hn]

theorem decodeRow_haltWord : decodeRow haltWord = .error .unknownOpcode := rfl

theorem decodeRow_nopWord : decodeRow nopWord = .ok (.addi 0#5 0#5 0#12) := rfl

/-- The fields of an encoded instruction choose its row, and its operands are read back. -/
theorem decodeRow_encode {i : Instr} (wf : i.WellFormed) (hh : i ≠ .halt) (hn : i ≠ .nop) :
    decodeRow (encode i) = .ok i := by
  cases i
  case halt => exact absurd rfl hh
  case nop => exact absurd rfl hn
  case jal rd off =>
    have even : off.getLsbD 0 = false := (Bool.not_eq_true' _).mp wf
    simp [encode, decodeRow, immJOf_encJ _ _ _ even]
  case beq rs1 rs2 off | bne rs1 rs2 off | blt rs1 rs2 off | bge rs1 rs2 off | bltu rs1 rs2 off | bgeu rs1 rs2 off =>
    have even : off.getLsbD 0 = false := (Bool.not_eq_true' _).mp wf
    simp [encode, decodeRow, decodeBranch, immBOf_encB _ _ _ _ _ even]
  all_goals
    simp [encode, decodeRow, decodeOp, decodeOpImm, decodeOpImm32, decodeOp32, decodeLoad, decodeStore]

theorem encode_ne_haltWord {i : Instr} (wf : i.WellFormed) (hh : i ≠ .halt) (hn : i ≠ .nop) :
    encode i ≠ haltWord := by
  intro e
  have h := decodeRow_encode wf hh hn
  rw [e, decodeRow_haltWord] at h
  cases h

theorem encode_ne_nopWord {i : Instr} (wf : i.WellFormed) (hh : i ≠ .halt) (hn : i ≠ .nop) :
    encode i ≠ nopWord := by
  intro e
  have h := decodeRow_encode wf hh hn
  rw [e, decodeRow_nopWord] at h
  cases h
  cases wf

/-- Settles O21: the sentinels by evaluation, every other instruction by its row. -/
theorem decodeEncodeRoundTrip : Obligations.DecodeEncodeRoundTrip := by
  intro i wf
  by_cases hh : i = .halt
  · subst hh; rfl
  by_cases hn : i = .nop
  · subst hn; rfl
  rw [decode_eq_decodeRow (encode_ne_haltWord wf hh hn) (encode_ne_nopWord wf hh hn), decodeRow_encode wf hh hn]

/-! ### A word and its fields -/

theorem encR_of_fields {w : InstrWord} {f7 : BitVec 7} {f3 : BitVec 3} {op : BitVec 7} (h7 : funct7Of w = f7)
    (h3 : funct3Of w = f3) (ho : opcodeOf w = op) : encR f7 (rs2Of w) (rs1Of w) f3 (rdOf w) op = w := by
  subst h7 h3 ho
  apply BitVec.eq_of_getLsbD_eq
  intro i hi
  rw [encR_bit]
  simp only [opcodeOf, rdOf, funct3Of, rs1Of, rs2Of, funct7Of, extractBits_bit]
  interval_cases i <;> simp

theorem encI_of_fields {w : InstrWord} {f3 : BitVec 3} {op : BitVec 7} (h3 : funct3Of w = f3)
    (ho : opcodeOf w = op) : encI (immIOf w) (rs1Of w) f3 (rdOf w) op = w := by
  subst h3 ho
  apply BitVec.eq_of_getLsbD_eq
  intro i hi
  rw [encI_bit]
  simp only [opcodeOf, rdOf, funct3Of, rs1Of, immIOf, extractBits_bit]
  interval_cases i <;> simp

theorem encShift64_of_fields {w : InstrWord} {f6 : BitVec 6} {f3 : BitVec 3} {op : BitVec 7} (h6 : funct6Of w = f6)
    (h3 : funct3Of w = f3) (ho : opcodeOf w = op) :
    encShift64 f6 (shamt64Of w) (rs1Of w) f3 (rdOf w) op = w := by
  subst h6 h3 ho
  apply BitVec.eq_of_getLsbD_eq
  intro i hi
  rw [encShift64_bit]
  simp only [opcodeOf, rdOf, funct3Of, rs1Of, shamt64Of, funct6Of, extractBits_bit]
  interval_cases i <;> simp

theorem encU_of_fields {w : InstrWord} {op : BitVec 7} (ho : opcodeOf w = op) :
    encU (immUOf w) (rdOf w) op = w := by
  subst ho
  apply BitVec.eq_of_getLsbD_eq
  intro i hi
  rw [encU_bit]
  simp only [opcodeOf, rdOf, immUOf, extractBits_bit]
  interval_cases i <;> simp

theorem encS_of_fields {w : InstrWord} {f3 : BitVec 3} {op : BitVec 7} (h3 : funct3Of w = f3)
    (ho : opcodeOf w = op) : encS (immSOf w) (rs2Of w) (rs1Of w) f3 op = w := by
  subst h3 ho
  apply BitVec.eq_of_getLsbD_eq
  intro i hi
  have imm (k : Nat) : (immSOf w).getLsbD k = _ := BitVec.getLsbD_append
  rw [encS_bit]
  simp only [opcodeOf, funct3Of, rs1Of, rs2Of, imm, extractLsb_bit, extractBits_bit]
  interval_cases i <;> simp

theorem encB_of_fields {w : InstrWord} {f3 : BitVec 3} {op : BitVec 7} (h3 : funct3Of w = f3)
    (ho : opcodeOf w = op) : encB (immBOf w) (rs2Of w) (rs1Of w) f3 op = w := by
  subst h3 ho
  apply BitVec.eq_of_getLsbD_eq
  intro i hi
  have imm (k : Nat) : (immBOf w).getLsbD k = _ := BitVec.getLsbD_append
  rw [encB_bit]
  simp only [opcodeOf, funct3Of, rs1Of, rs2Of, imm, BitVec.getLsbD_append, extractLsb_bit, extractBits_bit]
  interval_cases i <;> simp

theorem encJ_of_fields {w : InstrWord} {op : BitVec 7} (ho : opcodeOf w = op) :
    encJ (immJOf w) (rdOf w) op = w := by
  subst ho
  apply BitVec.eq_of_getLsbD_eq
  intro i hi
  have imm (k : Nat) : (immJOf w).getLsbD k = _ := BitVec.getLsbD_append
  rw [encJ_bit]
  simp only [opcodeOf, rdOf, imm, BitVec.getLsbD_append, extractLsb_bit, extractBits_bit]
  interval_cases i <;> simp

/-! ### Encoding a decoded word -/

/-- `i` is a well-formed instruction and `w` its word. -/
def Encodes (w : InstrWord) (i : Instr) : Prop := i.WellFormed ∧ encode i = w

/-- The value of funct3 that `decodeOp` takes by default. -/
theorem funct3_eq_seven {x : BitVec 3} (h0 : x ≠ 0#3) (h1 : x ≠ 1#3) (h2 : x ≠ 2#3) (h3 : x ≠ 3#3)
    (h4 : x ≠ 4#3) (h5 : x ≠ 5#3) (h6 : x ≠ 6#3) : x = 7#3 := by
  bv_omega

/-- The value of funct3 that `decodeOpImm` takes by default. -/
theorem funct3_eq_five {x : BitVec 3} (h0 : x ≠ 0#3) (h1 : x ≠ 1#3) (h2 : x ≠ 2#3) (h3 : x ≠ 3#3)
    (h4 : x ≠ 4#3) (h6 : x ≠ 6#3) (h7 : x ≠ 7#3) : x = 5#3 := by
  bv_omega

section
variable {w : InstrWord} {i : Instr}

theorem encodes_of_decodeOp (ho : opcodeOf w = 0b0110011#7) (h : decodeOp w = .ok i) : Encodes w i := by
  unfold decodeOp at h
  split at h
  case h_1 h7 =>
    split at h <;> cases h
    case h_8 =>
      have h3 : funct3Of w = 0b111#3 := by apply funct3_eq_seven <;> assumption
      exact ⟨rfl, encR_of_fields h7 h3 ho⟩
    all_goals exact ⟨rfl, encR_of_fields h7 ‹_› ho⟩
  case h_2 h7 =>
    split at h <;> cases h
    all_goals exact ⟨rfl, encR_of_fields h7 ‹_› ho⟩
  case h_3 => cases h

/-- The word of `addi x0, x0, 0` is the NOP sentinel; every other ADDI is well formed. -/
theorem wellFormed_addi {rd rs1 : RegIdx} {imm : BitVec 12} (hn : encode (.addi rd rs1 imm) ≠ nopWord) :
    (Instr.addi rd rs1 imm).WellFormed := by
  by_contra wf
  simp only [Instr.WellFormed, Instr.wellFormed, Bool.not_eq_true, Bool.not_eq_false', Bool.and_eq_true,
    beq_iff_eq] at wf
  obtain ⟨⟨rfl, rfl⟩, rfl⟩ := wf
  exact hn rfl

theorem encodes_of_decodeOpImm (ho : opcodeOf w = 0b0010011#7) (hn : w ≠ nopWord) (h : decodeOpImm w = .ok i) :
    Encodes w i := by
  unfold decodeOpImm at h
  split at h
  case h_1 h3 =>
    cases h
    have e : encode (.addi (rdOf w) (rs1Of w) (immIOf w)) = w := encI_of_fields h3 ho
    exact ⟨wellFormed_addi (e.symm ▸ hn), e⟩
  case h_7 h3 =>
    split at h <;> cases h
    exact ⟨rfl, encShift64_of_fields ‹_› h3 ho⟩
  case h_8 =>
    have h3 : funct3Of w = 0b101#3 := by apply funct3_eq_five <;> assumption
    split at h <;> cases h
    all_goals exact ⟨rfl, encShift64_of_fields ‹_› h3 ho⟩
  all_goals
    cases h
    exact ⟨rfl, encI_of_fields ‹_› ho⟩

theorem encodes_of_decodeOpImm32 (ho : opcodeOf w = 0b0011011#7) (h : decodeOpImm32 w = .ok i) : Encodes w i := by
  unfold decodeOpImm32 at h
  split at h
  case h_1 h3 =>
    cases h
    exact ⟨rfl, encI_of_fields h3 ho⟩
  case h_4 => cases h
  all_goals
    split at h <;> cases h
    all_goals exact ⟨rfl, encR_of_fields ‹_› ‹_› ho⟩

theorem encodes_of_decodeOp32 (ho : opcodeOf w = 0b0111011#7) (h : decodeOp32 w = .ok i) : Encodes w i := by
  unfold decodeOp32 at h
  split at h
  case h_4 => cases h
  all_goals
    split at h <;> cases h
    all_goals exact ⟨rfl, encR_of_fields ‹_› ‹_› ho⟩

theorem encodes_of_decodeLoad (ho : opcodeOf w = 0b0000011#7) (h : decodeLoad w = .ok i) : Encodes w i := by
  unfold decodeLoad at h
  split at h <;> cases h
  all_goals exact ⟨rfl, encI_of_fields ‹_› ho⟩

theorem encodes_of_decodeStore (ho : opcodeOf w = 0b0100011#7) (h : decodeStore w = .ok i) : Encodes w i := by
  unfold decodeStore at h
  split at h <;> cases h
  all_goals exact ⟨rfl, encS_of_fields ‹_› ho⟩

theorem immBOf_even (w : InstrWord) : (!(immBOf w).getLsbD 0) = true := by
  have imm (k : Nat) : (immBOf w).getLsbD k = _ := BitVec.getLsbD_append
  rw [imm]; rfl

theorem immJOf_even (w : InstrWord) : (!(immJOf w).getLsbD 0) = true := by
  have imm (k : Nat) : (immJOf w).getLsbD k = _ := BitVec.getLsbD_append
  rw [imm]; rfl

theorem encodes_of_decodeBranch (ho : opcodeOf w = 0b1100011#7) (h : decodeBranch w = .ok i) : Encodes w i := by
  unfold decodeBranch at h
  split at h <;> cases h
  all_goals exact ⟨immBOf_even w, encB_of_fields ‹_› ho⟩

/-- The rows are sound for every word but the NOP sentinel, which stands in the row of ADDI (R85). -/
theorem encodes_of_decodeRow (hn : w ≠ nopWord) (h : decodeRow w = .ok i) : Encodes w i := by
  unfold decodeRow at h
  split at h
  case h_1 ho => exact encodes_of_decodeOp ho h
  case h_2 ho => exact encodes_of_decodeOpImm ho hn h
  case h_3 ho => exact encodes_of_decodeOpImm32 ho h
  case h_4 ho => exact encodes_of_decodeOp32 ho h
  case h_5 ho => exact encodes_of_decodeLoad ho h
  case h_6 ho => exact encodes_of_decodeStore ho h
  case h_7 ho => exact encodes_of_decodeBranch ho h
  case h_8 ho => cases h; exact ⟨immJOf_even w, encJ_of_fields ho⟩
  case h_9 ho => split at h <;> cases h; exact ⟨rfl, encI_of_fields ‹_› ho⟩
  case h_10 ho => cases h; exact ⟨rfl, encU_of_fields ho⟩
  case h_11 ho => cases h; exact ⟨rfl, encU_of_fields ho⟩
  case h_12 => cases h

end

/-- Decode compares a word with the sentinels, and looks at the rows for any other (R83). -/
theorem decode_cases (w : InstrWord) :
    (w = haltWord ∧ decode w = .ok .halt) ∨ (w = nopWord ∧ decode w = .ok .nop) ∨
    (w ≠ haltWord ∧ w ≠ nopWord ∧ decode w = decodeRow w) := by
  by_cases hh : w = haltWord
  · exact .inl ⟨hh, hh ▸ rfl⟩
  by_cases hn : w = nopWord
  · exact .inr (.inl ⟨hn, hn ▸ rfl⟩)
  · exact .inr (.inr ⟨hh, hn, decode_eq_decodeRow hh hn⟩)

/-- What decodes is encoded by what it decodes to. -/
theorem encodes_of_decode {w : InstrWord} {i : Instr} (h : decode w = .ok i) : Encodes w i := by
  obtain ⟨rfl, e⟩ | ⟨rfl, e⟩ | ⟨-, hn, e⟩ := decode_cases w <;> rw [e] at h
  · cases h; exact ⟨rfl, rfl⟩
  · cases h; exact ⟨rfl, rfl⟩
  · exact encodes_of_decodeRow hn h

/-- Settles O22, from what each arm of the decoder says of the fields of the word. -/
theorem encodeDecodeRoundTrip : Obligations.EncodeDecodeRoundTrip := fun _ _ h => encodes_of_decode h

end Sys2Proof
end

section
/-! PROOFS. The opcode table (30_encoding.md R86) and the sentinels (R84, R85). -/

namespace Sys2Proof

open Sys2Proof.Machine

/-! ### The fields of a masked and of a literal word -/

theorem extractBits_and (w m : InstrWord) (hi lo : Nat) :
    extractBits (w &&& m) hi lo = extractBits w hi lo &&& extractBits m hi lo := BitVec.extractLsb_and

/-- Masking a word masks each of its fields. -/
theorem and_eq_encR (w m : InstrWord) :
    w &&& m = encR (funct7Of w &&& funct7Of m) (rs2Of w &&& rs2Of m) (rs1Of w &&& rs1Of m)
      (funct3Of w &&& funct3Of m) (rdOf w &&& rdOf m) (opcodeOf w &&& opcodeOf m) := by
  rw [← encR_of_fields (w := w &&& m) rfl rfl rfl]
  simp only [opcodeOf, rdOf, funct3Of, rs1Of, rs2Of, funct7Of, extractBits_and]

/-- Masking a word masks each of its fields, those of a 64-bit immediate shift. -/
theorem and_eq_encShift64 (w m : InstrWord) :
    w &&& m = encShift64 (funct6Of w &&& funct6Of m) (shamt64Of w &&& shamt64Of m) (rs1Of w &&& rs1Of m)
      (funct3Of w &&& funct3Of m) (rdOf w &&& rdOf m) (opcodeOf w &&& opcodeOf m) := by
  rw [← encShift64_of_fields (w := w &&& m) rfl rfl rfl]
  simp only [opcodeOf, rdOf, funct3Of, rs1Of, shamt64Of, funct6Of, extractBits_and]

@[simp] theorem opcodeOf_ofNat (n : Nat) : opcodeOf (BitVec.ofNat 32 n) = BitVec.ofNat 7 ((n % 2 ^ 32) >>> 0) :=
  BitVec.extractLsb_ofNat ..

@[simp] theorem rdOf_ofNat (n : Nat) : rdOf (BitVec.ofNat 32 n) = BitVec.ofNat 5 ((n % 2 ^ 32) >>> 7) :=
  BitVec.extractLsb_ofNat ..

@[simp] theorem funct3Of_ofNat (n : Nat) : funct3Of (BitVec.ofNat 32 n) = BitVec.ofNat 3 ((n % 2 ^ 32) >>> 12) :=
  BitVec.extractLsb_ofNat ..

@[simp] theorem rs1Of_ofNat (n : Nat) : rs1Of (BitVec.ofNat 32 n) = BitVec.ofNat 5 ((n % 2 ^ 32) >>> 15) :=
  BitVec.extractLsb_ofNat ..

@[simp] theorem rs2Of_ofNat (n : Nat) : rs2Of (BitVec.ofNat 32 n) = BitVec.ofNat 5 ((n % 2 ^ 32) >>> 20) :=
  BitVec.extractLsb_ofNat ..

@[simp] theorem shamt64Of_ofNat (n : Nat) : shamt64Of (BitVec.ofNat 32 n) = BitVec.ofNat 6 ((n % 2 ^ 32) >>> 20) :=
  BitVec.extractLsb_ofNat ..

@[simp] theorem funct6Of_ofNat (n : Nat) : funct6Of (BitVec.ofNat 32 n) = BitVec.ofNat 6 ((n % 2 ^ 32) >>> 26) :=
  BitVec.extractLsb_ofNat ..

@[simp] theorem funct7Of_ofNat (n : Nat) : funct7Of (BitVec.ofNat 32 n) = BitVec.ofNat 7 ((n % 2 ^ 32) >>> 25) :=
  BitVec.extractLsb_ofNat ..

/-! ### From a row to the decoder -/

section
variable {w : InstrWord} {r : TableRow}

theorem covers_iff : r.covers w = true ↔ w &&& r.mask = r.bits := by simp [TableRow.covers]

/-- A field all of whose bits a row fixes has the row's value in every word of the row. -/
theorem extractBits_of_covers (h : r.covers w = true) {hi lo : Nat}
    (fixed : extractBits r.mask hi lo = BitVec.allOnes _) : extractBits w hi lo = extractBits r.bits hi lo := by
  rw [← covers_iff.1 h, extractBits_and, fixed, BitVec.and_allOnes]

theorem opcodeOf_of_covers (h : r.covers w = true) (fixed : opcodeOf r.mask = 0x7F#7) :
    opcodeOf w = opcodeOf r.bits := extractBits_of_covers h fixed

theorem funct3Of_of_covers (h : r.covers w = true) (fixed : funct3Of r.mask = 0x7#3) :
    funct3Of w = funct3Of r.bits := extractBits_of_covers h fixed

theorem funct6Of_of_covers (h : r.covers w = true) (fixed : funct6Of r.mask = 0x3F#6) :
    funct6Of w = funct6Of r.bits := extractBits_of_covers h fixed

theorem funct7Of_of_covers (h : r.covers w = true) (fixed : funct7Of r.mask = 0x7F#7) :
    funct7Of w = funct7Of r.bits := extractBits_of_covers h fixed

/-- The fields a row fixes are those its decoder looks at. -/
theorem mnemonic_of_covers (hr : r ∈ legalRows) (h : r.covers w = true) :
    (decodeRow w).map Instr.mnemonic = .ok r.name := by
  have ho := opcodeOf_of_covers h
  have h3 := funct3Of_of_covers h
  have h6 := funct6Of_of_covers h
  have h7 := funct7Of_of_covers h
  fin_cases hr
  all_goals
    simp [decodeRow, decodeOp, decodeOpImm, decodeOpImm32, decodeOp32, decodeLoad, decodeStore, decodeBranch,
      ho, h3, h6, h7, Except.map, Instr.mnemonic]

theorem decodeRow_of_covers (hr : r ∈ legalRows) (h : r.covers w = true) :
    ∃ i, decodeRow w = .ok i ∧ i.mnemonic = r.name := by
  have hm := mnemonic_of_covers hr h
  cases hd : decodeRow w with
  | error e => rw [hd] at hm; cases hm
  | ok i => rw [hd] at hm; exact ⟨i, rfl, Except.ok.inj hm⟩

end

/-- No two rows share a mnemonic. -/
theorem legalRows_names_nodup : (legalRows.map TableRow.name).Nodup := by decide

/-- Rows that share a word have one name, and so are one row. -/
theorem row_unique {w : InstrWord} {a b : TableRow} (ha : a ∈ legalRows) (hb : b ∈ legalRows)
    (hwa : a.covers w = true) (hwb : b.covers w = true) : a = b := by
  have e := (mnemonic_of_covers ha hwa).symm.trans (mnemonic_of_covers hb hwb)
  exact List.inj_on_of_nodup_map legalRows_names_nodup ha hb (Except.ok.inj e)

/-! ### From an instruction to its row -/

/-- Every instruction but the sentinels has a row of its name, and its word is in it. -/
theorem exists_row_covers {i : Instr} (hh : i ≠ .halt) (hn : i ≠ .nop) :
    ∃ r ∈ legalRows, r.covers (encode i) = true ∧ r.name = i.mnemonic := by
  have found : ∃ r, legalRows.find? (fun r => r.name == i.mnemonic) = some r ∧ r.covers (encode i) = true := by
    cases i
    case halt => exact absurd rfl hh
    case nop => exact absurd rfl hn
    -- Each case ends with the row's bits, put together from literal fields.
    case slli | srli | srai =>
      refine ⟨_, rfl, covers_iff.2 ?_⟩
      simp only [encode, and_eq_encShift64]
      simp
      rfl
    all_goals
      refine ⟨_, rfl, covers_iff.2 ?_⟩
      simp only [encode, and_eq_encR]
      simp
      rfl
  obtain ⟨r, hr, hc⟩ := found
  exact ⟨r, List.mem_of_find?_eq_some hr, hc, by simpa using List.find?_some hr⟩

/-- Settles O23: a word of a row decodes by the fields the row fixes; a word that decodes is the encoding of its
instruction, and so in that instruction's row. -/
theorem decodeMatchesTable : Obligations.DecodeMatchesTable := by
  refine ⟨rfl, decode_haltWord, decode_nopWord, fun w a b => row_unique, fun w hh hn => ?_⟩
  have hd : decode w = decodeRow w := decode_eq_decodeRow hh hn
  refine ⟨fun r hr h => by rw [hd]; exact decodeRow_of_covers hr h, fun i hi => ?_⟩
  obtain ⟨-, rfl⟩ := encodes_of_decode hi
  exact exists_row_covers (fun e => hh (e ▸ rfl)) (fun e => hn (e ▸ rfl))

/-! ### The sentinels -/

/-- No row has the opcode of the halt sentinel. -/
theorem decodeRow_of_haltOpcode {w : InstrWord} (ho : opcodeOf w = 0x6D#7) : decodeRow w = .error .unknownOpcode := by
  simp [decodeRow, ho]

theorem eq_haltWord_of_decode {w : InstrWord} {i : Instr} (ho : opcodeOf w = 0x6D#7) (h : decode w = .ok i) :
    w = haltWord := by
  obtain ⟨hw, -⟩ | ⟨rfl, -⟩ | ⟨-, -, e⟩ := decode_cases w
  · exact hw
  · exact absurd ho (by decide)
  · rw [e, decodeRow_of_haltOpcode ho] at h
    cases h

/-- An ADDI that writes x0 is a NOP. -/
theorem exec_addi_x0 (rs1 : RegIdx) (imm : BitVec 12) (s : State) : exec (.addi 0#5 rs1 imm) s = exec .nop s := by
  simp [exec, execAddi, execNop, State.commitNext, State.commit]

/-- Settles O24, from the rows of the decoder and of `exec`. -/
theorem sentinelWords : Obligations.SentinelWords :=
  ⟨decode_haltWord, rfl, rfl, fun _ _ => eq_haltWord_of_decode, decode_nopWord, rfl, rfl, exec_addi_x0 _ _⟩

end Sys2Proof
end

section
/-! PROOFS. The classification flags (30_encoding.md R88): they depend on the class alone. -/

namespace Sys2Proof

open Sys2Proof.Machine

/-- The mnemonics of a class. -/
def Machine.InstrClass.mnemonics : InstrClass → List String
  | .regReg => ["ADD", "SUB", "SLL", "SLT", "SLTU", "XOR", "SRL", "SRA", "OR", "AND",
    "ADDW", "SUBW", "SLLW", "SRLW", "SRAW"]
  | .regImm => ["ADDI", "SLTI", "SLTIU", "XORI", "ORI", "ANDI", "SLLI", "SRLI", "SRAI",
    "ADDIW", "SLLIW", "SRLIW", "SRAIW"]
  | .upper  => ["LUI", "AUIPC"]
  | .load   => ["LB", "LH", "LW", "LD", "LBU", "LHU", "LWU"]
  | .store  => ["SB", "SH", "SW", "SD"]
  | .branch => ["BEQ", "BNE", "BLT", "BGE", "BLTU", "BGEU"]
  | .jal    => ["JAL"]
  | .jalr   => ["JALR"]
  | .halt   => ["HALT"]
  | .nop    => ["NOP"]

theorem mnemonic_mem_classOf (i : Instr) : i.mnemonic ∈ (classOf i).mnemonics := by
  cases i <;> exact List.mem_of_elem_eq_true rfl

/-- No two classes share a mnemonic. -/
theorem class_unique {c d : InstrClass} {m : String} (hc : m ∈ c.mnemonics) (hd : m ∈ d.mnemonics) : c = d := by
  have disjoint : ∀ m ∈ c.mnemonics, m ∉ d.mnemonics ∨ c = d := by cases c <;> cases d <;> decide
  exact (disjoint m hc).resolve_left (not_not_intro hd)

/-- An instruction is in a class exactly when its mnemonic is listed there. -/
theorem mnemonic_mem_iff {i : Instr} {c : InstrClass} : i.mnemonic ∈ c.mnemonics ↔ classOf i = c :=
  ⟨class_unique (mnemonic_mem_classOf i), fun h => h ▸ mnemonic_mem_classOf i⟩

/-- A flag that is set for exactly the classes `cs` is set for exactly their mnemonics. -/
theorem flag_iff_mnemonic {flag : InstrClass → Bool} {cs : List InstrClass} (h : ∀ c, flag c = true ↔ c ∈ cs)
    (i : Instr) : flag (classOf i) = true ↔ i.mnemonic ∈ cs.flatMap InstrClass.mnemonics := by
  simp [h, mnemonic_mem_iff]

theorem isControl_eq (i : Instr) : isControl i = decide (classOf i ∈ [.branch, .jal, .jalr]) := by
  unfold isControl
  cases classOf i <;> rfl

/-- Settles O25: each flag depends on the class alone, and a class is its mnemonics. -/
theorem flagsByClass : Obligations.FlagsByClass := by
  refine ⟨fun i => ⟨?readsRs1, ?readsRs2, ?writesRd, ?readsMem, ?writesMem, ?doesArith, ?legal, ?halt, ?nop,
    ?control⟩, rfl⟩
  case readsRs1 =>
    exact flag_iff_mnemonic (flag := fun c => (classFlags c).readsRs1)
      (cs := [.regReg, .regImm, .load, .store, .branch, .jalr]) (by rintro ⟨⟩ <;> decide) i
  case readsRs2 =>
    exact flag_iff_mnemonic (flag := fun c => (classFlags c).readsRs2)
      (cs := [.regReg, .store, .branch]) (by rintro ⟨⟩ <;> decide) i
  case writesRd =>
    exact flag_iff_mnemonic (flag := fun c => (classFlags c).writesRd)
      (cs := [.regReg, .regImm, .upper, .load, .jal, .jalr]) (by rintro ⟨⟩ <;> decide) i
  case readsMem =>
    exact flag_iff_mnemonic (flag := fun c => (classFlags c).readsMem) (cs := [.load]) (by rintro ⟨⟩ <;> decide) i
  case writesMem =>
    exact flag_iff_mnemonic (flag := fun c => (classFlags c).writesMem) (cs := [.store]) (by rintro ⟨⟩ <;> decide) i
  case doesArith =>
    exact flag_iff_mnemonic (flag := fun c => (classFlags c).doesArith)
      (cs := [.regReg, .regImm, .upper]) (by rintro ⟨⟩ <;> decide) i
  case legal => show (classFlags (classOf i)).legal = true; cases classOf i <;> rfl
  case halt =>
    have h := flag_iff_mnemonic (flag := fun c => (classFlags c).halt) (cs := [.halt]) (by rintro ⟨⟩ <;> decide) i
    exact h.trans List.mem_singleton
  case nop =>
    have h := flag_iff_mnemonic (flag := fun c => (classFlags c).nop) (cs := [.nop]) (by rintro ⟨⟩ <;> decide) i
    exact h.trans List.mem_singleton
  case control =>
    rw [isControl_eq]
    exact flag_iff_mnemonic (cs := [.branch, .jal, .jalr]) (fun _ => decide_eq_true_iff) i

end Sys2Proof
end

section
/-! PROOFS. The five immediates in plain arithmetic (30_encoding.md R76 to R80). -/

namespace Sys2Proof

open Sys2Proof.Machine

theorem extractBits_toNat (w : InstrWord) (hi lo : Nat) :
    (extractBits w hi lo).toNat = w.toNat / 2 ^ lo % 2 ^ (hi - lo + 1) := by
  simp [extractBits, BitVec.extractLsb, Nat.shiftRight_eq_div_pow]

theorem toNat_append_eq {m n : Nat} (x : BitVec m) (y : BitVec n) : (x ++ y).toNat = x.toNat * 2 ^ n + y.toNat := by
  rw [BitVec.toNat_append, ← Nat.shiftLeft_add_eq_or_of_lt y.isLt, Nat.shiftLeft_eq]

/-- An immediate extended to a word keeps its signed value. -/
theorem toInt_signExtend_word {m : Nat} (hm : m ≤ 64) (x : BitVec m) :
    (x.signExtend 64).toInt = Int.bmod x.toNat (2 ^ m) := by
  rw [BitVec.toInt_signExtend_of_le hm, BitVec.toInt_eq_toNat_bmod]

theorem immIOf_toNat (w : InstrWord) : (immIOf w).toNat = w.toNat / 2 ^ 20 := by
  have := w.isLt
  rw [immIOf, extractBits_toNat]
  omega

theorem immSOf_toNat (w : InstrWord) : (immSOf w).toNat = w.toNat / 2 ^ 25 * 2 ^ 5 + w.toNat / 2 ^ 7 % 2 ^ 5 := by
  have := w.isLt
  have e : (immSOf w).toNat = _ := toNat_append_eq ..
  rw [e, extractBits_toNat, extractBits_toNat]
  omega

theorem immBOf_toNat (w : InstrWord) : (immBOf w).toNat =
    w.toNat / 2 ^ 31 * 2 ^ 12 + w.toNat / 2 ^ 7 % 2 * 2 ^ 11 + w.toNat / 2 ^ 25 % 2 ^ 6 * 2 ^ 5 +
      w.toNat / 2 ^ 8 % 2 ^ 4 * 2 := by
  have := w.isLt
  have e : (immBOf w).toNat = _ := toNat_append_eq ..
  rw [e]
  simp only [toNat_append_eq, extractBits_toNat, BitVec.toNat_ofNat, Nat.zero_mod]
  omega

theorem immUOf_toNat (w : InstrWord) : (immUOf w).toNat = w.toNat / 2 ^ 12 := by
  have := w.isLt
  rw [immUOf, extractBits_toNat]
  omega

theorem immJOf_toNat (w : InstrWord) : (immJOf w).toNat =
    w.toNat / 2 ^ 31 * 2 ^ 20 + w.toNat / 2 ^ 12 % 2 ^ 8 * 2 ^ 12 + w.toNat / 2 ^ 20 % 2 * 2 ^ 11 +
      w.toNat / 2 ^ 21 % 2 ^ 10 * 2 := by
  have := w.isLt
  have e : (immJOf w).toNat = _ := toNat_append_eq ..
  rw [e]
  simp only [toNat_append_eq, extractBits_toNat, BitVec.toNat_ofNat, Nat.zero_mod]
  omega

/-- Settles O26, from the unsigned value of each immediate field. -/
theorem immediateFields : Obligations.ImmediateFields := by
  intro w n
  refine ⟨?I, ?S, ?B, ?U, ?J⟩
  case I => rw [immI, toInt_signExtend_word (by decide), immIOf_toNat]; rfl
  case S => rw [immS, toInt_signExtend_word (by decide), immSOf_toNat]
  case B => rw [immB, toInt_signExtend_word (by decide), immBOf_toNat]
  case U =>
    rw [immU, toInt_signExtend_word (by decide), toNat_append_eq, immUOf_toNat, BitVec.toNat_ofNat, Nat.zero_mod,
      Nat.add_zero]
  case J => rw [immJ, toInt_signExtend_word (by decide), immJOf_toNat]

end Sys2Proof
end

section
/-! PROOFS. Each instruction's meaning is the chain of stage functions (30_encoding.md R90 to R93). -/

namespace Sys2Proof.Machine

open Sys2Proof.Laws

/-- The value an operand has by name: 0 where the instruction names no register. -/
def namedValue (r : Option RegIdx) (s : State) : Word := (r.map s.readReg).getD 0#64

/-- Commit by name: to the register the instruction names, if it names one and there is a value. -/
def commitNamed (rd : Option RegIdx) (v : Option Word) (s : State) : State :=
  match rd, v with
  | some rd, some v => s.writeReg rd v
  | some _, none | none, _ => s

section
variable (i : Instr) (s : State)

/-- An instruction reads and writes exactly the registers it names. -/
theorem readsRs1_eq : (flagsOf (some i)).readsRs1 = (namedBy i).rs1.isSome := by cases i <;> rfl

theorem readsRs2_eq : (flagsOf (some i)).readsRs2 = (namedBy i).rs2.isSome := by cases i <;> rfl

theorem writesRd_eq : (flagsOf (some i)).writesRd = (namedBy i).rd.isSome := by cases i <;> rfl

theorem collect_rs1_eq_named :
    collect (flagsOf (some i)).readsRs1 (fieldsOf i).rs1 s = namedValue (namedBy i).rs1 s := by
  rw [readsRs1_eq]
  cases h : (namedBy i).rs1 with
  | none => rfl
  | some r => rw [fieldsOf_rs1 h]; rfl

theorem collect_rs2_eq_named :
    collect (flagsOf (some i)).readsRs2 (fieldsOf i).rs2 s = namedValue (namedBy i).rs2 s := by
  rw [readsRs2_eq]
  cases h : (namedBy i).rs2 with
  | none => rfl
  | some r =>
    obtain ⟨-, -, hrs2⟩ := encodedFields i
    rw [hrs2 r h]
    rfl

theorem commitOf_eq_named (arith loaded : Option Word) :
    commitOf i arith loaded s = commitNamed (namedBy i).rd (loaded.or arith) s := by
  rw [commitOf, writesRd_eq]
  cases h : (namedBy i).rd with
  | none => rfl
  | some r => rw [fieldsOf_rd h]; cases loaded.or arith <;> rfl

end

/-- A load and its chain read at one address, and both commit what they read or stop. -/
theorem exec_load_eq_chain {i : Instr} {ext : Word → Word} {rd rs1 : RegIdx} {imm : BitVec 12} {s : State}
    (he : exec i s = loadInto (widthOf i) ext rd rs1 imm s) (hn : namedBy i = ⟨some rd, some rs1, none⟩)
    (hf : flagsOf (some i) = classFlags .load) (ha : ∀ a, addressOf i a = some (loadAddress a imm))
    (hv : ∀ v, loadResultOf i v = some (ext v)) (hnext : ∀ pc a b, nextPcOf i pc a b = pcPlus4 pc) :
    exec i s = .next (chainExec i s) := by
  have base : namedValue (namedBy i).rs1 s = s.readReg rs1 := by rw [hn]; rfl
  unfold chainExec accessOf
  simp only [collect_rs1_eq_named, collect_rs2_eq_named, commitOf_eq_named, he, loadInto, base, ha, hv, hnext]
  rw [hf, hn]
  cases s.memRead (loadAddress (s.readReg rs1) imm) (widthOf i) <;> rfl

/-- A store and its chain write the same bytes at one address, or both stop. -/
theorem exec_store_eq_chain {i : Instr} {rs1 rs2 : RegIdx} {imm : BitVec 12} {s : State}
    (he : exec i s = storeFrom (widthOf i) rs1 rs2 imm s) (hn : namedBy i = ⟨none, some rs1, some rs2⟩)
    (hf : flagsOf (some i) = classFlags .store) (ha : ∀ a, addressOf i a = some (storeAddress a imm))
    (hnext : ∀ pc a b, nextPcOf i pc a b = pcPlus4 pc) : exec i s = .next (chainExec i s) := by
  have base : namedValue (namedBy i).rs1 s = s.readReg rs1 := by rw [hn]; rfl
  have data : namedValue (namedBy i).rs2 s = s.readReg rs2 := by rw [hn]; rfl
  unfold chainExec accessOf
  simp only [collect_rs1_eq_named, collect_rs2_eq_named, commitOf_eq_named, he, storeFrom, base, data, ha, hnext]
  rw [hf, hn]
  cases s.memWrite (storeAddress (s.readReg rs1) imm) (widthOf i) (s.readReg rs2) <;> rfl

/-- Settles O30: loads and stores by their lemmas; every other instruction computes, once its registers are those
it names. -/
theorem execIsChain : Obligations.ExecIsChain := by
  intro i s
  cases i
  case lb | lh | lw | ld | lbu | lhu | lwu =>
    exact exec_load_eq_chain rfl rfl rfl (fun _ => rfl) (fun _ => rfl) fun _ _ _ => rfl
  case sb | sh | sw | sd => exact exec_store_eq_chain rfl rfl rfl (fun _ => rfl) fun _ _ _ => rfl
  all_goals
    unfold chainExec
    simp only [collect_rs1_eq_named, collect_rs2_eq_named, commitOf_eq_named]
    rfl

end Sys2Proof.Machine
end

section
/-! PROOFS. A step is total (70_reset_and_hazards.md R185, R187, R188). -/

namespace Sys2Proof.Machine

theorem step_of_illegal {s : State} (h : s.configLegal = false) : step s = .refused .configError := by
  have hr (m : RunMode) : runRefusal m s = some .configError := by simp [runRefusal, h]
  unfold step
  cases s.mode.getD .functional with
  | functional => simp [runOne, runInstructions, hr]
  | pipelined => simp [runOne, runCycles, hr]

theorem exists_functionalStep_next (s : State) : ∃ t, functionalStep s = .next t := by
  obtain ⟨-, e⟩ | ⟨-, e⟩ | ⟨i, -, e⟩ := functionalStep_cases s
  · exact ⟨_, e⟩
  · exact ⟨_, e⟩
  · obtain ⟨t, ht, -⟩ := exec_cases i s
    exact ⟨t, e.trans ht⟩

/-- Settles O38, by the mode: an edge always answers, a functional step as its instruction does. -/
theorem stepIsTotal : Obligations.StepIsTotal := by
  refine fun s => ⟨fun hc => ?_, step_of_illegal⟩
  by_cases hm : s.mode = some .pipelined
  · exact ⟨_, step_of_pipelined hc hm⟩
  · rw [step_of_functional hc hm]
    exact exists_functionalStep_next _

end Sys2Proof.Machine
end

section
/-! PROOFS. The two instructions of a wide `li` (30_encoding.md R95). -/

namespace Sys2Proof.Machine

/-- The low word of a narrow value extended to 64 bits is the value extended to 32. -/
theorem low32_signExtend {n : Nat} (x : BitVec n) : low32 (x.signExtend 64) = x.signExtend 32 := by
  apply BitVec.eq_of_getLsbD_eq
  intro i hi
  rw [low32, BitVec.getLsbD_setWidth, BitVec.getLsbD_signExtend, BitVec.getLsbD_signExtend]
  simp [hi, show i < 64 by omega]

/-- The rounding of the high part makes up for the sign of the low part (R95). -/
theorem hi20_add_lo12 (v : BitVec 32) : (hi20 v ++ 0#12 : BitVec 32) + (lo12 v).signExtend 32 = v := by
  have hhi : (hi20 v).toNat = (v.toNat + 2 ^ 11) % 2 ^ 32 / 2 ^ 12 := by
    have := (v + 0x800#32).isLt
    simp only [hi20, BitVec.extractLsb_toNat, BitVec.toNat_add, BitVec.toNat_ofNat, Nat.shiftRight_eq_div_pow]
    omega
  have hlo : (lo12 v).toNat = v.toNat % 2 ^ 12 := by
    simp only [lo12, BitVec.extractLsb_toNat, Nat.shiftRight_zero]
  have hmsb : (lo12 v).msb = decide (2 ^ 11 ≤ v.toNat % 2 ^ 12) := by
    rw [BitVec.msb_eq_decide, hlo]
  apply BitVec.eq_of_toNat_eq
  have := v.isLt
  rw [BitVec.toNat_add, toNat_append_eq, BitVec.toNat_signExtend, BitVec.toNat_setWidth, hhi, hlo, hmsb,
    BitVec.toNat_ofNat]
  by_cases h : 2 ^ 11 ≤ v.toNat % 2 ^ 12
  · rw [decide_eq_true h, if_pos rfl]
    omega
  · rw [decide_eq_false h, if_neg (by decide)]
    omega

/-- ADDIW of the low part to LUI of the high part is the constant. -/
theorem aluAddw_lui_lo12 (v : BitVec 32) : aluAddw (luiValue (hi20 v)) (immI (lo12 v)) = wordOf v.toInt := by
  have e : low32 (luiValue (hi20 v)) = hi20 v ++ 0#12 := by
    rw [luiValue, immU, low32_signExtend]
    exact BitVec.signExtend_eq _
  rw [aluAddw, immI, e, low32_signExtend, hi20_add_lo12]
  rfl

/-- Settles O56: ADDIW adds to what LUI has written. -/
theorem wideLiteral : Obligations.WideLiteral := by
  intro s rd v hrd
  have lui := regResult_commitNext s rd (luiValue (hi20 v))
  have addiw := regResult_commitNext (s.commitNext rd (luiValue (hi20 v))) rd
    (aluAddw ((s.commitNext rd (luiValue (hi20 v))).readReg rd) (immI (lo12 v)))
  refine ⟨_, _, _, _, rfl, rfl, rfl, ?_, fun r hr => ?_, fun a => ?_, ?_⟩
  · exact (addiw.target hrd).trans (by rw [lui.target hrd, aluAddw_lui_lo12])
  · exact (addiw.others r hr).trans (lui.others r hr)
  · exact (addiw.bytes a).trans (lui.bytes a)
  · rw [addiw.pc, lui.pc, pcPlus4, pcPlus4, BitVec.add_assoc]
    rfl

end Sys2Proof.Machine
end

section
/-! PROOFS. The register-register instructions of 41_alu_register.md (R97 to R106): each ALU function in plain
arithmetic, and from it the register result of its instruction. -/

namespace Sys2Proof.Machine

/-! ### From an instruction to its register result -/

theorem decode_of_encode {i : Instr} {w : InstrWord} (wf : i.WellFormed) (word : encode i = w) : decode w = .ok i :=
  word ▸ decodeEncodeRoundTrip i wf

/-- An instruction that commits `v` and goes on completes with `v` as its register result. -/
theorem completes_commitNext {i : Instr} {s : State} {rd : RegIdx} {v w : Word}
    (run : exec i s = .next (s.commitNext rd v)) (value : v = w) :
    Completes i s (RegResult s rd w (s.pc + 4#64)) :=
  ⟨_, run, value ▸ regResult_commitNext s rd v⟩

/-! ### Integers as words -/

theorem wordOf_natCast (n : Nat) : wordOf n = BitVec.ofNat 64 n := BitVec.ofInt_natCast 64 n

theorem wordOf_toNat (a : Word) : wordOf a.toNat = a := by
  rw [wordOf_natCast, BitVec.ofNat_toNat, BitVec.setWidth_eq]

theorem wordOf_add (x y : Int) : wordOf (x + y) = wordOf x + wordOf y := BitVec.ofInt_add x y

theorem wordOf_sub (x y : Int) : wordOf (x - y) = wordOf x - wordOf y := by
  rw [Int.sub_eq_add_neg, wordOf_add, BitVec.sub_eq_add_neg]
  exact congrArg _ BitVec.ofInt_neg

/-! ### Sum and difference -/

theorem aluAdd_eq (a b : Word) : aluAdd a b = wordOf ((a.toNat : Int) + b.toNat) := by
  rw [wordOf_add, wordOf_toNat, wordOf_toNat, aluAdd]

theorem aluSub_eq (a b : Word) : aluSub a b = wordOf ((a.toNat : Int) - b.toNat) := by
  rw [wordOf_sub, wordOf_toNat, wordOf_toNat, aluSub]

/-- Settles O1: each word is the instruction's encoding, and the value is the sum or difference of the sources. -/
theorem addSubtractResults : Obligations.AddSubtractResults := fun _ _ _ _ =>
  ⟨⟨decode_of_encode rfl rfl, completes_commitNext rfl (aluAdd_eq ..)⟩,
    decode_of_encode rfl rfl, completes_commitNext rfl (aluSub_eq ..)⟩

/-! ### Shifts -/

theorem shiftAmount64_toNat (v : Word) : (shiftAmount64 v).toNat = v.toNat % 64 := BitVec.toNat_setWidth 6 v

theorem aluSll_eq (a : Word) (sh : BitVec 6) : aluSll a sh = wordOf (a.toNat * 2 ^ sh.toNat) := by
  apply BitVec.eq_of_toNat_eq
  have product : ((a.toNat : Int) * 2 ^ sh.toNat) = (a.toNat * 2 ^ sh.toNat : Nat) := by norm_cast
  rw [product, wordOf_natCast, aluSll, BitVec.toNat_shiftLeft, Nat.shiftLeft_eq, BitVec.toNat_ofNat]

theorem aluSrl_eq (a : Word) (sh : BitVec 6) : aluSrl a sh = wordOf (a.toNat / 2 ^ sh.toNat) := by
  have quotient : ((a.toNat : Int) / 2 ^ sh.toNat) = (aluSrl a sh).toNat := by
    rw [aluSrl, BitVec.toNat_ushiftRight, Nat.shiftRight_eq_div_pow]
    norm_cast
  rw [quotient, wordOf_toNat]

/-- The arithmetic shift rounds towards minus infinity, as division of integers does. -/
theorem aluSra_eq (a : Word) (sh : BitVec 6) : aluSra a sh = wordOf (a.toInt / 2 ^ sh.toNat) := by
  rw [aluSra, BitVec.sshiftRight, Int.shiftRight_eq_div_pow]
  rfl

/-- Settles O2: the shift amount is `rs2` modulo 64, and each shift is the product or quotient by its power of two. -/
theorem registerShiftResults : Obligations.RegisterShiftResults := by
  intro s rd rs1 rs2
  rw [← shiftAmount64_toNat]
  exact ⟨⟨decode_of_encode rfl rfl, completes_commitNext rfl (aluSll_eq ..)⟩,
    ⟨decode_of_encode rfl rfl, completes_commitNext rfl (aluSrl_eq ..)⟩,
    decode_of_encode rfl rfl, completes_commitNext rfl (aluSra_eq ..)⟩

/-! ### Comparisons -/

theorem boolWord_decide (p : Prop) [Decidable p] : boolWord (decide p) = if p then 1#64 else 0#64 := by
  by_cases h : p <;> simp [boolWord, h]

theorem aluSlt_eq (a b : Word) : aluSlt a b = if a.toInt < b.toInt then 1#64 else 0#64 :=
  boolWord_decide (a.toInt < b.toInt)

theorem aluSltu_eq (a b : Word) : aluSltu a b = if a.toNat < b.toNat then 1#64 else 0#64 :=
  boolWord_decide (a.toNat < b.toNat)

/-- Settles O3: the flag each comparison turns into a word is the order of the signed or unsigned values. -/
theorem compareResults : Obligations.CompareResults := fun _ _ _ _ =>
  ⟨⟨decode_of_encode rfl rfl, completes_commitNext rfl (aluSlt_eq ..)⟩,
    decode_of_encode rfl rfl, completes_commitNext rfl (aluSltu_eq ..)⟩

/-! ### Bitwise operations -/

theorem isBitwise_aluXor (a b : Word) : IsBitwise xor a b (aluXor a b) := fun _ _ => BitVec.getLsbD_xor

theorem isBitwise_aluOr (a b : Word) : IsBitwise or a b (aluOr a b) := fun _ _ => BitVec.getLsbD_or

theorem isBitwise_aluAnd (a b : Word) : IsBitwise and a b (aluAnd a b) := fun _ _ => BitVec.getLsbD_and

/-- Settles O4: the value written is the ALU's, whose bits combine those of the sources. -/
theorem bitwiseResults : Obligations.BitwiseResults := fun _ _ _ _ =>
  ⟨⟨decode_of_encode rfl rfl, _, isBitwise_aluXor _ _, completes_commitNext rfl rfl⟩,
    ⟨decode_of_encode rfl rfl, _, isBitwise_aluOr _ _, completes_commitNext rfl rfl⟩,
    decode_of_encode rfl rfl, _, isBitwise_aluAnd _ _, completes_commitNext rfl rfl⟩

end Sys2Proof.Machine
end

section
/-! PROOFS. The register-immediate instructions of 42_alu_immediate.md (R109 to R117): the ALU functions of
41_alu_register.md on the sign-extended immediate, and the words near a shift that decode to nothing. -/

namespace Sys2Proof.Machine

/-! ### The sign-extended immediate -/

/-- Sign extension is the word of the signed value by definition, so SLTIU and the bitwise results need no rewriting. -/
theorem immI_eq (imm : BitVec 12) : immI imm = wordOf imm.toInt := rfl

theorem immI_toInt (imm : BitVec 12) : (immI imm).toInt = imm.toInt := BitVec.toInt_signExtend_of_le (by decide)

theorem aluAdd_immI (a : Word) (imm : BitVec 12) : aluAdd a (immI imm) = wordOf ((a.toNat : Int) + imm.toInt) := by
  rw [aluAdd, immI_eq, wordOf_add, wordOf_toNat]

theorem aluSlt_immI (a : Word) (imm : BitVec 12) :
    aluSlt a (immI imm) = if a.toInt < imm.toInt then 1#64 else 0#64 := by
  rw [aluSlt_eq, immI_toInt]

/-! ### Sum and comparisons -/

/-- The word of ADDI is the NOP sentinel when all its operands are 0 (R83). -/
theorem decode_formatI_addi (rd rs1 : RegIdx) (imm : BitVec 12) :
    decode (formatI imm rs1 0b000#3 rd 0b0010011#7) =
      if rd = 0#5 ∧ rs1 = 0#5 ∧ imm = 0#12 then .ok .nop else .ok (.addi rd rs1 imm) := by
  split
  case isTrue h =>
    obtain ⟨rfl, rfl, rfl⟩ := h
    exact decode_nopWord
  case isFalse h =>
    have wf : (Instr.addi rd rs1 imm).WellFormed := by
      simpa only [Instr.WellFormed, Instr.wellFormed, Bool.not_eq_true', ← Bool.not_eq_true, Bool.and_eq_true,
        beq_iff_eq, and_assoc] using h
    exact decode_of_encode wf rfl

/-- Settles O5: ADDI adds and the comparisons compare what the immediate is as a signed number or as a word. -/
theorem immediateArithmeticResults : Obligations.ImmediateArithmeticResults := fun _ _ _ _ =>
  ⟨⟨decode_formatI_addi .., completes_commitNext rfl (aluAdd_immI ..)⟩,
    ⟨decode_of_encode rfl rfl, completes_commitNext rfl (aluSlt_immI ..)⟩,
    decode_of_encode rfl rfl, completes_commitNext rfl (aluSltu_eq ..)⟩

/-! ### Bitwise operations -/

/-- Settles O6: the value written is the ALU's, whose bits combine those of the source and of the extended immediate. -/
theorem immediateBitwiseResults : Obligations.ImmediateBitwiseResults := fun _ _ _ _ =>
  ⟨⟨decode_of_encode rfl rfl, _, isBitwise_aluXor _ _, completes_commitNext rfl rfl⟩,
    ⟨decode_of_encode rfl rfl, _, isBitwise_aluOr _ _, completes_commitNext rfl rfl⟩,
    decode_of_encode rfl rfl, _, isBitwise_aluAnd _ _, completes_commitNext rfl rfl⟩

/-! ### Shifts -/

/-- A word of opcode 0010011 with a nonzero funct3 is no sentinel: the rows of that opcode decide. -/
theorem decode_eq_decodeOpImm {w : InstrWord} (ho : opcodeOf w = 0b0010011#7) (h3 : funct3Of w ≠ 0#3) :
    decode w = decodeOpImm w := by
  have hh : w ≠ haltWord := by rintro rfl; exact absurd ho (by decide)
  have hn : w ≠ nopWord := by rintro rfl; exact h3 rfl
  simp [decode_eq_decodeRow hh hn, decodeRow, ho]

/-- With funct3 001 the only row has funct6 000000. -/
theorem decode_shiftLeft_reject {w : InstrWord} (ho : opcodeOf w = 0b0010011#7) (h3 : funct3Of w = 0b001#3)
    (h6 : funct6Of w ≠ 0b000000#6) : decode w = .error .unknownFunct7 := by
  rw [decode_eq_decodeOpImm ho (by simp [h3])]
  simp [decodeOpImm, h3]

/-- With funct3 101 the only rows have funct6 000000 and 010000. -/
theorem decode_shiftRight_reject {w : InstrWord} (ho : opcodeOf w = 0b0010011#7) (h3 : funct3Of w = 0b101#3)
    (hl : funct6Of w ≠ 0b000000#6) (ha : funct6Of w ≠ 0b010000#6) : decode w = .error .unknownFunct7 := by
  rw [decode_eq_decodeOpImm ho (by simp [h3])]
  simp [decodeOpImm, h3]

theorem formatShift64_eq_encShift64 : formatShift64 = encShift64 := rfl

/-- Settles O7: each shift is the product or quotient by its power of two, and no row has another funct6. -/
theorem immediateShiftResults : Obligations.ImmediateShiftResults := by
  refine fun s rd rs1 shamt => ⟨⟨decode_of_encode rfl rfl, completes_commitNext rfl (aluSll_eq ..)⟩,
    ⟨decode_of_encode rfl rfl, completes_commitNext rfl (aluSrl_eq ..)⟩,
    ⟨decode_of_encode rfl rfl, completes_commitNext rfl (aluSra_eq ..)⟩,
    fun f6 h i => ?left, fun f6 hl ha i => ?right⟩
  case left =>
    have h6 := ne_of_eq_of_ne (funct6Of_encShift64 f6 shamt rs1 0b001#3 rd 0b0010011#7) h
    rw [formatShift64_eq_encShift64, decode_shiftLeft_reject (opcodeOf_encShift64 ..) (funct3Of_encShift64 ..) h6]
    nofun
  case right =>
    have h6 := funct6Of_encShift64 f6 shamt rs1 0b101#3 rd 0b0010011#7
    rw [formatShift64_eq_encShift64, decode_shiftRight_reject (opcodeOf_encShift64 ..) (funct3Of_encShift64 ..)
      (ne_of_eq_of_ne h6 hl) (ne_of_eq_of_ne h6 ha)]
    nofun

end Sys2Proof.Machine
end

section
/-! PROOFS. The word instructions of 43_alu_word.md (R119 to R127): each 32-bit result as the low word of an integer,
whose sign extension `wordOf32` is, and the words near a word shift that decode to nothing. -/

namespace Sys2Proof.Machine

/-! ### Integers as 32-bit results -/

/-- R118. -/
theorem sextWord_ofInt (x : Int) : sextWord (BitVec.ofInt 32 x) = wordOf32 x := congrArg wordOf (BitVec.toInt_ofInt x)

theorem low32_toNat (a : Word) : (low32 a).toNat = low32Nat a := BitVec.toNat_setWidth 32 a

theorem low32_toInt (a : Word) : (low32 a).toInt = low32Int a := BitVec.toInt_setWidth a

theorem ofInt_low32Nat (a : Word) : BitVec.ofInt 32 (low32Nat a) = low32 a := by
  rw [← low32_toNat, BitVec.ofInt_natCast, BitVec.ofNat_toNat, BitVec.setWidth_eq]

/-! ### Sum and difference -/

theorem aluAddw_eq (a b : Word) : aluAddw a b = wordOf32 ((low32Nat a : Int) + low32Nat b) := by
  rw [← sextWord_ofInt, BitVec.ofInt_add, ofInt_low32Nat, ofInt_low32Nat, aluAddw]

theorem aluSubw_eq (a b : Word) : aluSubw a b = wordOf32 ((low32Nat a : Int) - low32Nat b) := by
  rw [← sextWord_ofInt, Int.sub_eq_add_neg, BitVec.ofInt_add, BitVec.ofInt_neg, ofInt_low32Nat, ofInt_low32Nat,
    ← BitVec.sub_eq_add_neg, aluSubw]

theorem aluAddw_immI (a : Word) (imm : BitVec 12) : aluAddw a (immI imm) = wordOf32 ((low32Nat a : Int) + imm.toInt) := by
  have low : low32 (immI imm) = BitVec.ofInt 32 imm.toInt := low32_signExtend imm
  rw [← sextWord_ofInt, BitVec.ofInt_add, ofInt_low32Nat, aluAddw, low]

/-- Settles O8: the 32-bit sum or difference is the low word of the integer sum or difference. -/
theorem wordArithmeticResults : Obligations.WordArithmeticResults := fun _ _ _ _ _ =>
  ⟨⟨decode_of_encode rfl rfl, completes_commitNext rfl (aluAddw_immI ..)⟩,
    ⟨decode_of_encode rfl rfl, completes_commitNext rfl (aluAddw_eq ..)⟩,
    decode_of_encode rfl rfl, completes_commitNext rfl (aluSubw_eq ..)⟩

/-! ### Shifts -/

theorem aluSllw_eq (a : Word) (sh : BitVec 5) : aluSllw a sh = wordOf32 (low32Nat a * 2 ^ sh.toNat) := by
  have product : low32 a <<< sh.toNat = BitVec.ofInt 32 (low32Nat a * 2 ^ sh.toNat : Nat) := by
    apply BitVec.eq_of_toNat_eq
    rw [BitVec.toNat_shiftLeft, low32_toNat, Nat.shiftLeft_eq, BitVec.ofInt_natCast, BitVec.toNat_ofNat]
  rw [aluSllw, product, sextWord_ofInt]
  norm_cast

theorem aluSrlw_eq (a : Word) (sh : BitVec 5) : aluSrlw a sh = wordOf32 (low32Nat a / 2 ^ sh.toNat) := by
  have quotient : ((low32Nat a : Int) / 2 ^ sh.toNat) = (low32 a >>> sh.toNat).toNat := by
    rw [BitVec.toNat_ushiftRight, low32_toNat, Nat.shiftRight_eq_div_pow]
    norm_cast
  rw [quotient, ← sextWord_ofInt, BitVec.ofInt_natCast, BitVec.ofNat_toNat, BitVec.setWidth_eq, aluSrlw]

/-- The low word is shifted as a signed number, so the quotient is rounded towards minus infinity. -/
theorem aluSraw_eq (a : Word) (sh : BitVec 5) : aluSraw a sh = wordOf32 (low32Int a / 2 ^ sh.toNat) := by
  rw [aluSraw, BitVec.sshiftRight, sextWord_ofInt, low32_toInt, Int.shiftRight_eq_div_pow]
  rfl

/-- No sentinel has opcode 0011011: the rows of that opcode decide. -/
theorem decode_eq_decodeOpImm32 {w : InstrWord} (ho : opcodeOf w = 0b0011011#7) : decode w = decodeOpImm32 w := by
  have hh : w ≠ haltWord := by rintro rfl; exact absurd ho (by decide)
  have hn : w ≠ nopWord := by rintro rfl; exact absurd ho (by decide)
  simp [decode_eq_decodeRow hh hn, decodeRow, ho]

/-- With funct3 001 the only row has funct7 0000000. -/
theorem decode_wordShiftLeft_reject {w : InstrWord} (ho : opcodeOf w = 0b0011011#7) (h3 : funct3Of w = 0b001#3)
    (h7 : funct7Of w ≠ 0b0000000#7) : decode w = .error .unknownFunct7 := by
  rw [decode_eq_decodeOpImm32 ho]
  simp [decodeOpImm32, h3]

/-- With funct3 101 the only rows have funct7 0000000 and 0100000. -/
theorem decode_wordShiftRight_reject {w : InstrWord} (ho : opcodeOf w = 0b0011011#7) (h3 : funct3Of w = 0b101#3)
    (hl : funct7Of w ≠ 0b0000000#7) (ha : funct7Of w ≠ 0b0100000#7) : decode w = .error .unknownFunct7 := by
  rw [decode_eq_decodeOpImm32 ho]
  simp [decodeOpImm32, h3]

theorem formatR_eq_encR : formatR = encR := rfl

/-- Settles O9: each shift is the product or quotient by its power of two, and no row has another funct7. -/
theorem wordImmediateShiftResults : Obligations.WordImmediateShiftResults := by
  refine fun s rd rs1 shamt => ⟨⟨decode_of_encode rfl rfl, completes_commitNext rfl (aluSllw_eq ..)⟩,
    ⟨decode_of_encode rfl rfl, completes_commitNext rfl (aluSrlw_eq ..)⟩,
    ⟨decode_of_encode rfl rfl, completes_commitNext rfl (aluSraw_eq ..)⟩,
    fun f7 h i => ?left, fun f7 hl ha i => ?right⟩
  case left =>
    have h7 := ne_of_eq_of_ne (funct7Of_encR f7 shamt rs1 0b001#3 rd 0b0011011#7) h
    rw [formatR_eq_encR, decode_wordShiftLeft_reject (opcodeOf_encR ..) (funct3Of_encR ..) h7]
    nofun
  case right =>
    have h7 := funct7Of_encR f7 shamt rs1 0b101#3 rd 0b0011011#7
    rw [formatR_eq_encR, decode_wordShiftRight_reject (opcodeOf_encR ..) (funct3Of_encR ..)
      (ne_of_eq_of_ne h7 hl) (ne_of_eq_of_ne h7 ha)]
    nofun

theorem shiftAmount32_toNat (v : Word) : (shiftAmount32 v).toNat = v.toNat % 32 := BitVec.toNat_setWidth 5 v

/-- Settles O10: the shift amount is `rs2` modulo 32, and each shift is the product or quotient by its power of two. -/
theorem wordRegisterShiftResults : Obligations.WordRegisterShiftResults := by
  intro s rd rs1 rs2
  rw [← shiftAmount32_toNat]
  exact ⟨⟨decode_of_encode rfl rfl, completes_commitNext rfl (aluSllw_eq ..)⟩,
    ⟨decode_of_encode rfl rfl, completes_commitNext rfl (aluSrlw_eq ..)⟩,
    decode_of_encode rfl rfl, completes_commitNext rfl (aluSraw_eq ..)⟩

end Sys2Proof.Machine
end

section
/-! PROOFS. The upper-immediate instructions of 44_upper_immediate.md (R128, R129). -/

namespace Sys2Proof.Machine

/-- The signed value of the 20 bits above twelve zeros (R79). -/
theorem toInt_append_zeros12 (imm : BitVec 20) : (imm ++ 0#12).toInt = Int.bmod (imm.toNat * 4096) (2 ^ 32) := by
  have unsigned : (imm ++ 0#12).toNat = imm.toNat * 4096 := by
    rw [toNat_append_eq, BitVec.toNat_ofNat]
    omega
  rw [BitVec.toInt_eq_toNat_bmod, unsigned, Nat.cast_mul, Nat.cast_ofNat]

theorem luiValue_eq (imm : BitVec 20) : luiValue imm = wordOf (Int.bmod (imm.toNat * 4096) (2 ^ 32)) :=
  congrArg wordOf (toInt_append_zeros12 imm)

theorem auipcValue_eq (pc : Word) (imm : BitVec 20) :
    auipcValue pc imm = wordOf ((pc.toNat : Int) + Int.bmod (imm.toNat * 4096) (2 ^ 32)) := by
  rw [wordOf_add, wordOf_toNat, ← luiValue_eq]
  rfl

/-- Settles O11: each value is the sign-extended immediate, AUIPC's with the instruction's own pc added. -/
theorem upperImmediateResults : Obligations.UpperImmediateResults := fun _ _ _ =>
  ⟨⟨decode_of_encode rfl rfl, completes_commitNext rfl (luiValue_eq ..)⟩,
    ⟨decode_of_encode rfl rfl, completes_commitNext rfl (auipcValue_eq ..)⟩, rfl, rfl⟩

end Sys2Proof.Machine
end

section
/-! PROOFS. The loads and stores of 45_loads_stores.md (R130 to R145): what a run of each shared operation answers, and
the values that little-endian bytes give. -/

namespace Sys2Proof.Machine

/-! ### Addresses -/

/-- R130. -/
theorem loadAddress_eq (base : Word) (imm : BitVec 12) :
    loadAddress base imm = wordOf ((base.toNat : Int) + imm.toInt) := aluAdd_immI base imm

/-- R130: the S-immediate is extended as the I-immediate is. -/
theorem storeAddress_eq (base : Word) (imm : BitVec 12) :
    storeAddress base imm = wordOf ((base.toNat : Int) + imm.toInt) := aluAdd_immI base imm

/-! ### Extension of a loaded value (R132) -/

theorem signedLoad_eq (n : Nat) (v : Word) : signedLoad n v = wordOf (Int.bmod v.toNat (2 ^ (8 * n))) :=
  congrArg wordOf (BitVec.toInt_setWidth v)

theorem unsignedLoad_eq (n : Nat) (v : Word) : unsignedLoad n v = wordOf (v.toNat % 2 ^ (8 * n) : Nat) := by
  rw [wordOf_natCast, ← BitVec.toNat_setWidth, BitVec.ofNat_toNat, unsignedLoad]

theorem signedLoad_load (s : State) (a : Nat) {n : Nat} (hn : n ≤ 8) :
    signedLoad n (Memory.load s.mem a n) = wordOf (Int.bmod (leValue s a n) (2 ^ (8 * n))) := by
  rw [signedLoad_eq, Memory.load_toNat s a hn]

theorem unsignedLoad_load (s : State) (a : Nat) {n : Nat} (hn : n ≤ 8) :
    unsignedLoad n (Memory.load s.mem a n) = wordOf (leValue s a n) := by
  have fits : leValue s a n < 2 ^ (8 * n) := by
    rw [Nat.pow_mul]
    exact leValue_lt s a n
  rw [unsignedLoad_eq, Memory.load_toNat s a hn, Nat.mod_eq_of_lt fits]

/-! ### Loads -/

/-- R131: an instruction that loads `n` bytes commits their extended value, or stops the run. -/
theorem loadResult_of_loadInto {i : Instr} {s : State} {n : Nat} {ext : Word → Word} {rd rs1 : RegIdx} {imm : BitVec 12}
    {v : Word} (run : exec i s = loadInto n ext rd rs1 imm s)
    (value : ext (Memory.load s.mem (loadAddress (s.readReg rs1) imm).toNat n) = v) :
    LoadResult i s (loadAddress (s.readReg rs1) imm) n rd v := by
  refine ⟨fun inside => completes_commitNext (run.trans ?_) value, fun beyond => run.trans ?_⟩
  · rw [loadInto, memRead_of_le inside]
  · rw [loadInto, memRead_of_lt beyond, State.takeException]

/-- Settles O12: each load reads a little-endian value and commits its sign extension. -/
theorem signedLoadResults : Obligations.SignedLoadResults := fun _ _ _ _ =>
  ⟨loadAddress_eq ..,
    ⟨decode_of_encode rfl rfl, loadResult_of_loadInto rfl (signedLoad_load _ _ (by decide))⟩,
    ⟨decode_of_encode rfl rfl, loadResult_of_loadInto rfl (signedLoad_load _ _ (by decide))⟩,
    ⟨decode_of_encode rfl rfl, loadResult_of_loadInto rfl (signedLoad_load _ _ (by decide))⟩,
    decode_of_encode rfl rfl, loadResult_of_loadInto rfl (signedLoad_load _ _ (by decide))⟩

/-- Settles O13: each load reads a little-endian value, which zero extension leaves as it is. -/
theorem unsignedLoadResults : Obligations.UnsignedLoadResults := fun _ _ _ _ =>
  ⟨loadAddress_eq ..,
    ⟨decode_of_encode rfl rfl, loadResult_of_loadInto rfl (unsignedLoad_load _ _ (by decide))⟩,
    ⟨decode_of_encode rfl rfl, loadResult_of_loadInto rfl (unsignedLoad_load _ _ (by decide))⟩,
    decode_of_encode rfl rfl, loadResult_of_loadInto rfl (unsignedLoad_load _ _ (by decide))⟩

/-! ### Stores -/

/-- Storing in canonical memory and finishing gives a store result. -/
theorem storeResult_finish {s : State} (hm : Memory.wf s.mem = true) (a : Word) (n : Nat) (v npc : Word) :
    StoreResult s a n v npc ({ s with mem := Memory.store s.mem a.toNat n v }.finish npc) where
  stored k hk := (Memory.byte_store_inside hm v hk).trans (byteOf_eq_ofNat v k)
  outside _ hx := Memory.byte_store_outside v hx
  regs _ := rfl
  pc := rfl
  count := rfl
  rest := rfl

/-- R131: an instruction that stores `n` bytes writes them all and goes on, or stops the run. -/
theorem storeResult_of_storeFrom {i : Instr} {s : State} (hm : Memory.wf s.mem = true) {n : Nat} {rs1 rs2 : RegIdx}
    {imm : BitVec 12} (run : exec i s = storeFrom n rs1 rs2 imm s) :
    ((storeAddress (s.readReg rs1) imm).toNat + n ≤ s.memSize →
      Completes i s (StoreResult s (storeAddress (s.readReg rs1) imm) n (s.readReg rs2) (s.pc + 4#64))) ∧
    (s.memSize < (storeAddress (s.readReg rs1) imm).toNat + n → StopsIllegal i s) := by
  refine ⟨fun inside => ⟨_, run.trans ?_, storeResult_finish hm ..⟩, fun beyond => run.trans ?_⟩
  · rw [storeFrom, memWrite_of_le _ inside, pcPlus4]
  · rw [storeFrom, memWrite_of_lt _ beyond, State.takeException]

/-- Settles O14: each store writes the low bytes of its source, or stops. -/
theorem storeResults : Obligations.StoreResults := fun _ _ _ _ hm =>
  ⟨storeAddress_eq ..,
    ⟨decode_of_encode rfl rfl, storeResult_of_storeFrom hm rfl⟩,
    ⟨decode_of_encode rfl rfl, storeResult_of_storeFrom hm rfl⟩,
    ⟨decode_of_encode rfl rfl, storeResult_of_storeFrom hm rfl⟩,
    decode_of_encode rfl rfl, storeResult_of_storeFrom hm rfl⟩

/-! ### A load after a store (R145) -/

/-- Bytes that are the digits of `v` to the base 256 have the value `v` modulo that power of 256. -/
theorem leValue_of_digits {s : State} {a n v : Nat}
    (digits : ∀ k, k < n → s.readByte (a + k) = BitVec.ofNat 8 (v / 256 ^ k)) : leValue s a n = v % 256 ^ n := by
  induction n generalizing a v with
  | zero => exact (Nat.mod_one v).symm
  | succ n ih =>
    have low : (s.readByte a).toNat = v % 256 := by
      simpa using congrArg BitVec.toNat (digits 0 n.succ_pos)
    have high : leValue s (a + 1) n = v / 256 % 256 ^ n := ih fun k hk => by
      rw [Nat.add_right_comm, Nat.div_div_eq_div_mul, ← Nat.pow_succ']
      exact digits (k + 1) (by omega)
    rw [leValue, low, high, Nat.pow_succ', Nat.mod_mul]

/-- Settles O20: the bytes read are the digits of the stored value, so they have its value modulo `2 ^ (8 * n)`, which
either extension reduces by again. -/
theorem storeLoadRoundTrip : Obligations.StoreLoadRoundTrip := by
  intro s t u a v n hn hm store hsize same
  have h8 : n ≤ 8 := (by decide : ∀ m ∈ [1, 2, 4, 8], m ≤ 8) n hn
  have fits : a.toNat + n ≤ s.memSize := by
    by_contra h
    rw [memWrite_of_lt v (by omega)] at store
    cases store
  obtain rfl : { s with mem := Memory.store s.mem a.toNat n v } = t :=
    Except.ok.inj ((memWrite_of_le v fits).symm.trans store)
  have digits : ∀ k, k < n → u.readByte (a.toNat + k) = BitVec.ofNat 8 (v.toNat / 256 ^ k) := fun k hk =>
    (same k hk).trans ((Memory.byte_store_inside hm v hk).trans (byteOf_eq_ofNat v k))
  have value : (Memory.load u.mem a.toNat n).toNat = v.toNat % 2 ^ (8 * n) := by
    rw [Memory.load_toNat u _ h8, leValue_of_digits digits, Nat.pow_mul]
  refine ⟨_, memRead_of_le (hsize ▸ fits), value, ?_, ?_, ?_⟩
  · rw [unsignedLoad_eq, value, Nat.mod_mod]
  · rw [signedLoad_eq, value, Int.natCast_emod, Int.emod_bmod]
  · rintro rfl
    exact BitVec.eq_of_toNat_eq (value.trans (Nat.mod_eq_of_lt v.isLt))

end Sys2Proof.Machine
end

section
/-! PROOFS. Control transfer (46_control_transfer.md R146 to R157): each branch condition and each target in plain
arithmetic, and from them what a branch and a jump do. -/

namespace Sys2Proof.Machine

/-! ### Branches (R147) -/

theorem condEq_iff (a b : Word) : condEq a b = true ↔ a = b := beq_iff_eq

theorem condNe_iff (a b : Word) : condNe a b = true ↔ a ≠ b := bne_iff_ne

theorem condLt_iff (a b : Word) : condLt a b = true ↔ a.toInt < b.toInt := BitVec.slt_iff_toInt_lt

theorem condLtu_iff (a b : Word) : condLtu a b = true ↔ a.toNat < b.toNat := BitVec.ult_iff_toNat_lt

theorem condGe_iff (a b : Word) : condGe a b = true ↔ b.toInt ≤ a.toInt := by
  rw [condGe, Bool.not_eq_true', ← Bool.not_eq_true, BitVec.slt_iff_toInt_lt, Int.not_lt]

theorem condGeu_iff (a b : Word) : condGeu a b = true ↔ b.toNat ≤ a.toNat := by
  rw [condGeu, Bool.not_eq_true', ← Bool.not_eq_true, BitVec.ult_iff_toNat_lt, Nat.not_lt]

theorem branchTarget_eq {taken : Bool} {p : Prop} [Decidable p] (condition : taken = true ↔ p) (pc : Word)
    (off : BitVec 13) :
    branchTarget taken pc off = if p then wordOf ((pc.toNat : Int) + off.toInt) else pc + 4#64 := by
  rw [wordOf_add, wordOf_toNat]
  exact if_congr condition rfl rfl

/-- An instruction that branches on a condition goes to its target if the condition holds, and on to the next if not. -/
theorem completes_branchIf {i : Instr} {s : State} {cond : Word → Word → Bool} {rs1 rs2 : RegIdx} {off : BitVec 13}
    {p : Prop} [Decidable p] (run : exec i s = branchIf cond rs1 rs2 off s)
    (condition : cond (s.readReg rs1) (s.readReg rs2) = true ↔ p) :
    Completes i s (JumpResult s (if p then wordOf ((s.pc.toNat : Int) + off.toInt) else s.pc + 4#64)) :=
  ⟨_, run, branchTarget_eq condition s.pc off ▸ jumpResult_finish s _⟩

/-- Settles O15: an even offset gives each branch a word of its own, and its condition is the comparison of the
sources. -/
theorem branchResults : Obligations.BranchResults := by
  intro s rs1 rs2 off even
  have wf : (!off.getLsbD 0) = true := (Bool.not_eq_true' _).mpr even
  exact ⟨⟨decode_of_encode wf rfl, rfl, completes_branchIf rfl (condEq_iff ..)⟩,
    ⟨decode_of_encode wf rfl, rfl, completes_branchIf rfl (condNe_iff ..)⟩,
    ⟨decode_of_encode wf rfl, rfl, completes_branchIf rfl (condLt_iff ..)⟩,
    ⟨decode_of_encode wf rfl, rfl, completes_branchIf rfl (condGe_iff ..)⟩,
    ⟨decode_of_encode wf rfl, rfl, completes_branchIf rfl (condLtu_iff ..)⟩,
    decode_of_encode wf rfl, rfl, completes_branchIf rfl (condGeu_iff ..)⟩

/-! ### Jumps (R154, R155) -/

theorem jalTarget_eq (pc : Word) (off : BitVec 21) : jalTarget pc off = wordOf ((pc.toNat : Int) + off.toInt) := by
  rw [wordOf_add, wordOf_toNat]
  rfl

/-- Clearing bit 0 rounds down to an even number. -/
theorem and_not_one_eq (a : Word) : a &&& ~~~(1#64) = wordOf (2 * (a.toNat / 2)) := by
  have rounded : (2 * (a.toNat / 2) : Int) = (2 * (a.toNat / 2) : Nat) := by norm_cast
  rw [rounded, wordOf_natCast]
  apply BitVec.eq_of_getLsbD_eq
  intro k hk
  rw [BitVec.getLsbD_and, BitVec.getLsbD_not, BitVec.getLsbD_one, BitVec.getLsbD_ofNat]
  cases k with
  | zero => simp
  | succ k => simp [hk, BitVec.getLsbD, Nat.testBit_succ]

theorem jalrTarget_eq (base : Word) (imm : BitVec 12) :
    jalrTarget base imm = wordOf (2 * ((wordOf ((base.toNat : Int) + imm.toInt)).toNat / 2)) := by
  rw [jalrTarget, and_not_one_eq, ← aluAdd_immI, aluAdd]

/-- An instruction that commits its link value and jumps completes with the link as its register result. -/
theorem completes_commit {i : Instr} {s : State} {rd : RegIdx} {v npc target : Word}
    (run : exec i s = .next (s.commit rd v npc)) (jump : npc = target) : Completes i s (RegResult s rd v target) :=
  ⟨_, run, jump ▸ regResult_commit s rd v npc⟩

/-- Settles O16: both commit `pc + 4`, and JALR's target is computed before the commit, from the old value of `rs1`. -/
theorem jumpResults : Obligations.JumpResults := by
  intro s rd rs1 off imm even
  have wf : (!off.getLsbD 0) = true := (Bool.not_eq_true' _).mpr even
  exact ⟨decode_of_encode wf rfl, rfl, completes_commit rfl (jalTarget_eq ..),
    decode_of_encode rfl rfl, rfl, completes_commit rfl (jalrTarget_eq ..)⟩

end Sys2Proof.Machine
end

section
/-! PROOFS. The sentinels (47_sentinels.md R158, R159): what HALT and NOP do in functional mode, and why a NOP has no
hazard (70_reset_and_hazards.md R199, R200): each hazard is on a register that the record in ID reads. -/

namespace Sys2Proof.Machine

/-! ### Records that read or write no register -/

section
variable {d : Record} (rs1 : d.flags.readsRs1 = false) (rs2 : d.flags.readsRs2 = false)
include rs1 rs2

theorem loadUseHazard_of_readsNone (ex : Slot) : loadUseHazard d ex = false := by
  unfold loadUseHazard Record.readsRs1Of Record.readsRs2Of
  cases ex.live? <;> simp [rs1, rs2]

theorem controlHazard_of_readsNone (ex mem : Slot) : controlHazard d ex mem = false := by
  unfold controlHazard Record.readsRs1Of Record.readsRs2Of
  cases ex.live? <;> cases mem.live? <;> simp [rs1, rs2]

end

theorem Record.writes_of_not_writesRd {r : Record} (rd : r.flags.writesRd = false) (i : RegIdx) : r.writes i = false := by
  simp [Record.writes, rd]

/-! ### The sentinels -/

/-- Settles O17: `exec` finishes at the next pc, and NOP's flags read and write no register. -/
theorem nopResult : Obligations.NopResult := by
  refine ⟨decode_nopWord, fun s => ⟨_, rfl, jumpResult_finish s _⟩, fun r isNop => ?_⟩
  have readsRs1 : r.flags.readsRs1 = false := by rw [isNop]; rfl
  have readsRs2 : r.flags.readsRs2 = false := by rw [isNop]; rfl
  have writesRd : r.flags.writesRd = false := by rw [isNop]; rfl
  exact ⟨loadUseHazard_of_readsNone readsRs1 readsRs2, controlHazard_of_readsNone readsRs1 readsRs2,
    Record.writes_of_not_writesRd writesRd⟩

/-- Settles O18: decoding tests for the sentinel word first, and `exec` has HALT's meaning (R158) as its row. -/
theorem haltResult : Obligations.HaltResult :=
  ⟨decode_haltWord, fun _ => rfl⟩

end Sys2Proof.Machine
end

section
/-! PROOFS. What a fetch reads, and how the two exceptions of the pipeline are taken (60_exceptions.md R164 to R167). -/

namespace Sys2Proof.Machine

/-! ### A fetch -/

/-- Settles O54: what a fetch brings in is `FetchedAt`, and both of its outcomes leave everything else. -/
theorem fetchReads : Obligations.FetchReads := by
  refine fun s tag => ⟨fetchedAt_fetch s s tag rfl rfl rfl rfl rfl, ?_⟩
  unfold fetch
  dsimp only
  split <;> rfl

/-! ### A memory range exception -/

/-- An edge that finds a failed access in MEM takes the exception. -/
theorem edge_of_fault {o : State} {m : Record} (run : o.status = .running) (ready : o.dStall = 0)
    (live : o.slotMEM.live? = some m) (fault : m.memFault = true) :
    edge o = takeMemoryRange o { o.tick with slotWB := o.slotMEM.squash } := by
  obtain ⟨h, -⟩ | ⟨-, h, -⟩ | ⟨-, -, -, e⟩ | ⟨-, -, h, -⟩ := edge_cases o
  · exact absurd run h
  · omega
  · rw [e, wbStage_of_fault live fault]
  · rw [(memFaulting_iff o).2 ⟨m, live, fault⟩] at h
    cases h

theorem squash_of_live {sl : Slot} {r : Record} (h : sl.live? = some r) : sl.squash = .full .squashed r := by
  rcases live_cases h with rfl | rfl <;> rfl

/-- Settles O51: the exception squashes by its definition, and the fetch of the handler leaves everything else. -/
theorem memoryRangeEdge : Obligations.MemoryRangeEdge := by
  intro o m run ready live fault
  rw [edge_of_fault run ready live fault]
  have fetched : FetchedAt o (takeMemoryRange o { o.tick with slotWB := o.slotMEM.squash }) .normal o.excHandlerAddr :=
    fetchedAt_fetch o _ .normal rfl rfl rfl rfl rfl
  refine ⟨?_, ?_, ?_, ?_, fetched, ?_, ?_, fun r => readReg_congr ?_ r, ?_⟩
  · simp [takeMemoryRange, squash_of_live live]
  all_goals simp [takeMemoryRange, run, ready]

/-! ### An exception in ID -/

/-- A plain edge with an illegal record in ID takes the exception of that record. -/
theorem edge_of_illegal {o : State} {d : Record} (plain : PlainEdge o) (live : o.slotID.live? = some d)
    (illegal : d.flags.legal = false) : edge o = takeIdException o d.excKind (midEdge o) := by
  have event : idEvent o (midEdge o) = .exception d.excKind := by simp [idEvent, live, illegal]
  rw [edge_of_plain plain, frontEnd, event]

/-- Settles O50: the exception squashes by its definition; registers and memory are those after the WB and MEM steps. -/
theorem illegalInDecodeEdge : Obligations.IllegalInDecodeEdge := by
  intro o d plain live illegal
  rw [edge_of_illegal plain live illegal]
  have fetched : FetchedAt o (takeIdException o d.excKind (midEdge o)) .normal o.excHandlerAddr := by
    apply fetchedAt_fetch <;> simp
  have regs : (takeIdException o d.excKind (midEdge o)).regs = (midEdge o).regs := by simp [takeIdException]
  have mem : (takeIdException o d.excKind (midEdge o)).mem = (midEdge o).mem := by simp [takeIdException]
  have registers (r : RegIdx) := (readReg_congr regs r).trans (readReg_midEdge plain r)
  have unchanged (h : ∀ e, o.slotEX.live? = some e → e.flags = flagsOf e.op ∧ e.flags.writesMem = false) :=
    mem.trans ((memStage_mem_of_no_store o (wbStage o o.tick) h).trans (wbStage_mem o o.tick))
  have outside {e i} (live : o.slotEX.live? = some e) (op : e.op = some i) (a : Nat)
      (ha : a < e.memAddress.toNat ∨ e.memAddress.toNat + widthOf i ≤ a) :=
    (readByte_congr mem a).trans ((memStage_readByte o (wbStage o o.tick) live op ha).trans
      (readByte_congr (wbStage_mem o o.tick) a))
  refine ⟨?_, ?_, fetched, ?_, ?_, ?_, ?_, ?_, ?_, ?_, ?_, ?_, registers, unchanged,
    fun e i he hop _ => outside he hop⟩
  · simp [takeIdException, squash_of_live live]
  all_goals simp [takeIdException, excKind_ne_memoryRange]

end Sys2Proof.Machine
end

section
/-! PROOFS. The stage functions of the chain, class by class (30_encoding.md R88 to R92), and the states that agree on
what a program can see. -/

namespace Sys2Proof.Machine

/-! ### The stage functions by class -/

section
variable (i : Instr) (pc a b : Word)

/-- An instruction has an address exactly if it accesses memory. -/
theorem addressOf_isSome : (addressOf i a).isSome = ((flagsOf (some i)).readsMem || (flagsOf (some i)).writesMem) := by
  cases i <;> rfl

/-- An instruction has a loaded value exactly if it is a load. -/
theorem loadResultOf_isSome (v : Word) : (loadResultOf i v).isSome = (flagsOf (some i)).readsMem := by cases i <;> rfl

/-- An instruction computes a result exactly if it writes a register and is no load. -/
theorem arithOf_isSome :
    (arithOf i pc a b).isSome = ((flagsOf (some i)).writesRd && !(flagsOf (some i)).readsMem) := by cases i <;> rfl

variable {i}

theorem flagsOf_of_writesMem (h : (flagsOf (some i)).writesMem = true) : flagsOf (some i) = classFlags .store := by
  cases hc : classOf i <;> simp [flagsOf, hc, classFlags, noFlags] at h ⊢

theorem flagsOf_of_halt (h : (flagsOf (some i)).halt = true) : flagsOf (some i) = classFlags .halt := by
  cases hc : classOf i <;> simp [flagsOf, hc, classFlags, noFlags] at h ⊢

/-- Only a control transfer goes on elsewhere than at the next instruction. -/
theorem nextPcOf_of_not_control (h : isControl i = false) : nextPcOf i pc a b = pcPlus4 pc := by
  revert h
  cases i <;> simp [isControl, classOf, nextPcOf]

end

/-! ### What a program can see -/

/-- The two states agree on the registers, memory, the status and the instruction count. -/
structure SameArch (s t : State) : Prop where
  regs    : ∀ r, t.readReg r = s.readReg r
  mem     : t.mem = s.mem
  memSize : t.memSize = s.memSize
  status  : t.status = s.status
  count   : t.dynInstrCount = s.dynInstrCount

theorem SameArch.of_fields {s t : State} (regs : t.regs = s.regs) (mem : t.mem = s.mem)
    (memSize : t.memSize = s.memSize) (status : t.status = s.status) (count : t.dynInstrCount = s.dynInstrCount) :
    SameArch s t := ⟨readReg_congr regs, mem, memSize, status, count⟩

theorem SameArch.trans {s t u : State} (h : SameArch s t) (h' : SameArch t u) : SameArch s u :=
  ⟨fun r => (h'.regs r).trans (h.regs r), h'.mem.trans h.mem, h'.memSize.trans h.memSize, h'.status.trans h.status,
    h'.count.trans h.count⟩

theorem SameArch.writeReg {s t : State} (h : SameArch s t) (rd : RegIdx) (v : Word) :
    SameArch (s.writeReg rd v) (t.writeReg rd v) :=
  ⟨fun r => by rw [readReg_writeReg, readReg_writeReg, h.regs], by simp [h.mem], by simp [h.memSize],
    by simp [h.status], by simp [h.count]⟩

theorem SameArch.memRead {s t : State} (h : SameArch s t) (a : Word) (n : Nat) : t.memRead a n = s.memRead a n := by
  unfold State.memRead State.inRange
  rw [h.mem, h.memSize]

theorem SameArch.fetchWord {s t : State} (h : SameArch s t) (a : Word) : t.fetchWord a = s.fetchWord a := by
  unfold State.fetchWord
  rw [h.memRead]

/-- Retiring one record leaves the states in agreement. -/
theorem SameArch.retire {s t : State} (h : SameArch s t) (raised : t.excRaised = s.excRaised) (r : Record) :
    SameArch (retire r s) (retire r t) where
  regs q := by
    rw [readReg_congr (retire_regs s r), readReg_congr (retire_regs t r)]
    split
    · exact (h.writeReg _ _).regs q
    · exact h.regs q
  mem := by simp [h.mem]
  memSize := by simp [h.memSize]
  status := by simp [h.status, raised]
  count := by simp [h.count]

theorem wbStage_of_live {o : State} {m : Record} (live : o.slotMEM.live? = some m) (sound : m.memFault = false)
    (s : State) : wbStage o s = { retire m s with slotWB := o.slotMEM } := by
  simp [wbStage, memFaulting, live, sound]

theorem wbStage_of_dead {o : State} (dead : o.slotMEM.live? = none) (s : State) :
    wbStage o s = { s with slotWB := o.slotMEM } := by
  simp [wbStage, memFaulting, dead]

theorem SameArch.withSlotWB {s t : State} (h : SameArch s t) (a b : Slot) :
    SameArch { s with slotWB := a } { t with slotWB := b } := ⟨h.regs, h.mem, h.memSize, h.status, h.count⟩

/-- So does the whole WB step, of one MEM occupant. -/
theorem SameArch.wbStage {s t o o' : State} (h : SameArch s t) (raised : t.excRaised = s.excRaised)
    (slot : o'.slotMEM = o.slotMEM) : SameArch (wbStage o s) (wbStage o' t) := by
  obtain ⟨m, live, sound, e⟩ | ⟨dead, e⟩ | ⟨m, live, fault, e⟩ := wbStage_cases o s <;> rw [e]
  · rw [wbStage_of_live (slot ▸ live) sound]
    exact (h.retire raised m).withSlotWB _ _
  · rw [wbStage_of_dead (slot ▸ dead)]
    exact h.withSlotWB _ _
  · rw [wbStage_of_fault (slot ▸ live) fault]
    exact h.withSlotWB _ _

end Sys2Proof.Machine
end

section
/-! PROOFS. The MEM step runs the EX occupant: what `exec` makes of a state that agrees with the machine after the WB
step is the machine once that record has retired (70_reset_and_hazards.md R194, R195, R213). -/

namespace Sys2Proof.Machine

/-! ### Records of decoded words -/

/-- A decoded record holds a word that decodes to its operation, and the fields of that operation. -/
theorem decoded_of_recordInv {r : Record} {i : Instr} (h : RecordInv r) (op : r.op = some i) :
    ∃ w, r.raw = some w ∧ decode w = .ok i ∧ r.fields = some (fieldsOf i) := by
  cases hw : r.raw with
  | none => rw [h.op, hw] at op; cases op
  | some w =>
    have hd : decode w = .ok i := by
      rw [h.op, hw] at op
      change operationOf w = some i at op
      unfold operationOf at op
      split at op
      · next hd => cases op; exact hd
      · cases op
    refine ⟨w, rfl, hd, ?_⟩
    rw [h.fields, hw, fieldsOf, (encodes_of_decode hd).2]
    rfl

/-- The registers of a decoded record are those of its operation's word. -/
theorem Record.regs_of_fields {r : Record} {x : Fields} (h : r.fields = some x) :
    r.rd = x.rd ∧ r.rs1 = x.rs1 ∧ r.rs2 = x.rs2 := by
  simp [Record.rd, Record.rs1, Record.rs2, Record.regField, h]

/-- The operands of a record as a state holds them (30_encoding.md R91). -/
def Record.source1 (r : Record) (s : State) : Word := collect r.flags.readsRs1 r.rs1 s

def Record.source2 (r : Record) (s : State) : Word := collect r.flags.readsRs2 r.rs2 s

/-- What a record in MEM loads, if it is a load. -/
def Record.loaded (r : Record) : Option Word := if r.flags.readsMem then some r.memResult else none

section
variable {r : Record} {i : Instr} (inv : RecordInv r) (op : r.op = some i)
include inv op

theorem Record.flags_eq : flagsOf (some i) = r.flags := by rw [inv.flags, op]

theorem Record.source1_eq (s : State) : collect (flagsOf (some i)).readsRs1 (fieldsOf i).rs1 s = r.source1 s := by
  obtain ⟨-, -, -, hf⟩ := decoded_of_recordInv inv op
  rw [Record.source1, Record.flags_eq inv op, (Record.regs_of_fields hf).2.1]

theorem Record.source2_eq (s : State) : collect (flagsOf (some i)).readsRs2 (fieldsOf i).rs2 s = r.source2 s := by
  obtain ⟨-, -, -, hf⟩ := decoded_of_recordInv inv op
  rw [Record.source2, Record.flags_eq inv op, (Record.regs_of_fields hf).2.2]

/-- Commit of a record's instruction writes what the record retires with. -/
theorem commitOf_record {arith : Option Word} (computed : arith.isSome = (r.flags.writesRd && !r.flags.readsMem))
    (result : ∀ v, arith = some v → r.arithResult = v) (s : State) :
    commitOf i arith r.loaded s = if r.flags.writesRd then s.writeReg r.rd r.result else s := by
  obtain ⟨-, -, -, hf⟩ := decoded_of_recordInv inv op
  unfold commitOf Record.loaded Record.result
  rw [Record.flags_eq inv op, ← (Record.regs_of_fields hf).1]
  cases hw : r.flags.writesRd <;> cases hm : r.flags.readsMem <;> simp
  rw [hw, hm] at computed
  obtain ⟨v, hv⟩ := Option.isSome_iff_exists.1 computed
  rw [hv, result v hv]

end

/-! ### The chain of an instruction, by class -/

section
variable {i : Instr} {s : State}

theorem chainExec_of_halt (h : (flagsOf (some i)).halt = true) :
    chainExec i s = { s with dynInstrCount := s.dynInstrCount + 1, status := .halt } := by
  simp [chainExec, h]

variable {r : Record} (inv : RecordInv r) (op : r.op = some i) (goes : r.flags.halt = false)
include inv op goes

theorem chainExec_of_no_address (ha : addressOf i (r.source1 s) = none) :
    chainExec i s = (commitOf i (arithOf i s.pc (r.source1 s) (r.source2 s)) none s).finish
      (nextPcOf i s.pc (r.source1 s) (r.source2 s)) := by
  unfold chainExec
  simp only [Record.source1_eq inv op, Record.source2_eq inv op]
  rw [Record.flags_eq inv op, goes, ha]
  rfl

theorem chainExec_of_access {m : Word} {v : Option Word} {t : State} (ha : addressOf i (r.source1 s) = some m)
    (access : accessOf i m (r.source2 s) s = .ok (v, t)) :
    chainExec i s = (commitOf i (arithOf i s.pc (r.source1 s) (r.source2 s)) v t).finish
      (nextPcOf i s.pc (r.source1 s) (r.source2 s)) := by
  unfold chainExec
  simp only [Record.source1_eq inv op, Record.source2_eq inv op]
  rw [Record.flags_eq inv op, goes, ha]
  simp only [access]
  rfl

end

/-! ### The registers around the WB step -/

section
variable {o : State} (s : State) {q : RegIdx}

theorem readReg_wbStage_written {p : Record} (live : o.slotMEM.live? = some p) (sound : p.memFault = false)
    (writes : p.writes q = true) : (wbStage o s).readReg q = p.result := by
  obtain ⟨⟨writesRd, rfl⟩, nonzero⟩ : (p.flags.writesRd = true ∧ p.rd = q) ∧ q ≠ 0#5 := by
    simpa [Record.writes] using writes
  rw [wbStage_of_live live sound]
  refine (readReg_congr (retire_regs s p) p.rd).trans ?_
  rw [if_pos writesRd, readReg_writeReg, if_neg nonzero, if_pos rfl]

theorem readReg_wbStage_other (writes : ∀ p, o.slotMEM.live? = some p → p.writes q = false) :
    (wbStage o s).readReg q = s.readReg q := by
  obtain ⟨p, live, -, e⟩ | ⟨-, e⟩ | ⟨p, -, -, e⟩ := wbStage_cases o s <;> rw [e]
  · refine (readReg_congr (retire_regs s p) q).trans ?_
    have hw := writes p live
    unfold Record.writes at hw
    split
    · next writesRd =>
      rw [readReg_writeReg]
      by_cases h0 : q = 0#5
      · simp [h0]
      · have : q ≠ p.rd := by rintro rfl; simp [writesRd, h0] at hw
        simp [h0, this]
    · rfl
  · rfl
  · rfl

end

/-! ### The MEM step runs the EX occupant -/

/-- The record in EX, behind the occupant `mem` of MEM, is ready to run as instruction `i` of the state `s`: its fields
are those the stages compute from the registers of `s`. A store's data may still be on its way through MEM (R195). -/
structure Ready (mem : Slot) (s : State) (r : Record) (i : Instr) : Prop where
  pc      : r.pc = s.pc
  address : ∀ m, addressOf i (r.source1 s) = some m → r.memAddress = m
  result  : ∀ v, arithOf i s.pc (r.source1 s) (r.source2 s) = some v → r.arithResult = v
  data    : r.operand2 = r.source2 s ∨
    r.flags.writesMem = true ∧ ∃ p, mem.live? = some p ∧ p.writes r.rs2 = true
  nextPc  : r.nextPc = nextPcOf i s.pc (r.source1 s) (r.source2 s)

/-- The refresh gives a store the data the program would store (70_reset_and_hazards.md R195). -/
theorem operand2_refreshStoreData {mem : Slot} {s : State} {r : Record} {i : Instr} (ready : Ready mem s r i)
    (writesMem : r.flags.writesMem = true) (readsRs2 : r.flags.readsRs2 = true)
    (newest : ∀ p, mem.live? = some p → p.writes r.rs2 = true → s.readReg r.rs2 = p.result) :
    (refreshStoreData mem r).operand2 = r.source2 s := by
  unfold refreshStoreData
  rw [if_pos writesMem]
  cases hm : mem.live? with
  | none =>
    obtain h | ⟨-, p, hp, -⟩ := ready.data
    · exact h
    · rw [hm] at hp; cases hp
  | some p =>
    dsimp only
    split
    · next writes => rw [Record.source2, readsRs2, collect, if_pos rfl, newest p hm writes]
    · next writes =>
      obtain h | ⟨-, x, hx, hw⟩ := ready.data
      · exact h
      · rw [hm] at hx; cases hx; exact absurd hw writes

/-- The refresh leaves the fields that EX has filled but a store's data. -/
theorem refreshStoreData_fields (mem : Slot) (r : Record) :
    (refreshStoreData mem r).arithResult = r.arithResult ∧ (refreshStoreData mem r).memAddress = r.memAddress := by
  unfold refreshStoreData
  repeat' split
  all_goals exact ⟨rfl, rfl⟩

/-- What the MEM step makes of a live record. -/
structure PassesMem (r m : Record) (sl : Slot) : Prop where
  live        : sl.live? = some m
  record      : SameFetch r m
  arithResult : m.arithResult = r.arithResult

theorem passesMem (o s : State) {r : Record} (live : o.slotEX.live? = some r) :
    ∃ m, PassesMem r m (memStage o s).slotMEM := by
  obtain ⟨e, -⟩ | ⟨tag, x, slot, hx, -, e⟩ := memStage_cases o s <;> rw [e]
  · exact ⟨r, live, .refl r, rfl⟩
  · cases live.symm.trans hx
    have hl (y : Record) : Slot.live? (.full tag y) = some y := live_full_of_same_tag (slot ▸ hx)
    have hs := (sameFetch_refreshStoreData s.slotWB r).1
    have ha := (refreshStoreData_fields s.slotWB r).1
    obtain ⟨y, e, ⟨-, rfl⟩ | ⟨i, -, -, rfl⟩⟩ | ⟨i, v, mem, -, -, e, -⟩ := memAccess_cases tag r s <;> rw [e]
    · exact ⟨_, hl _, hs, ha⟩
    · exact ⟨_, hl _, { hs with }, ha⟩
    · exact ⟨_, hl _, { hs with }, ha⟩

/-- The access of the MEM step is the one of the chain. -/
theorem accessOf_agrees {w s : State} (agree : SameArch w s) {i : Instr} {a b : Word}
    (inRange : w.inRange a (widthOf i) = true) :
    accessOf i a b s = .ok
      (if (flagsOf (some i)).readsMem then
        (loadResultOf i (Memory.load w.mem a.toNat (widthOf i)), s)
      else (none, { s with mem := Memory.store w.mem a.toNat (widthOf i) b })) := by
  have hr : s.inRange a (widthOf i) = true := by rwa [State.inRange, agree.memSize]
  obtain ⟨hn, -⟩ | ⟨-, hf, e⟩ | ⟨-, hf, e⟩ := accessOf_cases i a b s
  · rw [hr] at hn; cases hn
  · rw [e, hf, agree.mem]; rfl
  · rw [e, hf, agree.mem]; rfl

theorem wbStage_slotWB {o : State} (sound : ∀ p, o.slotMEM.live? = some p → p.memFault = false) (s : State) :
    (wbStage o s).slotWB = o.slotMEM := by
  obtain ⟨p, -, -, e⟩ | ⟨-, e⟩ | ⟨p, live, fault, -⟩ := wbStage_cases o s
  · rw [e]
  · rw [e]
  · rw [sound p live] at fault; cases fault

/-- The chain of the record's instruction in `s` commits, over the memory `u` has, what the record will retire with
from the MEM slot of `u`. -/
def RunsTo (r : Record) (i : Instr) (s u : State) : Prop :=
  ∃ m, PassesMem r m u.slotMEM ∧ m.memFault = false ∧
    chainExec i s = (commitOf i (arithOf i s.pc (r.source1 s) (r.source2 s)) m.loaded { s with mem := u.mem }).finish
      r.nextPc

section
variable {o s t : State} {r : Record} {i : Instr} (agree : SameArch (wbStage o s) t)
  (sound : ∀ p, o.slotMEM.live? = some p → p.memFault = false) (inv : RecordInv r) (op : r.op = some i)
  (goes : r.flags.halt = false) (ready : Ready o.slotMEM t r i) (faultless : r.memFault = false)
include agree sound inv op goes ready faultless

/-- A load or store in MEM fails, or its access is the one of the chain. -/
theorem memAccess_runs {tag : Tag} (live : Slot.live? (.full tag r) = some r)
    (access : r.flags.readsMem = true ∨ r.flags.writesMem = true) :
    memFaulting (memAccess tag r (wbStage o s)) = true ∨ RunsTo r i t (memAccess tag r (wbStage o s)) := by
  have hl (y : Record) : Slot.live? (.full tag y) = some y := live_full_of_same_tag live
  have flags := Record.flags_eq inv op
  obtain ⟨a, ha⟩ : ∃ a, addressOf i (r.source1 t) = some a :=
    Option.isSome_iff_exists.1 (by rw [addressOf_isSome, flags]; simpa using access)
  obtain ⟨y, e, ⟨none, -⟩ | ⟨j, -, -, rfl⟩⟩ | ⟨j, v, mem, hop, inRange, e, outcome⟩ :=
    memAccess_cases tag r (wbStage o s) <;> rw [e]
  · rw [op] at none; cases none
  · exact .inl ((memFaulting_iff _).2 ⟨_, hl _, rfl⟩)
  · cases op.symm.trans hop
    rw [ready.address a ha] at inRange outcome
    obtain ⟨hs, hf⟩ := sameFetch_refreshStoreData (wbStage o s).slotWB r
    have arith := (refreshStoreData_fields (wbStage o s).slotWB r).1
    refine .inr ⟨_, ⟨hl _, { hs with }, arith⟩, hf.trans faultless, ?_⟩
    have run := accessOf_agrees agree (b := r.source2 t) inRange
    rw [flags] at run outcome
    simp only [Record.loaded, hs.flags]
    rcases outcome with ⟨isLoad, rfl, rfl⟩ | ⟨noLoad, -, rfl⟩
    · obtain ⟨v, hv⟩ : ∃ v, loadResultOf i (Memory.load (wbStage o s).mem a.toNat (widthOf i)) = some v :=
        Option.isSome_iff_exists.1 (by rw [loadResultOf_isSome, flags, isLoad])
      rw [isLoad, if_pos rfl] at run
      rw [ready.nextPc, chainExec_of_access inv op goes ha run, hv, isLoad]
      simp only [Option.getD, if_true, accessDC_mem, ← agree.mem]
    · have isStore : r.flags.writesMem = true := access.resolve_left (by simp [noLoad])
      have readsRs2 : r.flags.readsRs2 = true := by
        rw [← flags, flagsOf_of_writesMem (by rw [flags, isStore])]; rfl
      have newest (p) (hp : o.slotMEM.live? = some p) (writes : p.writes r.rs2 = true) :
          t.readReg r.rs2 = p.result := by
        rw [agree.regs, readReg_wbStage_written s hp (sound p hp) writes]
      rw [noLoad] at run
      rw [ready.nextPc, chainExec_of_access inv op goes ha run, noLoad, wbStage_slotWB sound,
        operand2_refreshStoreData ready isStore readsRs2 newest]
      rfl

/-- After the MEM step an access has failed, or the EX occupant has run. -/
theorem memStage_runs (live : o.slotEX.live? = some r) :
    memFaulting (memStage o (wbStage o s)) = true ∨ RunsTo r i t (memStage o (wbStage o s)) := by
  obtain ⟨e, plain⟩ | ⟨tag, x, slot, hx, access, e⟩ := memStage_cases o (wbStage o s) <;> rw [e]
  · obtain ⟨noLoad, noStore⟩ := plain r live
    have address := addressOf_isSome i (r.source1 t)
    rw [Record.flags_eq inv op, noLoad, noStore] at address
    refine .inr ⟨r, ⟨live, .refl r, rfl⟩, faultless, ?_⟩
    rw [ready.nextPc, chainExec_of_no_address inv op goes (Option.not_isSome_iff_eq_none.1 (by simp [address])),
      Record.loaded, noLoad, ← agree.mem]
    rfl
  · cases live.symm.trans hx
    exact memAccess_runs agree sound inv op goes ready faultless (slot ▸ live) access

end

end Sys2Proof.Machine
end

section
/-! PROOFS. A pipelined run against a functional one: the functional state is the machine once its MEM occupant has
retired, and each edge runs at most one more instruction (70_reset_and_hazards.md R213). -/

namespace Sys2Proof.Machine

/-! ### What an edge keeps of the pipeline alone -/

/-- What the comparison needs of the pipeline, whatever memory and the caches hold. -/
structure PipeInv (o : State) : Prop where
  records : RecordsInv o
  slots   : SlotsInv o
  halts   : HaltInv o
  status  : EndStatus o
  ended   : o.status ≠ .running → o.slotMEM.live? = none

theorem pipeInv_of_idle {o : State} (slots : slotsOf o = [.idle, .idle, .idle, .idle, .idle])
    (run : o.status = .running) (going : o.fetchStopped = false) (ready : o.dStall = 0) : PipeInv o := by
  obtain ⟨hIF, hID, hEX, hMEM, hWB⟩ : o.slotIF = .idle ∧ o.slotID = .idle ∧ o.slotEX = .idle ∧ o.slotMEM = .idle ∧
      o.slotWB = .idle := by simpa [slotsOf] using slots
  have idle : Slot.Issued .idle := issued_of_dead rfl
  exact {
    records := ⟨by simp [slots, recordOf], by simp [slots, Younger, recordOf], by simp [slots, recordOf]⟩
    slots := ⟨hIF ▸ idle.faultless, hID ▸ idle.settled, hID ▸ idle.faultless, hEX ▸ idle, by
      rw [hMEM, ready]; exact idle.inMem, hWB ▸ idle⟩
    halts := by constructor <;> simp [liveHalt, hEX, hMEM, hWB, going]
    status := endStatus_of_running run
    ended := fun h => absurd run h }

/-- An edge that ends the run leaves nothing live in MEM. -/
theorem EdgeCase.ended {o t : State} (h : EdgeCase o t) (ho : HaltInv o) (run : o.status = .running)
    (stop : t.status ≠ .running) : t.slotMEM.live? = none := by
  cases h with
  | stopped h => exact absurd run h
  | frozen => exact absurd run stop
  | faulted _ _ live fault =>
    rw [wbStage_of_fault live fault] at stop
    exact absurd (by simpa [takeMemoryRange] using run) stop
  | plain _ _ sound =>
    obtain ⟨halt, -⟩ | ⟨-, e⟩ := wbStage_status o o.tick sound
    · rw [frontEnd_slotMEM]
      exact (midEdge_becomes o).1.dead (ho.haltMEM halt).2
    · exact absurd (by simpa [e] using run) stop

theorem PipeInv.edge {o : State} (h : PipeInv o) : PipeInv (edge o) := by
  by_cases run : o.status = .running
  · have he := edgeCase o
    exact ⟨(he.occupantsMove run).recordsInv h.records, he.slotsInv h.slots, he.haltInv h.halts,
      he.endStatus h.halts h.status, he.ended h.halts run⟩
  · rwa [edge_of_stopped run]

/-- An exception has been raised, or a failed access will raise one at the next edge. -/
def Doomed (o : State) : Prop :=
  o.excRaised = true ∨ o.status = .running ∧ o.dStall = 0 ∧ ∃ m, o.slotMEM.live? = some m ∧ m.memFault = true

/-- A failed access raises its exception at the next edge: nothing freezes or stops the machine with one in MEM. -/
theorem PipeInv.doomed {o : State} (inv : PipeInv o) (fault : memFaulting o = true) : Doomed o := by
  obtain ⟨m, live, hm⟩ := (memFaulting_iff o).1 fault
  refine .inr ⟨?_, (inv.slots.slotMEM.pending m live hm).1, m, live, hm⟩
  by_contra stop
  rw [inv.ended stop] at live
  cases live

theorem Doomed.edge {o : State} (h : Doomed o) : Doomed (edge o) := by
  rcases h with raised | ⟨run, ready, m, live, fault⟩
  · exact .inl ((edgeCase o).flags.1 raised)
  · rw [edge_of_fault run ready live fault]
    exact .inl (by simp [takeMemoryRange])

/-- A run on which an exception is raised does not end with status HALT. -/
theorem Doomed.edges_status {o : State} (h : Doomed o) (inv : PipeInv o) (n : Nat) : (edges n o).status ≠ .halt := by
  induction n generalizing o with
  | zero =>
    intro halt
    rcases h with raised | ⟨run, -⟩
    · rw [inv.status.2 halt] at raised; cases raised
    · rw [show o.status = .halt from halt] at run; cases run
  | succ n ih => exact ih h.edge inv.edge

/-! ### The relation -/

/-- The pc behind the occupant of a slot whose successor `next` gives, if it is live. -/
def Slot.pcAfter (next : Record → Word) (sl : Slot) (pc : Word) : Word := (sl.live?.map next).getD pc

/-- ID, IF and PC hold the addresses that follow one another from `pc` on. -/
structure Follows (o : State) (pc : Word) : Prop where
  slotID  : ∀ d, o.slotID.live? = some d → d.pc = pc
  slotIF  : ∀ f, o.slotIF.live? = some f → f.pc = o.slotID.pcAfter (fun d => pcPlus4 d.pc) pc
  fetchPc : o.fetchPc = o.slotIF.pcAfter (fun f => pcPlus4 f.pc) (o.slotID.pcAfter (fun d => pcPlus4 d.pc) pc)

/-- The functional state `s` is what the pipeline `o` will have retired when its MEM occupant has: the EX occupant is
the next instruction of `s`, and behind it the front end follows the program. -/
structure Simulates (o s : State) : Prop where
  arch  : SameArch (wbStage o o) s
  ready : ∀ r i, o.slotEX.live? = some r → r.op = some i → Ready o.slotMEM s r i
  front : o.fetchStopped = false → Follows o (o.slotEX.pcAfter Record.nextPc s.pc)

theorem simulates_of_fresh {s : State} (h : Fresh s) : Simulates s s := by
  obtain ⟨hIF, hID, hEX, hMEM, -⟩ : s.slotIF = .idle ∧ s.slotID = .idle ∧ s.slotEX = .idle ∧ s.slotMEM = .idle ∧
      s.slotWB = .idle := by simpa [slotsOf] using h.slots
  refine ⟨?_, by simp [hEX], fun _ => ⟨by simp [hID], by simp [hIF], ?_⟩⟩
  · rw [wbStage_of_dead (by simp [hMEM])]
    exact .of_fields rfl rfl rfl rfl rfl
  · simp [Slot.pcAfter, hEX, hIF, hID, h.sameStart]

/-- While a data-cache miss is pending the relation stays. -/
theorem Simulates.frozen {o s : State} (h : Simulates o s) : Simulates (freeze o.tick) s where
  arch := (SameArch.wbStage (s := freeze o.tick) (t := o) (o := freeze o.tick) (o' := o)
    (.of_fields rfl rfl rfl rfl rfl) rfl rfl).trans h.arch
  ready := h.ready
  front go := ⟨(h.front go).slotID, (h.front go).slotIF, (h.front go).fetchPc⟩

theorem recordOf_of_live {sl : Slot} {r : Record} (h : sl.live? = some r) : recordOf sl = some r := by
  rcases live_cases h with rfl | rfl <;> rfl

/-- A legal record has an operation. -/
theorem op_of_legal {r : Record} (inv : RecordInv r) (legal : r.flags.legal = true) : ∃ i, r.op = some i := by
  cases op : r.op with
  | none => rw [inv.flags, op] at legal; cases legal
  | some i => exact ⟨i, rfl⟩

/-! ### The back end runs the EX occupant -/

/-- Retiring a record that is no halt is its commit and the count. -/
theorem sameArch_retire_finish {u s : State} (h : SameArch u s) {m : Record} (goes : m.flags.halt = false)
    (npc : Word) :
    SameArch (retire m u) ((if m.flags.writesRd then s.writeReg m.rd m.result else s).finish npc) where
  regs q := by
    rw [readReg_finish, readReg_congr (retire_regs u m)]
    split
    · exact (h.writeReg _ _).regs q
    · exact h.regs q
  mem := by split <;> simp [h.mem]
  memSize := by split <;> simp [h.memSize]
  status := by split <;> simp [h.status, goes]
  count := by split <;> simp [h.count]

/-- Retiring a halt with no exception raised ends the run with status HALT. -/
theorem sameArch_retire_halt {u s : State} (h : SameArch u s) {m : Record} (flags : m.flags = classFlags .halt)
    (clear : u.excRaised = false) :
    SameArch (retire m u) { s with dynInstrCount := s.dynInstrCount + 1, status := .halt } where
  regs q := by
    rw [readReg_congr (retire_regs u m), flags]
    exact h.regs q
  mem := by simp [h.mem]
  memSize := by simp [h.memSize]
  status := by simp [flags, clear, classFlags]
  count := by simp [h.count]

theorem memStage_of_no_access {o : State}
    (idle : ∀ r, o.slotEX.live? = some r → r.flags.readsMem = false ∧ r.flags.writesMem = false) (s : State) :
    memStage o s = { s with slotMEM := o.slotEX } := by
  obtain ⟨e, -⟩ | ⟨tag, r, -, live, access, -⟩ := memStage_cases o s
  · exact e
  · simp [idle r live] at access

/-- After the WB step the machine and the functional state agree. -/
theorem Simulates.sameArch_wbStage {o t : State} (sim : Simulates o t) : SameArch (wbStage o o.tick) t :=
  (SameArch.wbStage (s := o.tick) (t := o) (o := o) (.of_fields rfl rfl rfl rfl rfl) rfl rfl).trans sim.arch

/-- The MEM step changes memory only, of what a program can see. -/
theorem Simulates.sameArch_midEdge {o t : State} (sim : Simulates o t) :
    SameArch (midEdge o) { t with mem := (midEdge o).mem } := by
  have agree := sim.sameArch_wbStage
  exact ⟨fun q => (agree.regs q).trans (readReg_congr (memStage_regs o _) q).symm, rfl, by simpa using agree.memSize,
    by simpa using agree.status, by simpa using agree.count⟩

section
variable {o t : State} (inv : PipeInv o) (sim : Simulates o t) {r : Record} {i : Instr}
  (live : o.slotEX.live? = some r) (record : RecordInv r) (op : r.op = some i)
include inv sim live record op

/-- After the MEM step an access has failed, or the machine that has retired the record is what the chain of its
instruction gives. -/
theorem Simulates.chainExec_of_goes (plain : PlainEdge o) (goes : r.flags.halt = false) :
    memFaulting (midEdge o) = true ∨
    SameArch (wbStage (midEdge o) (midEdge o)) (chainExec i t) ∧ (chainExec i t).pc = r.nextPc := by
  have ready := sim.ready r i live op
  obtain fault | ⟨m, pass, sound, run⟩ := memStage_runs sim.sameArch_wbStage plain.2.2 record op goes ready
    (inv.slots.slotEX.faultless r live) live
  · exact .inl fault
  have computed := arithOf_isSome i t.pc (r.source1 t) (r.source2 t)
  rw [Record.flags_eq record op, ← pass.record.flags] at computed
  rw [commitOf_record (pass.record.recordInv record) (pass.record.op.trans op) computed
    fun v hv => pass.arithResult.trans (ready.result v hv)] at run
  rw [wbStage_of_live pass.live sound, run]
  exact .inr ⟨(sameArch_retire_finish sim.sameArch_midEdge (by rw [pass.record.flags, goes]) _).withSlotWB _ _, rfl⟩

/-- The functional halt is the halt once it has retired. -/
theorem Simulates.chainExec_of_halt (clear : o.excRaised = false) (halts : r.flags.halt = true) :
    SameArch (wbStage (midEdge o) (midEdge o)) (chainExec i t) := by
  have flags := Record.flags_eq record op
  have isHalt : r.flags = classFlags .halt := by rw [← flags]; exact flagsOf_of_halt (by rw [flags, halts])
  have e := memStage_of_no_access (fun x hx => by cases live.symm.trans hx; rw [isHalt]; exact ⟨rfl, rfl⟩)
    (wbStage o o.tick)
  have slot : (midEdge o).slotMEM.live? = some r := by rw [midEdge, e]; exact live
  have mem : (midEdge o).mem = t.mem := by rw [midEdge, e]; exact sim.sameArch_wbStage.mem.symm
  have agree := sim.sameArch_midEdge
  rw [mem] at agree
  rw [Machine.chainExec_of_halt (by rw [flags, halts]), wbStage_of_live slot (inv.slots.slotEX.faultless r live)]
  exact (sameArch_retire_halt agree isHalt (by simpa using clear)).withSlotWB _ _

end

section
variable {o t : State} (plain : PlainEdge o) (inv : PipeInv o) (sim : Simulates o t) (coherent : Coherent o)
include plain inv sim coherent

/-- The functional step runs the EX occupant: it stands at the pc, and memory still has its word (R214). -/
theorem Simulates.functionalStep_eq {r : Record} {i : Instr} (live : o.slotEX.live? = some r) (record : RecordInv r)
    (op : r.op = some i) : functionalStep t = .next (chainExec i t) := by
  obtain ⟨w, raw, decoded, -⟩ := decoded_of_recordInv record op
  have agree := sim.sameArch_wbStage
  have run : t.status = .running := by
    obtain ⟨halt, -⟩ | ⟨-, e⟩ := wbStage_status o o.tick plain.2.2
    · rw [(inv.halts.haltMEM halt).2] at live; cases live
    · rw [agree.status, e]; exact plain.1
  have fetched : t.fetchWord t.pc = .ok w := by
    rw [← (sim.ready r i live op).pc, agree.fetchWord, ← coherent o.slotEX (by simp) r w live raw]
    simp [State.fetchWord, State.memRead, State.inRange]
  rw [functionalStep_of_decode run fetched decoded]
  exact execIsChain i t

/-- An edge's WB and MEM steps run the EX occupant, if there is one, unless its access fails. -/
theorem Simulates.midEdge_runs (clear : o.excRaised = false) :
    memFaulting (midEdge o) = true ∨
    ∃ k t', functionalSteps k t = .next t' ∧ SameArch (wbStage (midEdge o) (midEdge o)) t' ∧
      (o.fetchStopped = false → t'.pc = o.slotEX.pcAfter Record.nextPc t.pc) := by
  cases live : o.slotEX.live? with
  | none =>
    have e := memStage_of_no_access (o := o) (by simp [live]) (wbStage o o.tick)
    refine .inr ⟨0, t, rfl, ?_, fun _ => by simp [Slot.pcAfter, live]⟩
    rw [midEdge, e, wbStage_of_dead live]
    exact ⟨sim.sameArch_wbStage.regs, sim.sameArch_wbStage.mem, sim.sameArch_wbStage.memSize,
      sim.sameArch_wbStage.status, sim.sameArch_wbStage.count⟩
  | some r =>
    have record : RecordInv r := inv.records.records o.slotEX (by simp [slotsOf]) r (recordOf_of_live live)
    obtain ⟨i, op⟩ : ∃ i, r.op = some i := op_of_legal record (inv.slots.slotEX.legal r live)
    have run := sim.functionalStep_eq plain inv coherent live record op
    rw [← functionalSteps_one] at run
    cases halts : r.flags.halt with
    | true =>
      have stopped := inv.halts.haltEX ⟨r, live, halts⟩
      exact .inr ⟨1, _, run, sim.chainExec_of_halt inv live record op clear halts, by simp [stopped]⟩
    | false =>
      obtain fault | ⟨agree, pc⟩ := sim.chainExec_of_goes inv live record op plain halts
      · exact .inl fault
      · exact .inr ⟨1, _, run, agree, fun _ => by simp [pc, Slot.pcAfter, live]⟩

end

end Sys2Proof.Machine
end

section
/-! PROOFS. The front end follows the program: operands are forwarded, hazards stall, and control transfers redirect
(70_reset_and_hazards.md R197 to R206), so a run that halts ends as the functional run. -/

namespace Sys2Proof.Machine

/-! ### Issue: what may leave ID -/

/-- The ID record `d` is legal and no hazard holds it back (70_reset_and_hazards.md R199, R200). -/
structure Issuable (d : Record) (ex mem : Slot) : Prop where
  legal   : d.flags.legal = true
  control : d.isControl = true → controlHazard d ex mem = false
  loadUse : d.isControl = false → loadUseHazard d ex = false

/-- What the front end can do (70_reset_and_hazards.md R198), with the hazards and the resolution that the record
leaving ID has passed, which `FrontEndCase` leaves out. -/
inductive IssueCase (o s : State) : State → Prop where
  | stalled (n : Nat) : IssueCase o s (stall { s with loadUseStalls := n })
  | raised (k : ExcKind) : IssueCase o s (takeIdException o k s)
  | redirected {d : Record} (live : o.slotID.live? = some d)
      (free : ∀ d, o.slotID.live? = some d → Issuable d o.slotEX o.slotMEM) (control : d.isControl = true) :
      IssueCase o s (redirectTo o (resolvedNextPc d s) s)
  | halted (free : ∀ d, o.slotID.live? = some d → Issuable d o.slotEX o.slotMEM) : IssueCase o s (haltInId o s)
  | flows (free : ∀ d, o.slotID.live? = some d → Issuable d o.slotEX o.slotMEM)
      (sequential : ∀ d, o.slotID.live? = some d → d.isControl = true → resolvedNextPc d s = pcPlus4 d.pc) :
      IssueCase o s (flow o s)

/-- A halt reads no register, so no hazard holds it back. -/
theorem issuable_of_halt {d : Record} (inv : RecordInv d) (legal : d.flags.legal = true)
    (halts : d.flags.halt = true) (ex mem : Slot) : Issuable d ex mem := by
  obtain ⟨i, op⟩ := op_of_legal inv legal
  have flags := Record.flags_eq inv op
  have isHalt : d.flags = classFlags .halt := by rw [← flags]; exact flagsOf_of_halt (by rw [flags, halts])
  have rs1 : d.flags.readsRs1 = false := by rw [isHalt]; rfl
  have rs2 : d.flags.readsRs2 = false := by rw [isHalt]; rfl
  exact ⟨legal, fun _ => controlHazard_of_readsNone rs1 rs2 ex mem, fun _ => loadUseHazard_of_readsNone rs1 rs2 ex⟩

theorem issueCase {o : State} (records : ∀ d, o.slotID.live? = some d → RecordInv d) (s : State) :
    IssueCase o s (frontEnd o s) := by
  have only {d : Record} {P : Record → Prop} (live : o.slotID.live? = some d) (h : P d) :
      ∀ x, o.slotID.live? = some x → P x := fun x hx => by cases live.symm.trans hx; exact h
  unfold frontEnd
  obtain ⟨dead, e⟩ | ⟨d, live, ⟨-, e⟩ | ⟨legal, halts, e⟩ | ⟨-, -, -, -, e⟩ | ⟨legal, -, control, free, next, e⟩ |
    ⟨legal, -, control, free, -, e⟩ | ⟨-, -, -, -, e⟩ | ⟨legal, -, control, free, e⟩⟩ := idEvent_cases o s <;> rw [e]
  · exact .flows (by simp [dead]) (by simp [dead])
  · exact .raised _
  · exact .halted (only live (issuable_of_halt (records d live) legal halts _ _))
  · exact .stalled s.loadUseStalls
  · exact .flows (only live ⟨legal, fun _ => free, by simp [control]⟩) (only live fun _ => next)
  · exact .redirected live (only live ⟨legal, fun _ => free, by simp [control]⟩) control
  · exact .stalled _
  · exact .flows (only live ⟨legal, by simp [control], fun _ => free⟩) (only live (by simp [control]))

/-! ### Operands -/

theorem SameFetch.writes {r r' : Record} (h : SameFetch r r') (q : RegIdx) : r'.writes q = r.writes q := by
  unfold Record.writes Record.rd Record.regField
  rw [h.flags, h.fields]

section
variable {o t : State} (sound : memFaulting (midEdge o) = false) (agree : SameArch (wbStage (midEdge o) (midEdge o)) t)
  {q : RegIdx}
include agree

/-- A register the EX occupant does not write has its final value after the WB step. -/
theorem readReg_of_not_written (free : ∀ e, o.slotEX.live? = some e → e.writes q = false) :
    (midEdge o).readReg q = t.readReg q := by
  rw [agree.regs, readReg_wbStage_other]
  intro m live
  obtain ⟨e, he, same⟩ := (midEdge_becomes o).1.live live
  rw [same.writes, free e he]

/-- Forwarding gives the value the register will have once the EX occupant has retired, unless that is a load
(70_reset_and_hazards.md R197). -/
theorem forward_eq (sound : memFaulting (midEdge o) = false)
    (free : ∀ e, o.slotEX.live? = some e → e.flags.readsMem = true → e.writes q = false) :
    forward o.slotEX (midEdge o) q = t.readReg q := by
  unfold forward
  cases live : o.slotEX.live? with
  | none => exact readReg_of_not_written agree (by simp [live])
  | some e =>
    dsimp only
    cases writes : e.writes q with
    | false => exact readReg_of_not_written agree fun x hx => by cases live.symm.trans hx; exact writes
    | true =>
      have noLoad : e.flags.readsMem = false := by
        cases h : e.flags.readsMem with
        | false => rfl
        | true => rw [free e live h] at writes; cases writes
      obtain ⟨m, pass⟩ := passesMem o (wbStage o o.tick) live
      have hm : m.memFault = false := by
        cases h : m.memFault with
        | false => rfl
        | true => rw [(memFaulting_iff _).2 ⟨m, pass.live, h⟩] at sound; cases sound
      rw [agree.regs, readReg_wbStage_written _ pass.live hm (by rw [pass.record.writes, writes]), Record.result,
        pass.record.flags, noLoad, pass.arithResult]
      rfl

end

/-! ### What a record that leaves ID becomes -/

/-- A load-use hazard is the only way to read a register too early: a record without one reads its first operand, and
its second but for a store, from no load in EX. -/
theorem loadUse_sources {d : Record} {ex : Slot} (free : loadUseHazard d ex = false) {e : Record}
    (live : ex.live? = some e) (isLoad : e.flags.readsMem = true) :
    (d.flags.readsRs1 = true → e.writes d.rs1 = false) ∧
    (d.flags.readsRs2 = true → d.flags.writesMem = false → e.writes d.rs2 = false) := by
  unfold loadUseHazard at free
  simp only [live, isLoad, Record.readsRs1Of, Record.readsRs2Of] at free
  cases h1 : d.flags.readsRs1 <;> cases h2 : d.flags.readsRs2 <;> cases h3 : d.flags.writesMem <;> simp_all

/-- A control transfer without a hazard reads no register that the EX occupant writes. -/
theorem control_sources {d : Record} {ex mem : Slot} (free : controlHazard d ex mem = false) {e : Record}
    (live : ex.live? = some e) :
    (d.flags.readsRs1 = true → e.writes d.rs1 = false) ∧ (d.flags.readsRs2 = true → e.writes d.rs2 = false) := by
  unfold controlHazard at free
  simp only [live, Record.readsRs1Of, Record.readsRs2Of] at free
  cases h1 : d.flags.readsRs1 <;> cases h2 : d.flags.readsRs2 <;> simp_all

theorem Issuable.sources {d e : Record} {ex mem : Slot} (free : Issuable d ex mem) (live : ex.live? = some e)
    (isLoad : e.flags.readsMem = true) :
    (d.flags.readsRs1 = true → e.writes d.rs1 = false) ∧
    (d.flags.readsRs2 = true → d.flags.writesMem = false → e.writes d.rs2 = false) := by
  cases control : d.isControl with
  | true =>
    obtain ⟨rs1, rs2⟩ := control_sources (free.control control) live
    exact ⟨rs1, fun h _ => rs2 h⟩
  | false => exact loadUse_sources (free.loadUse control) live isLoad

theorem Record.isControl_eq {r : Record} {i : Instr} (op : r.op = some i) : r.isControl = Machine.isControl i := by
  simp [Record.isControl, op]

/-- The operands a record is executed with (70_reset_and_hazards.md R196). -/
def forwarded (reads : Bool) (q : RegIdx) (ex : Slot) (s : State) : Word := if reads then forward ex s q else 0#64

theorem execute_eq {d : Record} {i : Instr} (op : d.op = some i) (ex : Slot) (s : State) :
    execute d ex s =
      { d with
        operand1    := forwarded d.flags.readsRs1 d.rs1 ex s
        operand2    := forwarded d.flags.readsRs2 d.rs2 ex s
        arithResult := (arithOf i d.pc (forwarded d.flags.readsRs1 d.rs1 ex s)
          (forwarded d.flags.readsRs2 d.rs2 ex s)).getD d.arithResult
        memAddress  := (addressOf i (forwarded d.flags.readsRs1 d.rs1 ex s)).getD d.memAddress
        nextPc      := if d.isControl then resolvedNextPc d s else pcPlus4 d.pc } := by
  unfold execute
  rw [op]
  rfl

section
variable {o t : State} (agree : SameArch (wbStage (midEdge o) (midEdge o)) t) {d : Record}
  (free : Issuable d o.slotEX o.slotMEM)
include agree free

/-- A control transfer resolves in ID to where the program goes on (70_reset_and_hazards.md R201). -/
theorem resolvedNextPc_eq {i : Instr} (op : d.op = some i) (control : d.isControl = true) :
    resolvedNextPc d (midEdge o) = nextPcOf i d.pc (d.source1 t) (d.source2 t) := by
  have resolved (reads : Bool) (q : RegIdx)
      (early : ∀ e, o.slotEX.live? = some e → reads = true → e.writes q = false) :
      collect reads q (midEdge o) = collect reads q t := by
    unfold collect
    split
    · next h => exact readReg_of_not_written agree fun e live => early e live h
    · rfl
  have sources (e) (live : o.slotEX.live? = some e) := control_sources (free.control control) live
  rw [resolvedNextPc, op]
  exact congrArg₂ (nextPcOf i d.pc) (resolved _ _ fun e live => (sources e live).1)
    (resolved _ _ fun e live => (sources e live).2)

variable (sound : memFaulting (midEdge o) = false)
include sound

theorem forwarded_rs1 : forwarded d.flags.readsRs1 d.rs1 o.slotEX (midEdge o) = d.source1 t := by
  unfold forwarded Record.source1 collect
  split
  · next reads => exact forward_eq agree sound fun e live isLoad => (free.sources live isLoad).1 reads
  · rfl

/-- A store may leave ID before the load that gives its data has left EX. -/
theorem forwarded_rs2 :
    forwarded d.flags.readsRs2 d.rs2 o.slotEX (midEdge o) = d.source2 t ∨
    d.flags.writesMem = true ∧ ∃ p, (midEdge o).slotMEM.live? = some p ∧ p.writes d.rs2 = true := by
  by_cases early : d.flags.writesMem = true ∧ ∃ e, o.slotEX.live? = some e ∧ e.writes d.rs2 = true
  · obtain ⟨store, e, live, writes⟩ := early
    obtain ⟨m, pass⟩ := passesMem o (wbStage o o.tick) live
    exact .inr ⟨store, m, pass.live, by rw [pass.record.writes, writes]⟩
  · refine .inl ?_
    unfold forwarded Record.source2 collect
    split
    · next reads =>
      refine forward_eq agree sound fun e live isLoad => ?_
      cases store : d.flags.writesMem with
      | false => exact (free.sources live isLoad).2 reads store
      | true => exact Bool.eq_false_iff.2 fun writes => early ⟨store, e, live, writes⟩
    · rfl

/-- A record executed with forwarded operands is ready to run. -/
theorem ready_execute {i : Instr} (inv : RecordInv d) (op : d.op = some i) (pc : d.pc = t.pc) :
    Ready (midEdge o).slotMEM t (execute d o.slotEX (midEdge o)) i := by
  have rs1 := forwarded_rs1 agree free sound
  have rs2 := forwarded_rs2 agree free sound
  have control := Record.isControl_eq op
  have store (h : d.flags.writesMem = true) (a b : Word) : arithOf i t.pc a b = none := by
    have flags := flagsOf_of_writesMem (i := i) (by rw [Record.flags_eq inv op, h])
    exact Option.not_isSome_iff_eq_none.1 (by rw [arithOf_isSome, flags]; simp [classFlags, noFlags])
  rw [execute_eq op]
  refine ⟨pc, fun m hm => ?_, fun v hv => ?_, rs2, ?_⟩
  · change addressOf i (d.source1 t) = some m at hm
    simp only [rs1, hm, Option.getD_some]
  · change arithOf i t.pc (d.source1 t) (d.source2 t) = some v at hv
    rcases rs2 with rs2 | ⟨isStore, -⟩
    · simp only [rs1, rs2, pc, hv, Option.getD_some]
    · rw [store isStore] at hv; cases hv
  · change (if d.isControl then _ else _) = nextPcOf i t.pc (d.source1 t) (d.source2 t)
    rw [← pc]
    split
    · next h => exact resolvedNextPc_eq agree free op h
    · next h => rw [nextPcOf_of_not_control _ _ _ (by simpa [control] using h)]

end

/-! ### The addresses in the front end -/

theorem pcAfter_of_live {next : Record → Word} {sl : Slot} {r : Record} (h : sl.live? = some r) (pc : Word) :
    sl.pcAfter next pc = next r := by simp [Slot.pcAfter, h]

theorem pcAfter_of_dead {next : Record → Word} {sl : Slot} (h : sl.live? = none) (pc : Word) :
    sl.pcAfter next pc = pc := by simp [Slot.pcAfter, h]

theorem pcAfter_settle (next : Record → Word) (sl : Slot) (pc : Word) :
    sl.settle.pcAfter next pc = sl.pcAfter next pc := by simp [Slot.pcAfter]

/-- A fetch at the address behind ID goes on with the program. -/
theorem follows_fetch {s : State} {tag : Tag} {pc : Word} (live : tag ≠ .squashed)
    (slotID : ∀ d, s.slotID.live? = some d → d.pc = pc)
    (fetchPc : s.fetchPc = s.slotID.pcAfter (fun d => pcPlus4 d.pc) pc) : Follows (fetch tag s) pc := by
  obtain ⟨r, slotIF, hr⟩ : ∃ r, (fetch tag s).slotIF.live? = some r ∧ r.pc = s.fetchPc := by
    have hl (r : Record) : Slot.live? (.full tag r) = some r := by
      cases tag with
      | normal => rfl
      | speculative => rfl
      | squashed => exact absurd rfl live
    obtain ⟨w, -, e, -⟩ | ⟨x, -, e, -⟩ := fetch_cases s tag <;> rw [e]
    · exact ⟨_, hl _, rfl⟩
    · exact ⟨_, hl _, rfl⟩
  refine ⟨by simpa using slotID, fun f hf => ?_, ?_⟩
  · cases slotIF.symm.trans hf
    rw [hr, fetch_slotID, fetchPc]
  · rw [pcAfter_of_live slotIF, hr, fetch_fetchPc]

theorem fetchTag_ne_squashed (sl : Slot) : fetchTag sl ≠ .squashed := by
  unfold fetchTag
  repeat' split
  all_goals nofun

/-! ### The front end follows the program -/

theorem PipeInv.record_slotID {o : State} (inv : PipeInv o) {d : Record} (live : o.slotID.live? = some d) :
    RecordInv d :=
  inv.records.records o.slotID (by simp [slotsOf]) d (recordOf_of_live live)

/-- Fetching goes on while there is a live record in ID. -/
theorem PipeInv.fetching {o : State} (inv : PipeInv o) {d : Record} (live : o.slotID.live? = some d) :
    o.fetchStopped = false :=
  Bool.eq_false_iff.2 fun stopped => by rw [(inv.halts.fetchStopped stopped).1] at live; cases live

/-- The successor a record is executed with. -/
theorem pcAfter_intoEX {o s : State} (inv : PipeInv o) {d : Record} (live : o.slotID.live? = some d)
    (legal : d.flags.legal = true) (pc : Word) :
    (intoEX o s).pcAfter Record.nextPc pc = if d.isControl then resolvedNextPc d s else pcPlus4 d.pc := by
  obtain ⟨i, op⟩ := op_of_legal (inv.record_slotID live) legal
  obtain ⟨x, hx, e⟩ | ⟨dead, -⟩ := intoEX_cases o s
  · cases live.symm.trans hx
    rw [e, pcAfter_of_live (live_normal _), execute_eq op]
  · rw [live] at dead; cases dead

theorem flow_slotEX (o s : State) : (flow o s).slotEX = intoEX o s := by
  unfold flow
  repeat' split
  all_goals simp

theorem flow_fetchStopped (o s : State) : (flow o s).fetchStopped = s.fetchStopped := by
  unfold flow
  repeat' split
  all_goals simp

/-- With no event the front end moves on along the program. -/
theorem follows_flow {o : State} (inv : PipeInv o) {pc : Word} (follows : Follows o pc)
    (go : o.fetchStopped = false) (free : ∀ d, o.slotID.live? = some d → Issuable d o.slotEX o.slotMEM)
    (sequential : ∀ d, o.slotID.live? = some d → d.isControl = true →
      resolvedNextPc d (midEdge o) = pcPlus4 d.pc) :
    Follows (flow o (midEdge o)) ((flow o (midEdge o)).slotEX.pcAfter Record.nextPc pc) := by
  have next : (intoEX o (midEdge o)).pcAfter Record.nextPc pc =
      o.slotID.pcAfter (fun d => pcPlus4 d.pc) pc := by
    cases live : o.slotID.live? with
    | none =>
      have dead := (becomes_intoEX o (midEdge o)).dead live
      rw [pcAfter_of_dead dead, pcAfter_of_dead live]
    | some d =>
      rw [pcAfter_intoEX inv live (free d live).legal, pcAfter_of_live live]
      split
      · next control => exact sequential d live control
      · rfl
  unfold flow
  split
  · rw [next]
    exact ⟨fun d hd => by simp at hd, by simpa [Slot.pcAfter] using follows.slotIF,
      by simpa [Slot.pcAfter] using follows.fetchPc⟩
  · split
    · next stopped => simp [go] at stopped
    · rw [fetch_slotEX, next]
      refine follows_fetch (fetchTag_ne_squashed _) (fun d hd => ?_) ?_
      · rw [live_settle] at hd
        exact follows.slotIF d hd
      · rw [pcAfter_settle]
        simpa using follows.fetchPc

section
variable {o t : State} (inv : PipeInv o) (front : o.fetchStopped = false → Follows o t.pc)
include inv front

/-- Unless it raises an exception or lets a halt into EX, the front end goes on along the program. -/
theorem IssueCase.follows {x : State} (h : IssueCase o (midEdge o) x) (clear : x.excRaised = false)
    (go : x.fetchStopped = false) : Follows x (x.slotEX.pcAfter Record.nextPc t.pc) := by
  cases h with
  | stalled =>
    have follows := front (by simpa [stall] using go)
    exact ⟨by simpa [stall, Slot.pcAfter] using follows.slotID, by simpa [stall, Slot.pcAfter] using follows.slotIF,
      by simpa [stall, Slot.pcAfter] using follows.fetchPc⟩
  | raised => simp [takeIdException] at clear
  | redirected live free control =>
    rw [redirectTo, fetch_slotEX]
    exact follows_fetch nofun (by simp) (by
      rw [pcAfter_of_dead (live_squash _), pcAfter_intoEX inv live (free _ live).legal, if_pos control])
  | halted => cases go
  | flows free sequential =>
    have go : o.fetchStopped = false := by simpa [flow_fetchStopped] using go
    exact follows_flow inv (front go) go free sequential

variable (agree : SameArch (wbStage (midEdge o) (midEdge o)) t) (sound : memFaulting (midEdge o) = false)
include agree sound

/-- What moves into EX is ready to run. -/
theorem ready_intoEX (free : ∀ d, o.slotID.live? = some d → Issuable d o.slotEX o.slotMEM) (r : Record) (i : Instr)
    (live : (intoEX o (midEdge o)).live? = some r) (op : r.op = some i) : Ready (midEdge o).slotMEM t r i := by
  obtain ⟨d, hd, e⟩ | ⟨dead, e⟩ := intoEX_cases o (midEdge o) <;> rw [e] at live
  · cases live
    rw [(sameFetch_execute d _ _).1.op] at op
    exact ready_execute agree (free d hd) sound (inv.record_slotID hd) op ((front (inv.fetching hd)).slotID d hd)
  · rw [dead] at live; cases live

/-- What the front end lets into EX is ready to run. -/
theorem IssueCase.ready {x : State} (h : IssueCase o (midEdge o) x) (r : Record) (i : Instr)
    (live : x.slotEX.live? = some r) (op : r.op = some i) : Ready (midEdge o).slotMEM t r i := by
  cases h with
  | stalled => simp [stall] at live
  | raised => simp [takeIdException] at live
  | redirected _ free =>
    rw [redirectTo, fetch_slotEX] at live
    exact ready_intoEX inv front agree sound free r i live op
  | halted free => exact ready_intoEX inv front agree sound free r i live op
  | flows free =>
    rw [flow_slotEX] at live
    exact ready_intoEX inv front agree sound free r i live op

/-- The front end keeps the relation, unless it raises an exception. -/
theorem simulates_frontEnd (before : o.excRaised = false) (clear : (frontEnd o (midEdge o)).excRaised = false) :
    Simulates (frontEnd o (midEdge o)) t := by
  have issue := issueCase (fun d => inv.record_slotID) (midEdge o)
  refine ⟨SameArch.trans (SameArch.wbStage (o := frontEnd o (midEdge o)) ?_ ?_ ?_) agree, ?_,
    issue.follows inv front clear⟩
  · exact .of_fields (by simp) (by simp) (by simp) (by simp) (by simp)
  · rw [clear]; simpa using before
  · rw [frontEnd_slotMEM]
  · rw [frontEnd_slotMEM]; exact issue.ready inv front agree sound

end

/-! ### A run that halts -/

/-- An edge keeps the relation, running at most one more instruction, or the run raises an exception. -/
theorem Simulates.edge_next {o t : State} (sim : Simulates o t) (inv : PipeInv o) (coherent : Coherent o)
    (run : o.status = .running) :
    Doomed (edge o) ∨ ∃ k t', functionalSteps k t = .next t' ∧ Simulates (edge o) t' := by
  by_cases doomed : Doomed (edge o)
  · exact .inl doomed
  refine .inr ?_
  have clear : o.excRaised = false := Bool.eq_false_iff.2 fun h => doomed (Doomed.edge (.inl h))
  have raised : (edge o).excRaised = false := Bool.eq_false_iff.2 fun h => doomed (.inl h)
  have sound : memFaulting (edge o) = false := Bool.eq_false_iff.2 fun h => doomed (inv.edge.doomed h)
  obtain ⟨h, -⟩ | ⟨-, -, e⟩ | ⟨-, ready, fault, -⟩ | ⟨-, ready, calm, e⟩ := edge_cases o
  · exact absurd run h
  · exact ⟨0, t, rfl, by rw [e]; exact sim.frozen⟩
  · exact absurd (Doomed.edge (inv.doomed fault)) doomed
  · have plain : PlainEdge o := ⟨run, ready, fun m live => Bool.eq_false_iff.2 fun fault => by
      rw [(memFaulting_iff o).2 ⟨m, live, fault⟩] at calm; cases calm⟩
    rw [e] at raised sound ⊢
    have sound : memFaulting (midEdge o) = false := by rwa [memFaulting, frontEnd_slotMEM] at sound
    obtain fault | ⟨k, t', steps, agree, pc⟩ := sim.midEdge_runs plain inv coherent clear
    · rw [sound] at fault; cases fault
    · exact ⟨k, t', steps,
        simulates_frontEnd inv (fun go => by rw [pc go]; exact sim.front go) agree sound clear raised⟩

/-- A stopped machine has nothing left to retire. -/
theorem Simulates.of_stopped {o t : State} (sim : Simulates o t) (inv : PipeInv o) (stop : o.status ≠ .running) :
    SameArch o t := by
  have agree := sim.arch
  rw [wbStage_of_dead (inv.ended stop)] at agree
  exact ⟨agree.regs, agree.mem, agree.memSize, agree.status, agree.count⟩

theorem edges_of_stopped {o : State} (stop : o.status ≠ .running) (n : Nat) : edges n o = o := by
  induction n with
  | zero => rfl
  | succ n ih => rw [edges, edge_of_stopped stop, ih]

theorem functionalSteps_add {j k : Nat} {s t u : State} (first : functionalSteps j s = .next t)
    (rest : functionalSteps k t = .next u) : functionalSteps (j + k) s = .next u := by
  induction j generalizing s with
  | zero => cases first; rwa [Nat.zero_add]
  | succ j ih =>
    rw [Nat.succ_add]
    unfold functionalSteps at first ⊢
    cases hs : functionalStep s with
    | next v => rw [hs] at first; exact ih first
    | fault f => rw [hs] at first; cases first
    | refused r => rw [hs] at first; cases first

/-- A pipelined run that ends with status HALT ends as a functional run. -/
theorem Simulates.edges_halt {o t : State} (sim : Simulates o t) (inv : PipeInv o) (n : Nat)
    (coherent : ∀ k, k ≤ n → Coherent (edges k o)) (halts : (edges n o).status = .halt) :
    ∃ k t', functionalSteps k t = .next t' ∧ SameArch (edges n o) t' := by
  induction n generalizing o t with
  | zero => exact ⟨0, t, rfl, sim.of_stopped inv fun run => by cases run.symm.trans halts⟩
  | succ n ih =>
    by_cases run : o.status = .running
    · obtain doomed | ⟨j, u, first, sim⟩ := sim.edge_next inv (coherent 0 (Nat.zero_le _)) run
      · exact absurd halts (doomed.edges_status inv.edge n)
      · obtain ⟨k, t', rest, agree⟩ :=
          ih sim inv.edge (fun k hk => coherent (k + 1) (Nat.succ_le_succ hk)) halts
        exact ⟨j + k, t', functionalSteps_add first rest, agree⟩
    · rw [edges_of_stopped run]
      exact ⟨0, t, rfl, sim.of_stopped inv run⟩

/-- Settles O60: a fresh machine is its own functional state, and the relation holds to the end of the run. -/
theorem pipelineAgreesWithFunctional : Obligations.PipelineAgreesWithFunctional := by
  intro s n fresh coherent halts
  obtain ⟨k, t, steps, agree⟩ := (simulates_of_fresh fresh).edges_halt
    (pipeInv_of_idle fresh.slots fresh.status fresh.noFlags.2 fresh.noStall.2) n coherent halts
  exact ⟨k, t, steps, agree.status.trans halts, agree.regs, agree.mem, agree.count⟩

end Sys2Proof.Machine
end

section
/-! PROOFS. What a squashed record holds never matters (70_reset_and_hazards.md R209): every step of an edge, run on
states that hide the same, leaves states that hide the same. -/

namespace Sys2Proof.Machine

/-! ### Hiding -/

@[simp] theorem live_hideSquashed (sl : Slot) : (hideSquashed sl).live? = sl.live? := by
  cases sl with
  | full tag r => cases tag <;> rfl
  | _ => rfl

@[simp] theorem hideSquashed_idem (sl : Slot) : hideSquashed (hideSquashed sl) = hideSquashed sl := by
  cases sl with
  | full tag r => cases tag <;> rfl
  | _ => rfl

@[simp] theorem hideSquashed_squash (sl : Slot) : hideSquashed (hideSquashed sl).squash = hideSquashed sl.squash := by
  cases sl with
  | full tag r => cases tag <;> rfl
  | _ => rfl

@[simp] theorem settle_hideSquashed (sl : Slot) : (hideSquashed sl).settle = hideSquashed sl.settle := by
  cases sl with
  | full tag r => cases tag <;> rfl
  | _ => rfl

theorem hideAllSquashed_hideAllSquashed (s : State) : hideAllSquashed (hideAllSquashed s) = hideAllSquashed s := by
  simp [hideAllSquashed]

/-- States hide the same if they differ in their slots only, and those hide the same. -/
theorem hideAllSquashed_congr {s t : State}
    (rest : t = { s with
      slotIF := t.slotIF, slotID := t.slotID, slotEX := t.slotEX, slotMEM := t.slotMEM, slotWB := t.slotWB })
    (hIF : hideSquashed s.slotIF = hideSquashed t.slotIF) (hID : hideSquashed s.slotID = hideSquashed t.slotID)
    (hEX : hideSquashed s.slotEX = hideSquashed t.slotEX) (hMEM : hideSquashed s.slotMEM = hideSquashed t.slotMEM)
    (hWB : hideSquashed s.slotWB = hideSquashed t.slotWB) : hideAllSquashed s = hideAllSquashed t := by
  rw [rest]
  simp [hideAllSquashed, hIF, hID, hEX, hMEM, hWB]

/-- A part `f` of an edge that starts in `o` cannot tell a squashed record from a bubble. -/
def Blind (f : State → State → State) : Prop :=
  ∀ o s, hideAllSquashed (f (hideAllSquashed o) (hideAllSquashed s)) = hideAllSquashed (f o s)

/-- A blind part makes states that hide the same of states that hide the same. -/
theorem Blind.congr {f : State → State → State} (blind : Blind f) {o o' s s' : State}
    (ho : hideAllSquashed o = hideAllSquashed o') (hs : hideAllSquashed s = hideAllSquashed s') :
    hideAllSquashed (f o s) = hideAllSquashed (f o' s') := by
  rw [← blind o s, ho, hs, blind]

/-! ### The WB and MEM steps -/

theorem writeReg_hideAllSquashed (s : State) (q : RegIdx) (v : Word) :
    (hideAllSquashed s).writeReg q v = hideAllSquashed (s.writeReg q v) := by
  unfold State.writeReg
  split <;> rfl

theorem retire_hideAllSquashed (r : Record) (s : State) :
    retire r (hideAllSquashed s) = hideAllSquashed (retire r s) := by
  unfold retire
  rw [writeReg_hideAllSquashed]
  cases r.flags.writesRd <;> rfl

theorem memFaulting_hideAllSquashed (o : State) : memFaulting (hideAllSquashed o) = memFaulting o := by
  simp [memFaulting, hideAllSquashed]

theorem blind_wbStage : Blind wbStage := fun o s => by
  have slot : (hideAllSquashed o).slotMEM.live? = o.slotMEM.live? := live_hideSquashed _
  obtain ⟨m, live, sound, e⟩ | ⟨dead, e⟩ | ⟨m, live, fault, e⟩ := wbStage_cases o s <;> rw [e]
  · rw [wbStage_of_live (slot.trans live) sound, retire_hideAllSquashed]
    simp [hideAllSquashed]
  · rw [wbStage_of_dead (slot.trans dead)]
    simp [hideAllSquashed]
  · rw [wbStage_of_fault (slot.trans live) fault]
    simp [hideAllSquashed]

/-- The outcome of an access with its state hidden. -/
def hideOutcome (p : Option Word × State) : Option Word × State := (p.1, hideAllSquashed p.2)

theorem accessOf_hideAllSquashed (i : Instr) (a b : Word) (s : State) :
    accessOf i a b (hideAllSquashed s) = (accessOf i a b s).map hideOutcome := by
  have range : (hideAllSquashed s).inRange a (widthOf i) = s.inRange a (widthOf i) := rfl
  unfold accessOf State.memRead State.memWrite
  rw [range]
  cases s.inRange a (widthOf i) <;> cases (flagsOf (some i)).readsMem <;> rfl

theorem memAccess_hideAllSquashed {tag : Tag} (m : Record) (s : State) :
    hideAllSquashed (memAccess tag m (hideAllSquashed s)) = hideAllSquashed (memAccess tag m s) := by
  have refreshed : refreshStoreData (hideAllSquashed s).slotWB m = refreshStoreData s.slotWB m := by
    simp [refreshStoreData, hideAllSquashed]
  unfold memAccess
  rw [refreshed]
  dsimp only
  split
  · simp [hideAllSquashed]
  · next i _ =>
    rw [accessOf_hideAllSquashed]
    cases accessOf i (refreshStoreData s.slotWB m).memAddress (refreshStoreData s.slotWB m).operand2 s <;>
      simp [hideAllSquashed, hideOutcome, Except.map, State.accessDC]

theorem blind_memStage : Blind memStage := fun o s => by
  obtain ⟨e, idle⟩ | ⟨tag, r, slot, live, access, e⟩ := memStage_cases o s <;> rw [e]
  · rw [memStage_of_no_access (by simpa [hideAllSquashed] using idle)]
    simp [hideAllSquashed]
  · have hidden : (hideAllSquashed o).slotEX = .full tag r := by
      rcases live_cases live with h | h <;> rw [slot] at h <;> cases h <;> simp [hideAllSquashed, slot, hideSquashed]
    have run : memStage (hideAllSquashed o) (hideAllSquashed s) = memAccess tag r (hideAllSquashed s) := by
      obtain ⟨-, idle⟩ | ⟨tag', r', slot', -, -, e'⟩ := memStage_cases (hideAllSquashed o) (hideAllSquashed s)
      · simp [idle r (by rw [hidden, ← slot, live])] at access
      · rw [hidden] at slot'; cases slot'; exact e'
    rw [run, memAccess_hideAllSquashed]

/-! ### The fetch and the front end -/

theorem fetch_hideAllSquashed (tag : Tag) (s : State) :
    fetch tag (hideAllSquashed s) = { hideAllSquashed (fetch tag s) with slotIF := (fetch tag s).slotIF } := by
  have word : (hideAllSquashed s).fetchWord (hideAllSquashed s).fetchPc = s.fetchWord s.fetchPc := rfl
  unfold fetch
  simp only [word]
  cases s.fetchWord s.fetchPc <;> rfl

theorem blind_fetch (tag : Tag) : Blind fun _ s => fetch tag s := fun o s => by
  dsimp only
  rw [fetch_hideAllSquashed]
  have idem := hideSquashed_idem
  exact hideAllSquashed_congr rfl rfl (idem _) (idem _) (idem _) (idem _)

theorem hides_fetch (tag : Tag) {s t : State} (h : hideAllSquashed s = hideAllSquashed t) :
    hideAllSquashed (fetch tag s) = hideAllSquashed (fetch tag t) := (blind_fetch tag).congr (o := s) rfl h

@[simp] theorem loadUseHazard_hideSquashed (d : Record) (ex : Slot) :
    loadUseHazard d (hideSquashed ex) = loadUseHazard d ex := by simp [loadUseHazard]

@[simp] theorem controlHazard_hideSquashed (d : Record) (ex mem : Slot) :
    controlHazard d (hideSquashed ex) (hideSquashed mem) = controlHazard d ex mem := by simp [controlHazard]

theorem resolvedNextPc_hideAllSquashed (d : Record) (s : State) :
    resolvedNextPc d (hideAllSquashed s) = resolvedNextPc d s := rfl

theorem execute_hideAllSquashed (d : Record) (ex : Slot) (s : State) :
    execute d (hideSquashed ex) (hideAllSquashed s) = execute d ex s := by
  have forwards (q : RegIdx) : forward (hideSquashed ex) (hideAllSquashed s) q = forward ex s q := by
    unfold forward
    rw [live_hideSquashed]
    rfl
  unfold execute
  simp only [forwards, resolvedNextPc_hideAllSquashed]

theorem idEvent_hideAllSquashed (o s : State) : idEvent (hideAllSquashed o) (hideAllSquashed s) = idEvent o s := by
  have slot : (hideAllSquashed o).slotID.live? = o.slotID.live? := live_hideSquashed _
  have loadUse (d : Record) : loadUseHazard d (hideAllSquashed o).slotEX = loadUseHazard d o.slotEX :=
    loadUseHazard_hideSquashed d _
  have control (d : Record) : controlHazard d (hideAllSquashed o).slotEX (hideAllSquashed o).slotMEM =
      controlHazard d o.slotEX o.slotMEM := controlHazard_hideSquashed d _ _
  unfold idEvent
  rw [slot]
  cases o.slotID.live? with
  | none => rfl
  | some d =>
    dsimp only
    rw [loadUse, control, resolvedNextPc_hideAllSquashed]

theorem hideSquashed_intoEX (o s : State) :
    hideSquashed (intoEX (hideAllSquashed o) (hideAllSquashed s)) = hideSquashed (intoEX o s) := by
  have slot : (hideAllSquashed o).slotID = hideSquashed o.slotID := rfl
  have ex : (hideAllSquashed o).slotEX = hideSquashed o.slotEX := rfl
  unfold intoEX
  rw [slot, ex, live_hideSquashed]
  cases o.slotID.live? with
  | none => exact hideSquashed_idem _
  | some d => dsimp only; rw [execute_hideAllSquashed]

theorem blind_flow : Blind flow := fun o s => by
  have ready : (hideAllSquashed s).iStall = s.iStall := rfl
  have stop : (hideAllSquashed s).fetchStopped = s.fetchStopped := rfl
  have settles : hideSquashed (hideAllSquashed o).slotIF.settle = hideSquashed o.slotIF.settle := by
    simp [hideAllSquashed]
  have behind : fetchTag (hideAllSquashed o).slotIF.settle = fetchTag o.slotIF.settle := by
    simp [fetchTag, hideAllSquashed]
  have idem := hideSquashed_idem
  have issues := hideSquashed_intoEX o s
  unfold flow
  rw [ready, stop, behind]
  split
  · exact hideAllSquashed_congr rfl (idem _) rfl issues (idem _) (idem _)
  · split
    · exact hideAllSquashed_congr rfl rfl settles issues (idem _) (idem _)
    · exact hides_fetch _ (hideAllSquashed_congr rfl (idem _) settles issues (idem _) (idem _))

theorem blind_frontEnd : Blind frontEnd := fun o s => by
  have squashes (sl : Slot) : hideSquashed (hideSquashed sl).squash = hideSquashed sl.squash := hideSquashed_squash sl
  have idem := hideSquashed_idem
  have issues := hideSquashed_intoEX o s
  unfold frontEnd
  rw [idEvent_hideAllSquashed]
  cases idEvent o s with
  | none => exact blind_flow o s
  | exception k =>
    exact hides_fetch _ (hideAllSquashed_congr rfl (idem _) (squashes _) (squashes _) (idem _) (idem _))
  | halt => exact hideAllSquashed_congr rfl rfl (squashes _) issues (idem _) (idem _)
  | controlStall => exact hideAllSquashed_congr rfl (idem _) (idem _) rfl (idem _) (idem _)
  | loadUseStall => exact hideAllSquashed_congr rfl (idem _) (idem _) rfl (idem _) (idem _)
  | redirect target =>
    exact hides_fetch _ (hideAllSquashed_congr rfl (idem _) (squashes _) issues (idem _) (idem _))

/-! ### The edge -/

theorem blind_takeMemoryRange : Blind takeMemoryRange := fun _ _ =>
  hides_fetch _ (hideAllSquashed_congr rfl (hideSquashed_idem _) (hideSquashed_squash _) (hideSquashed_squash _)
    (hideSquashed_squash _) (hideSquashed_idem _))

/-- Settles O45: every step of an edge is blind to what a squashed record holds. -/
theorem squashedIsInert : Obligations.SquashedIsInert := fun o => by
  have idem := hideSquashed_idem
  have same : hideAllSquashed (hideAllSquashed o) = hideAllSquashed o := hideAllSquashed_hideAllSquashed o
  have back : hideAllSquashed (wbStage (hideAllSquashed o) (hideAllSquashed o).tick) =
      hideAllSquashed (wbStage o o.tick) := blind_wbStage o o.tick
  have mid : hideAllSquashed (midEdge (hideAllSquashed o)) = hideAllSquashed (midEdge o) :=
    blind_memStage.congr same back
  have status : (hideAllSquashed o).status = o.status := rfl
  have wait : (hideAllSquashed o).dStall = o.dStall := rfl
  symm
  unfold edge
  rw [memFaulting_hideAllSquashed, status, wait]
  split
  · split
    · exact hideAllSquashed_congr rfl (idem _) (idem _) (idem _) (idem _) rfl
    · split
      · exact blind_takeMemoryRange.congr same back
      · exact blind_frontEnd.congr same mid
  · exact same

end Sys2Proof.Machine
end

section
/-! PROOFS. What the run commands refuse and answer, and how runs follow one another (70_reset_and_hazards.md R185 to
R188). -/

namespace Sys2Proof.Machine

/-! ### A run keeps the configuration and the mode -/

theorem SameConfiguration.refl (s : State) : SameConfiguration s s := ⟨rfl, rfl, rfl, rfl, rfl⟩

theorem SameConfiguration.trans {s t u : State} (h : SameConfiguration s t) (h' : SameConfiguration t u) :
    SameConfiguration s u :=
  ⟨h'.ic.trans h.ic, h'.dc.trans h.dc, h'.excHandlerAddr.trans h.excHandlerAddr, h'.memSize.trans h.memSize,
    h'.mode.trans h.mode⟩

theorem SameConfiguration.configLegal {s t : State} (h : SameConfiguration s t) : t.configLegal = s.configLegal := by
  rw [State.configLegal, h.ic, h.dc, State.configLegal]

theorem edges_configuration (n : Nat) (s : State) : SameConfiguration s (edges n s) := by
  induction n generalizing s with
  | zero => exact .refl s
  | succ n ih => exact (edge_configuration s).trans (ih (edge s))

/-- Functional steps always answer a next state. -/
theorem exists_functionalSteps_next (n : Nat) (s : State) :
    ∃ t, functionalSteps n s = .next t ∧ SameConfiguration s t := by
  induction n generalizing s with
  | zero => exact ⟨s, rfl, .refl s⟩
  | succ n ih =>
    obtain ⟨u, first⟩ := exists_functionalStep_next s
    obtain ⟨t, rest, same⟩ := ih u
    exact ⟨t, by rw [functionalSteps, first, ← rest], (functionalStep_frame first).frame.configuration.trans same⟩

/-! ### What a run command refuses (R185, R186) -/

theorem configLegal_iff (s : State) : s.configLegal = true ↔ LegalCache s.ic ∧ LegalCache s.dc := by
  rw [State.configLegal, Bool.and_eq_true, cacheLegal_iff, cacheLegal_iff]

theorem runRefusal_of_illegal {s : State} (illegal : s.configLegal = false) (m : RunMode) :
    runRefusal m s = some .configError := by simp [runRefusal, illegal]

theorem runRefusal_of_other {s : State} {m m' : RunMode} (legal : s.configLegal = true) (mode : s.mode = some m')
    (other : m' ≠ m) : runRefusal m s = some .modeError := by simp [runRefusal, legal, mode, other]

/-- A refusal is the answer of every run command of the mode. -/
theorem runCycles_refused {s : State} {r : Refusal} (h : runRefusal .pipelined s = some r) (n : Nat) :
    runCycles n s = .refused r := by rw [runCycles, h]

theorem runInstructions_refused {s : State} {r : Refusal} (h : runRefusal .functional s = some r) (n : Nat) :
    runInstructions n s = .refused r := by rw [runInstructions, h]

theorem runUntilStop_refused {s : State} {r : Refusal} {m : RunMode} (h : runRefusal m s = some r) (n : Nat) :
    hostCommand (.runUntilStop m n) s = .refused r := by simp only [hostCommand, h]

/-! ### What a run command answers -/

/-- There are two modes, and NONE. -/
theorem mode_cases {s : State} {m m' : RunMode} (h : s.mode ≠ some m') (two : m ≠ m') :
    s.mode = some m ∨ s.mode = none := by
  cases hm : s.mode with
  | none => exact .inr rfl
  | some x =>
    have other : x ≠ m' := fun e => h (by rw [hm, e])
    refine .inl (congrArg some ?_)
    cases m' <;> cases x <;> cases m <;> trivial

theorem runCycles_of_legal {s : State} (legal : s.configLegal = true)
    (mode : s.mode = some .pipelined ∨ s.mode = none) (n : Nat) :
    runCycles n s = .next (edges n { s with mode := some .pipelined }) := by
  rw [runCycles, runRefusal_eq_none.2 ⟨legal, mode⟩]

theorem runInstructions_of_legal {s : State} (legal : s.configLegal = true)
    (mode : s.mode = some .functional ∨ s.mode = none) (n : Nat) :
    runInstructions n s = functionalSteps n { s with mode := some .functional } := by
  rw [runInstructions, runRefusal_eq_none.2 ⟨legal, mode⟩]

/-- Settles O35: `runRefusal` checks the configuration, then the mode, and a run keeps the mode it is given. -/
theorem runRefusals : Obligations.RunRefusals := by
  refine fun s n => ⟨configLegal_iff s, fun illegal => ?_, fun legal mode => ?_, fun legal mode => ?_,
    fun legal mode => ?_, fun legal mode => ?_⟩
  · have refused := runRefusal_of_illegal illegal
    exact ⟨runCycles_refused (refused _) n, runInstructions_refused (refused _) n,
      fun m => runUntilStop_refused (refused m) n⟩
  · have refused : runRefusal .pipelined s = some .modeError := runRefusal_of_other legal mode nofun
    exact ⟨runCycles_refused refused n, runUntilStop_refused refused n⟩
  · have refused : runRefusal .functional s = some .modeError := runRefusal_of_other legal mode nofun
    exact ⟨runInstructions_refused refused n, runUntilStop_refused refused n⟩
  · exact ⟨_, runCycles_of_legal legal (mode_cases mode nofun) n, (edges_configuration n _).mode⟩
  · obtain ⟨t, run, same⟩ := exists_functionalSteps_next n { s with mode := some .functional }
    exact ⟨t, (runInstructions_of_legal legal (mode_cases mode nofun) n).trans run, same.mode⟩

/-! ### One run after another (R187, R188) -/

theorem edges_add (m n : Nat) (s : State) : edges (m + n) s = edges n (edges m s) := by
  induction m generalizing s with
  | zero => rw [Nat.zero_add, edges]
  | succ m ih => rw [Nat.succ_add, edges, edges, ih]

/-- A session that is in the mode a run command sets is left by it as it is. -/
theorem withMode_self {s : State} {m : RunMode} (mode : s.mode = some m) : { s with mode := some m } = s := by
  rw [← mode]

/-- Settles O36: the first run leaves the session legal and in its mode, so the second goes on from its state. -/
theorem budgetedRunsResume : Obligations.BudgetedRunsResume := by
  refine fun s m n => ⟨fun t run => ?_, fun t run => ?_, fun legal mode => ?_⟩
  · obtain ⟨legal, mode, rfl⟩ := runCycles_next run
    have same := edges_configuration m { s with mode := some .pipelined }
    rw [runCycles_of_legal legal mode, edges_add, runCycles_of_legal (same.configLegal.trans legal) (.inl same.mode),
      withMode_self same.mode]
  · obtain ⟨legal, mode, first⟩ := runInstructions_next run
    obtain ⟨u, again, same⟩ := exists_functionalSteps_next m { s with mode := some .functional }
    cases first.symm.trans again
    obtain ⟨v, rest, -⟩ := exists_functionalSteps_next n t
    rw [runInstructions_of_legal legal mode, functionalSteps_add first rest,
      runInstructions_of_legal (same.configLegal.trans legal) (.inl same.mode), withMode_self same.mode, rest]
  · rw [runCycles_of_legal legal (.inl mode), withMode_self mode]
    rfl

end Sys2Proof.Machine
end

section
/-! PROOFS. The words the spec writes out (41_alu_register.md to 47_sentinels.md). -/

namespace Sys2Proof

open Sys2Proof.Machine

/-- Settles O27: each legal word is the encoding of the instruction it names, and each other word is in no row. -/
theorem sampleWordsDecode : Obligations.SampleWordsDecode := by
  refine ⟨decode_of_encode rfl rfl, decode_of_encode rfl rfl, decode_of_encode rfl rfl, decode_of_encode rfl rfl,
    decode_of_encode rfl rfl, decode_of_encode rfl rfl, ?_⟩
  simp only [List.forall_mem_cons]
  exact ⟨rfl, rfl, rfl, rfl, rfl, rfl, nofun⟩

end Sys2Proof
end

section
/-! PROOFS. The freeze, the WB step and the MEM step of an edge (70_reset_and_hazards.md R193 to R195). -/

namespace Sys2Proof.Machine

/-! ### The freeze -/

theorem edge_of_frozen {o : State} (run : o.status = .running) (wait : 0 < o.dStall) : edge o = freeze o.tick := by
  simp [edge, run, wait]

/-- Settles O42, by induction on the number of edges: one freeze edge counts down and leaves the machine running. -/
theorem freezeEdges : Obligations.FreezeEdges := by
  intro s k run bound
  induction k generalizing s with
  | zero => rfl
  | succ k ih =>
    have left : k ≤ (freeze s.tick).dStall := by
      change k ≤ s.dStall - 1
      omega
    rw [edges, edge_of_frozen run (by omega), ih (freeze s.tick) run left]
    simp [freeze, Nat.sub_sub, Nat.add_comm k 1, Nat.add_assoc]

/-! ### The write-back -/

/-- What an edge that does not freeze leaves of the WB step. -/
structure WritesBack (o t : State) : Prop where
  regs   : t.regs = (wbStage o o.tick).regs
  slotWB : t.slotWB = (wbStage o o.tick).slotWB
  count  : t.dynInstrCount = (wbStage o o.tick).dynInstrCount
  status : t.status = (wbStage o o.tick).status

theorem edge_writesBack {o : State} (run : o.status = .running) (ready : o.dStall = 0) : WritesBack o (edge o) := by
  obtain ⟨h, -⟩ | ⟨-, h, -⟩ | ⟨-, -, -, e⟩ | ⟨-, -, -, e⟩ := edge_cases o
  · exact absurd run h
  · omega
  · rw [e]
    constructor <;> simp [takeMemoryRange]
  · rw [e]
    constructor <;> simp

/-- The WB step writes what `writeBack` says, and nothing for a failed access. -/
theorem readReg_wbStage_tick (o : State) (q : RegIdx) : (wbStage o o.tick).readReg q = readAfterWriteBack o q := by
  cases hf : memFaulting o with
  | false => exact readReg_wbStage (o := o) (s := o.tick) rfl hf q
  | true =>
    obtain ⟨m, live, fault⟩ := (memFaulting_iff o).1 hf
    rw [wbStage_of_fault live fault]
    simp only [readAfterWriteBack, writeBack, live, fault]
    rfl

/-- Settles O43: registers, WB, count and status are those of the WB step, by the occupant of MEM. -/
theorem writeBackEdge : Obligations.WriteBackEdge := by
  refine fun o => ⟨edge_of_stopped, fun run ready => ?_⟩
  obtain ⟨regs, slotWB, count, status⟩ := edge_writesBack run ready
  refine ⟨fun r => (readReg_congr regs r).trans (readReg_wbStage_tick o r), fun m live fault => ?_,
    fun m live sound => ?_, fun dead => ?_⟩
  · rw [slotWB, count, status, wbStage_of_fault live fault]
    exact ⟨squash_of_live live, rfl, run⟩
  · rw [slotWB, count, status, wbStage_of_live live sound]
    exact ⟨rfl, rfl, by rw [← run]; rfl⟩
  · rw [slotWB, count, status, wbStage_of_dead dead]
    exact ⟨rfl, rfl, run⟩

/-! ### The MEM step -/

/-- The data operand of the record `e` in EX as it enters MEM: a store's is refreshed by the write-back (R195). -/
def storeData (o : State) (e : Record) : Word :=
  if e.flags.writesMem = true ∧ (writeBack o).map Prod.fst = some e.rs2 then readAfterWriteBack o e.rs2 else e.operand2

theorem writeBack_of_dead {o : State} (dead : o.slotMEM.live? = none) : writeBack o = none := by
  simp [writeBack, dead]

theorem writeBack_of_writes {o : State} {p : Record} (live : o.slotMEM.live? = some p) (sound : p.memFault = false)
    {q : RegIdx} (writes : p.writes q = true) : writeBack o = some (q, p.result) := by
  obtain ⟨⟨writesRd, rfl⟩, nonzero⟩ : (p.flags.writesRd = true ∧ p.rd = q) ∧ q ≠ 0#5 := by
    simpa [Record.writes] using writes
  simp [writeBack, live, sound, writesRd, nonzero]

theorem writeBack_of_not_writes {o : State} {p : Record} (live : o.slotMEM.live? = some p) {q : RegIdx}
    (other : p.writes q = false) : (writeBack o).map Prod.fst ≠ some q := by
  unfold writeBack
  simp only [live]
  split
  · next h =>
    rintro e
    cases e
    simp [Record.writes, h] at other
  · nofun

theorem refreshStoreData_eq {o : State} (plain : PlainEdge o) (e : Record) :
    refreshStoreData (wbStage o o.tick).slotWB e = { e with operand2 := storeData o e } := by
  rw [wbStage_slotWB plain.2.2]
  unfold refreshStoreData storeData
  cases e.flags.writesMem with
  | false => simp
  | true =>
    cases live : o.slotMEM.live? with
    | none => simp [writeBack_of_dead live]
    | some p =>
      cases writes : p.writes e.rs2 with
      | false => simp [writes, writeBack_of_not_writes live writes]
      | true => simp [writes, readAfterWriteBack, writeBack_of_writes live (plain.2.2 p live) writes]

/-- The MEM step of a live load or store is its access, after the WB step. -/
theorem midEdge_of_access {o : State} {tag : Tag} {e : Record} (slot : o.slotEX = .full tag e)
    (live : o.slotEX.live? = some e) (access : e.flags.readsMem = true ∨ e.flags.writesMem = true) :
    midEdge o = memAccess tag e (wbStage o o.tick) := by
  obtain ⟨-, idle⟩ | ⟨tag', e', slot', -, -, run⟩ := memStage_cases o (wbStage o o.tick)
  · simp [idle e live] at access
  · cases slot.symm.trans slot'
    exact run

section
variable {o : State} (plain : PlainEdge o) {tag : Tag} {e : Record} {i : Instr} (slot : o.slotEX = .full tag e)
  (live : o.slotEX.live? = some e) (op : e.op = some i)
  (access : e.flags.readsMem = true ∨ e.flags.writesMem = true)
include plain slot live op access

/-- An access out of range is noted in the record (R195 step 3). -/
theorem midEdge_of_outOfRange (outside : o.memSize < e.memAddress.toNat + widthOf i) :
    midEdge o = { wbStage o o.tick with
      slotMEM := .full tag { e with operand2 := storeData o e, memFault := true } } := by
  have noRange : (wbStage o o.tick).inRange e.memAddress (widthOf i) = false := by
    simpa [State.inRange] using outside
  rw [midEdge_of_access slot live access]
  obtain ⟨r, h, ⟨none, -⟩ | ⟨j, -, -, rfl⟩⟩ | ⟨j, v, mem, hop, inRange, -⟩ :=
    memAccess_cases tag e (wbStage o o.tick)
  · rw [op] at none; cases none
  · rw [h, refreshStoreData_eq plain]
  · cases op.symm.trans hop
    rw [noRange] at inRange; cases inRange

/-- An access in range reads or writes memory and queries the data cache (R195 steps 2 and 4). -/
theorem midEdge_of_inRange (flags : e.flags = flagsOf e.op) (inside : e.memAddress.toNat + widthOf i ≤ o.memSize) :
    ∃ v mem, midEdge o =
        { { wbStage o o.tick with mem := mem }.accessDC e.memAddress with
          slotMEM := .full tag { e with operand2 := storeData o e, memResult := v } } ∧
      (e.flags.readsMem = true → mem = o.mem ∧
        loadResultOf i (Memory.load o.mem e.memAddress.toNat (widthOf i)) = some v) ∧
      (e.flags.writesMem = true → v = e.memResult ∧
        mem = Memory.store o.mem e.memAddress.toNat (widthOf i) (storeData o e)) := by
  have range : (wbStage o o.tick).inRange e.memAddress (widthOf i) = true := by
    simpa [State.inRange] using inside
  have flags : flagsOf (some i) = e.flags := by rw [flags, op]
  rw [midEdge_of_access slot live access]
  obtain ⟨r, -, ⟨none, -⟩ | ⟨j, hop, outside, -⟩⟩ | ⟨j, v, mem, hop, -, h, outcome⟩ :=
    memAccess_cases tag e (wbStage o o.tick)
  · rw [op] at none; cases none
  · cases op.symm.trans hop
    rw [range] at outside; cases outside
  · cases op.symm.trans hop
    rw [refreshStoreData_eq plain] at h outcome
    rw [flags, wbStage_mem, tick_mem] at outcome
    refine ⟨v, mem, h, fun isLoad => ?_, fun isStore => ?_⟩
    · obtain ⟨-, same, value⟩ | ⟨noLoad, -⟩ := outcome
      · obtain ⟨x, hx⟩ := Option.isSome_iff_exists.1 (by
          rw [loadResultOf_isSome i (Memory.load o.mem e.memAddress.toNat (widthOf i)), flags, isLoad])
        rw [hx] at value
        exact ⟨same, by rw [hx, value]; rfl⟩
      · rw [isLoad] at noLoad; cases noLoad
    · obtain ⟨isLoad, -⟩ | ⟨-, kept, stored⟩ := outcome
      · rw [← flags, flagsOf_of_writesMem (by rw [flags, isStore])] at isLoad; cases isLoad
      · exact ⟨kept, stored⟩

end

/-- What the front end leaves of the MEM step. -/
theorem edge_memory {o : State} (plain : PlainEdge o) :
    (edge o).slotMEM = (midEdge o).slotMEM ∧ (edge o).mem = (midEdge o).mem ∧
    (edge o).dcache = (midEdge o).dcache ∧ (edge o).dStall = (midEdge o).dStall := by
  rw [edge_of_plain plain]
  exact ⟨frontEnd_slotMEM _ _, frontEnd_mem _ _, frontEnd_dcache _ _, frontEnd_dStall _ _⟩

/-- Settles O44: the MEM step by the EX occupant; the front end leaves memory and the data cache alone. -/
theorem memoryStageEdge : Obligations.MemoryStageEdge := by
  intro o plain
  obtain ⟨slotMEM, mem, dcache, dStall⟩ := edge_memory plain
  rw [slotMEM, mem, dcache, dStall]
  refine ⟨fun idle => ?_, fun tag e i slot live op flags access => ⟨fun outside => ?_, fun inside => ?_⟩⟩
  · rw [midEdge, memStage_of_no_access idle]
    simp [plain.2.1]
  · rw [midEdge_of_outOfRange plain slot live op access outside]
    exact ⟨rfl, by simp, by simp, by simp [plain.2.1]⟩
  · obtain ⟨v, m, h, load, store⟩ := midEdge_of_inRange plain slot live op access flags inside
    rw [h]
    refine ⟨by simp [State.accessDC], by simp [State.accessDC, plain.2.1], fun isLoad => ?_, fun isStore => ?_⟩
    · obtain ⟨same, value⟩ := load isLoad
      exact ⟨by simp [same], _, v, memRead_of_le inside, value, rfl⟩
    · obtain ⟨rfl, rfl⟩ := store isStore
      exact ⟨rfl, _, memWrite_of_le _ inside, rfl⟩

end Sys2Proof.Machine
end

section
/-! PROOFS. The two hazards and their stalls (70_reset_and_hazards.md R199, R200, R207, R212). -/

namespace Sys2Proof.Machine

/-! ### The conditions -/

theorem Record.writes_iff (p : Record) (q : RegIdx) :
    p.writes q = true ↔ p.flags.writesRd = true ∧ p.rd = q ∧ q ≠ 0#5 := by
  simp [Record.writes, and_assoc]

/-- Every load writes its rd (30_encoding.md R88). -/
theorem writesRd_of_readsMem {op : Option Instr} (isLoad : (flagsOf op).readsMem = true) :
    (flagsOf op).writesRd = true := by
  cases op with
  | none => cases isLoad
  | some i => revert isLoad; cases h : classOf i <;> simp [flagsOf, h, classFlags, noFlags]

/-- The record reads register `q`. -/
def Record.Reads (d : Record) (q : RegIdx) : Prop :=
  d.flags.readsRs1 = true ∧ d.rs1 = q ∨ d.flags.readsRs2 = true ∧ d.rs2 = q

theorem reads_iff (d p : Record) :
    (d.readsRs1Of p || d.readsRs2Of p) = true ↔ ∃ q, d.Reads q ∧ p.writes q = true := by
  unfold Record.readsRs1Of Record.readsRs2Of Record.Reads
  rw [Bool.or_eq_true, Bool.and_eq_true, Bool.and_eq_true]
  constructor
  · rintro (⟨reads, writes⟩ | ⟨reads, writes⟩)
    · exact ⟨_, .inl ⟨reads, rfl⟩, writes⟩
    · exact ⟨_, .inr ⟨reads, rfl⟩, writes⟩
  · rintro ⟨q, ⟨reads, rfl⟩ | ⟨reads, rfl⟩, writes⟩
    · exact .inl ⟨reads, writes⟩
    · exact .inr ⟨reads, writes⟩

theorem loadUseHazard_iff {d e : Record} {ex : Slot} (live : ex.live? = some e) (flags : e.flags = flagsOf e.op) :
    loadUseHazard d ex = true ↔ e.flags.readsMem = true ∧ e.rd ≠ 0#5 ∧
      (d.flags.readsRs1 = true ∧ d.rs1 = e.rd ∨
        d.flags.readsRs2 = true ∧ d.rs2 = e.rd ∧ d.flags.writesMem = false) := by
  have writes (isLoad : e.flags.readsMem = true) (q : RegIdx) : e.writes q = true ↔ q = e.rd ∧ e.rd ≠ 0#5 := by
    rw [Record.writes_iff, flags, writesRd_of_readsMem (flags ▸ isLoad)]
    constructor
    · rintro ⟨-, rfl, nonzero⟩; exact ⟨rfl, nonzero⟩
    · rintro ⟨rfl, nonzero⟩; exact ⟨rfl, rfl, nonzero⟩
  unfold loadUseHazard Record.readsRs1Of Record.readsRs2Of
  simp only [live, Bool.and_eq_true, Bool.or_eq_true, Bool.not_eq_true']
  constructor
  · rintro ⟨isLoad, ⟨reads, h⟩ | ⟨⟨reads, h⟩, noStore⟩⟩
    · obtain ⟨same, nonzero⟩ := (writes isLoad _).1 h
      exact ⟨isLoad, nonzero, .inl ⟨reads, same⟩⟩
    · obtain ⟨same, nonzero⟩ := (writes isLoad _).1 h
      exact ⟨isLoad, nonzero, .inr ⟨reads, same, noStore⟩⟩
  · rintro ⟨isLoad, nonzero, ⟨reads, same⟩ | ⟨reads, same, noStore⟩⟩
    · exact ⟨isLoad, .inl ⟨reads, (writes isLoad _).2 ⟨same, nonzero⟩⟩⟩
    · exact ⟨isLoad, .inr ⟨⟨reads, (writes isLoad _).2 ⟨same, nonzero⟩⟩, noStore⟩⟩

theorem controlHazard_iff (d : Record) (ex mem : Slot) :
    controlHazard d ex mem = true ↔
      (∃ e, ex.live? = some e ∧ ∃ q, d.Reads q ∧ e.writes q = true) ∨
      ∃ m, mem.live? = some m ∧ m.flags.readsMem = true ∧ ∃ q, d.Reads q ∧ m.writes q = true := by
  simp only [← reads_iff]
  unfold controlHazard
  cases ex.live? <;> cases mem.live? <;> simp

/-! ### A stall -/

/-- From `o` to `t` the front end stalls: EX becomes a BUBBLE, ID and IF hold, nothing is fetched, and a pending fetch
goes on (R207). -/
structure Stalls (o t : State) : Prop where
  slotEX : t.slotEX = .bubble
  slotID : t.slotID = o.slotID
  slotIF : t.slotIF = o.slotIF
  fetch  : FetchesNothing o t
  iStall : t.iStall = o.iStall - 1

theorem stalls_stall (o : State) (n : Nat) : Stalls o (stall { midEdge o with loadUseStalls := n }) where
  slotEX := rfl
  slotID := by simp [stall]
  slotIF := by simp [stall]
  fetch  := ⟨by simp [stall], by simp [stall], by simp [stall]⟩
  iStall := by simp [stall]

/-! ### The load-use stall -/

/-- The edge from `o` stalls on a load (R199, R212). -/
def LoadUseStalls (o : State) : Prop :=
  PlainEdge o ∧ ∃ d, o.slotID.live? = some d ∧ d.flags.legal = true ∧ d.flags.halt = false ∧
    d.isControl = false ∧ loadUseHazard d o.slotEX = true

theorem edge_of_loadUseStalls {o : State} (h : LoadUseStalls o) :
    edge o = stall { midEdge o with loadUseStalls := o.loadUseStalls + 1 } := by
  obtain ⟨plain, d, live, legal, noHalt, noControl, hazard⟩ := h
  have event : idEvent o (midEdge o) = .loadUseStall := by
    simp [idEvent, live, legal, noHalt, noControl, hazard]
  rw [edge_of_plain plain, frontEnd, event]
  simp

/-- Of the cases of the ID-stage event only one is a load-use stall. -/
theorem hazard_of_loadUseStall {o s : State} (event : idEvent o s = .loadUseStall) :
    ∃ d, o.slotID.live? = some d ∧ d.flags.legal = true ∧ d.flags.halt = false ∧
      d.isControl = false ∧ loadUseHazard d o.slotEX = true := by
  simpa [event] using idEvent_cases o s

theorem flow_kept (o s : State) :
    (flow o s).excRaised = s.excRaised ∧ (flow o s).loadUseStalls = s.loadUseStalls := by
  unfold flow
  repeat' split
  all_goals simp

/-- Only the load-use stall is counted. -/
theorem frontEnd_loadUseStalls {o s : State} (other : idEvent o s ≠ .loadUseStall) :
    (frontEnd o s).loadUseStalls = s.loadUseStalls := by
  unfold frontEnd
  cases h : idEvent o s with
  | none => exact (flow_kept o s).2
  | exception k => simp [takeIdException]
  | halt => rfl
  | controlStall => rfl
  | loadUseStall => exact absurd h other
  | redirect target => simp [redirectTo]

theorem EdgeCase.loadUseStalls {o t : State} (h : EdgeCase o t) (free : ¬ LoadUseStalls o) :
    t.loadUseStalls = o.loadUseStalls := by
  cases h with
  | stopped => rfl
  | frozen => rfl
  | faulted => simp [takeMemoryRange]
  | plain run ready sound =>
    have other : idEvent o (midEdge o) ≠ .loadUseStall :=
      fun event => free ⟨⟨run, ready, sound⟩, hazard_of_loadUseStall event⟩
    rw [frontEnd_loadUseStalls other]
    simp

/-- Behind a BUBBLE in EX there is no load to wait for. -/
theorem not_loadUseStalls_of_bubble {o : State} (slot : o.slotEX = .bubble) : ¬ LoadUseStalls o := by
  rintro ⟨-, d, -, -, -, -, hazard⟩
  simp [loadUseHazard, slot] at hazard

/-- Settles O47: the stall puts a BUBBLE into EX, so the next edge has no load-use hazard. -/
theorem loadUseStallEdge : Obligations.LoadUseStallEdge := by
  refine ⟨fun d e ex live flags => loadUseHazard_iff live flags, fun o => ⟨fun h => ?_, fun free => ?_⟩⟩
  · have hold : Stalls o (edge o) := by
      rw [edge_of_loadUseStalls h]
      exact stalls_stall o _
    have count : (edge o).loadUseStalls = o.loadUseStalls + 1 := by rw [edge_of_loadUseStalls h]; rfl
    exact ⟨count, hold.slotEX, hold.slotID, hold.slotIF, hold.fetch.pc, hold.fetch.nextId, hold.fetch.icache,
      hold.iStall, (edgeCase (edge o)).loadUseStalls (not_loadUseStalls_of_bubble hold.slotEX)⟩
  · exact (edgeCase o).loadUseStalls free

/-! ### The control-hazard stall -/

theorem edge_of_controlStall {o : State} {d : Record} (plain : PlainEdge o) (live : o.slotID.live? = some d)
    (legal : d.flags.legal = true) (noHalt : d.flags.halt = false) (control : d.isControl = true)
    (hazard : controlHazard d o.slotEX o.slotMEM = true) : edge o = stall (midEdge o) := by
  have event : idEvent o (midEdge o) = .controlStall := by
    simp [idEvent, live, legal, noHalt, control, hazard]
  rw [edge_of_plain plain, frontEnd, event]

/-- Settles O48: the condition by the register it is on, and JAL reads none. -/
theorem controlStallEdge : Obligations.ControlStallEdge := by
  refine ⟨fun d ex mem loads => ?_, fun d rd off ex mem flags => ?_,
    fun o d plain live legal noHalt control hazard => ?_⟩
  · have load {m : Record} (live : mem.live? = some m) (isLoad : m.flags.readsMem = true) :
        m.flags.writesRd = true := by
      rw [loads m live] at isLoad ⊢
      exact writesRd_of_readsMem isLoad
    rw [controlHazard_iff]
    simp only [Record.writes_iff]
    constructor
    · rintro (⟨e, live, q, reads, writesRd, rd, nonzero⟩ | ⟨m, live, isLoad, q, reads, -, rd, nonzero⟩)
      · exact ⟨q, nonzero, reads, .inl ⟨e, live, writesRd, rd⟩⟩
      · exact ⟨q, nonzero, reads, .inr ⟨m, live, isLoad, rd⟩⟩
    · rintro ⟨q, nonzero, reads, ⟨e, live, writesRd, rd⟩ | ⟨m, live, isLoad, rd⟩⟩
      · exact .inl ⟨e, live, q, reads, writesRd, rd, nonzero⟩
      · exact .inr ⟨m, live, isLoad, q, reads, load live isLoad, rd, nonzero⟩
  · exact controlHazard_of_readsNone (by rw [flags]; rfl) (by rw [flags]; rfl) ex mem
  · rw [edge_of_controlStall plain live legal noHalt control hazard]
    have hold : Stalls o (stall (midEdge o)) := stalls_stall o (midEdge o).loadUseStalls
    exact ⟨hold.slotEX, hold.slotID, hold.slotIF, hold.fetch.pc, hold.fetch.nextId, hold.fetch.icache, hold.iStall,
      by simp [stall]⟩

end Sys2Proof.Machine
end

section
/-! PROOFS. What moves into EX, and how the front end goes on: redirect, halt and the plain advance
(70_reset_and_hazards.md R196, R197, R201 to R206, R210). -/

namespace Sys2Proof.Machine

/-! ### What moves into EX -/

theorem intoEX_of_live {o s : State} {d : Record} (live : o.slotID.live? = some d) :
    intoEX o s = .full .normal (execute d o.slotEX s) := by simp [intoEX, live]

theorem intoEX_of_dead {o s : State} (dead : o.slotID.live? = none) : intoEX o s = o.slotID := by simp [intoEX, dead]

/-- The newest value of register `q` at an edge (R197): the result of the EX occupant if it has one for the register,
else the register after the write-back. -/
def newestValue (o : State) (q : RegIdx) : Word :=
  if q = 0#5 then 0#64 else
    match o.slotEX.live? with
    | some e => if e.flags.writesRd = true ∧ e.rd = q ∧ e.flags.readsMem = false then e.arithResult
        else readAfterWriteBack o q
    | none => readAfterWriteBack o q

theorem forward_midEdge {o : State} (plain : PlainEdge o) (q : RegIdx) :
    forward o.slotEX (midEdge o) q = newestValue o q := by
  unfold newestValue
  by_cases zero : q = 0#5
  · rw [if_pos zero, zero, forward_zero]
  · rw [if_neg zero, forward, readReg_midEdge plain]
    cases o.slotEX.live? with
    | none => rfl
    | some e =>
      simp only [Bool.and_eq_true, Record.writes_iff, Bool.not_eq_true', zero, ne_eq, not_false_eq_true, and_true,
        and_assoc]

/-- A control transfer resolves from its sources after the write-back (R201). -/
theorem resolvedNextPc_midEdge {o : State} (plain : PlainEdge o) {d : Record} {i : Instr} (op : d.op = some i) :
    resolvedNextPc d (midEdge o) =
      nextPcOf i d.pc (if d.flags.readsRs1 then readAfterWriteBack o d.rs1 else 0#64)
        (if d.flags.readsRs2 then readAfterWriteBack o d.rs2 else 0#64) := by
  rw [resolvedNextPc, op]
  simp only [collect_midEdge plain]

theorem FrontEndCase.slotEX {o s t : State} (h : FrontEndCase o s t) :
    t.slotEX = intoEX o s ∨ t.slotEX.live? = none := by
  cases h with
  | stalled => exact .inr rfl
  | raised => exact .inr (by simp [takeIdException])
  | redirected => exact .inl (by simp [redirectTo])
  | halted => exact .inl rfl
  | pending => exact .inl rfl
  | stopped => exact .inl rfl
  | advanced => exact .inl (by simp)

/-- What an edge lets into EX alive is the executed ID occupant. -/
theorem slotEX_of_live {o : State} (plain : PlainEdge o) {d : Record} (live : o.slotID.live? = some d) {tag : Tag}
    {r : Record} (slot : (edge o).slotEX = .full tag r) (alive : Slot.live? (.full tag r) = some r) :
    tag = .normal ∧ r = execute d o.slotEX (midEdge o) := by
  rw [edge_of_plain plain] at slot
  obtain e | dead := (frontEndCase o (midEdge o)).slotEX
  · rw [e, intoEX_of_live live] at slot
    cases slot
    exact ⟨rfl, rfl⟩
  · rw [slot, alive] at dead
    cases dead

/-! ### The flow without an event -/

theorem flow_of_pending {o s : State} (wait : 0 < s.iStall) :
    flow o s = { s with slotEX := intoEX o s, slotID := .bubble, iStall := s.iStall - 1 } := if_pos wait

theorem flow_of_stopped {o s : State} (ready : s.iStall = 0) (stop : s.fetchStopped = true) :
    flow o s = { s with slotEX := intoEX o s, slotID := o.slotIF.settle, slotIF := .bubble } := by
  simp [flow, ready, stop]

theorem flow_of_fetching {o s : State} (ready : s.iStall = 0) (go : s.fetchStopped = false) :
    flow o s = fetch (fetchTag o.slotIF.settle) { s with slotEX := intoEX o s, slotID := o.slotIF.settle } := by
  simp [flow, ready, go]

/-- The sequential fetch behind the record entering ID. -/
theorem advance_of_fetching {o : State} (ready : o.iStall = 0) (go : o.fetchStopped = false) :
    EntersID o (flow o (midEdge o)) ∧ FetchedBehind o (flow o (midEdge o)) := by
  rw [flow_of_fetching (by simpa using ready) (by simpa using go)]
  exact ⟨entersID_of_settle (by simp), by apply fetchedBehind_fetch <;> simp⟩

/-! ### A control transfer resolves in ID -/

/-- A control transfer is legal and no halt (30_encoding.md R88). -/
theorem legal_of_control {i : Instr} (control : isControl i = true) :
    (flagsOf (some i)).legal = true ∧ (flagsOf (some i)).halt = false := by
  revert control
  cases h : classOf i <;> simp [isControl, flagsOf, h, classFlags, noFlags]

/-- Settles O49: the resolution decides between a redirect and the flow. -/
theorem redirectEdge : Obligations.RedirectEdge := by
  intro o d i plain live inv op control hazard
  dsimp only
  rw [← resolvedNextPc_midEdge plain op]
  obtain ⟨legal, noHalt⟩ := legal_of_control control
  rw [Record.flags_eq inv op] at legal noHalt
  have control : d.isControl = true := by rw [Record.isControl_eq op, control]
  have issued : ∃ r, intoEX o (midEdge o) = .full .normal r ∧ r.pc = d.pc ∧ r.dynId = d.dynId ∧
      r.nextPc = resolvedNextPc d (midEdge o) := by
    obtain ⟨same, -⟩ := sameFetch_execute d o.slotEX (midEdge o)
    exact ⟨_, intoEX_of_live live, same.pc, same.dynId, by rw [execute_eq op]; exact if_pos control⟩
  by_cases next : resolvedNextPc d (midEdge o) = d.pc + 4#64
  · have event : idEvent o (midEdge o) = .none := by
      simp [idEvent, live, legal, noHalt, control, hazard, next, pcPlus4]
    rw [edge_of_plain plain, frontEnd, event]
    exact ⟨by rw [flow_slotEX]; exact issued, fun h => absurd next h, fun _ ready go => advance_of_fetching ready go⟩
  · have event : idEvent o (midEdge o) = .redirect (resolvedNextPc d (midEdge o)) := by
      simp [idEvent, live, legal, noHalt, control, hazard, next, pcPlus4]
    rw [edge_of_plain plain, frontEnd, event]
    refine ⟨by simpa [redirectTo] using issued, fun _ => ⟨by simp [redirectTo], ?_⟩, fun h => absurd h next⟩
    apply fetchedAt_fetch <;> simp

/-! ### A halt leaves ID -/

theorem edge_of_halt {o : State} {d : Record} (plain : PlainEdge o) (live : o.slotID.live? = some d)
    (legal : d.flags.legal = true) (halts : d.flags.halt = true) : edge o = haltInId o (midEdge o) := by
  have event : idEvent o (midEdge o) = .halt := by simp [idEvent, live, legal, halts]
  rw [edge_of_plain plain, frontEnd, event]

/-- Settles O52: the halt stops fetching as it leaves ID; with fetching stopped nothing live is left in ID and no fetch
is pending. -/
theorem haltInDecodeEdge : Obligations.HaltInDecodeEdge := by
  refine ⟨fun o d plain live legal halts => ?_, fun o inv plain stopped => ?_⟩
  · rw [edge_of_halt plain live legal halts]
    obtain ⟨same, -⟩ := sameFetch_execute d o.slotEX (midEdge o)
    exact ⟨⟨_, intoEX_of_live live, same.pc, same.dynId, same.flags⟩, rfl, rfl, rfl, rfl, by simp [haltInId],
      by simp [haltInId], by simp [haltInId]⟩
  · obtain ⟨dead, -, ready⟩ := inv.fetchStopped stopped
    rw [edge_of_plain plain, frontEnd_of_stopped dead (by simpa using ready) (by simpa using stopped)]
    exact ⟨rfl, by simpa using stopped, by simp, by simp, by simp⟩

/-! ### EX, and the advance behind it -/

theorem edge_of_noIdEvent {o : State} (plain : PlainEdge o) (quiet : NoIdEvent o) : edge o = flow o (midEdge o) := by
  have event : idEvent o (midEdge o) = .none := by
    unfold idEvent
    cases live : o.slotID.live? with
    | none => rfl
    | some d =>
      obtain ⟨legal, noHalt, loadUse, resolves⟩ := quiet d live
      cases control : d.isControl with
      | false => simp [legal, noHalt, control, loadUse control]
      | true =>
        obtain ⟨free, next⟩ := resolves control
        obtain ⟨i, op⟩ : ∃ i, d.op = some i := by
          cases h : d.op with
          | none => simp [Record.isControl, h] at control
          | some i => exact ⟨i, rfl⟩
        have sequential : resolvedNextPc d (midEdge o) = pcPlus4 d.pc :=
          (resolvedNextPc_midEdge plain op).trans (next i op)
        simp [legal, noHalt, control, free, sequential]
  rw [edge_of_plain plain, frontEnd, event]

/-- Settles O53: what enters EX is the executed ID occupant, and without an event the front end flows. -/
theorem executeStageEdge : Obligations.ExecuteStageEdge := by
  refine ⟨fun o d r i tag plain live inv op slot alive => ?_, fun o plain quiet => ?_⟩
  · obtain ⟨rfl, rfl⟩ := slotEX_of_live plain live slot alive
    have control := Record.isControl_eq op
    have operand (reads : Bool) (q : RegIdx) : forwarded reads q o.slotEX (midEdge o) =
        if reads then newestValue o q else 0#64 := by rw [forwarded, forward_midEdge plain]
    rw [execute_eq op]
    refine ⟨rfl, ?_, ?_, fun v value => ?_, fun a address => ?_, fun other => ?_, fun transfers => ?_⟩
    · exact operand _ _
    · exact operand _ _
    · simp only [value, Option.getD_some]
    · simp only [address, Option.getD_some]
    · exact if_neg (by simp [control, other])
    · exact (if_pos (by rw [control, transfers])).trans (resolvedNextPc_midEdge plain op)
  · rw [edge_of_noIdEvent plain quiet]
    obtain ⟨raised, count⟩ := flow_kept o (midEdge o)
    refine ⟨fun d live => ?_, fun dead => ?_, by simp [raised], by simp [flow_fetchStopped], by simp [count],
      fun wait => ?_, fun ready => ?_⟩
    · obtain ⟨same, -⟩ := sameFetch_execute d o.slotEX (midEdge o)
      exact ⟨_, (flow_slotEX _ _).trans (intoEX_of_live live), same.pc, same.raw, same.op, same.dynId⟩
    · rw [flow_slotEX, intoEX_of_dead dead]
    · rw [flow_of_pending (by simpa using wait)]
      exact ⟨rfl, by simp, by simp, by simp, by simp, by simp⟩
    · cases stop : o.fetchStopped with
      | true =>
        rw [flow_of_stopped (by simpa using ready) (by simpa using stop)]
        exact ⟨entersID_of_settle rfl, fun _ => ⟨rfl, by simpa using ready, by simp, by simp, by simp⟩, nofun⟩
      | false =>
        obtain ⟨enters, fetched⟩ := advance_of_fetching ready stop
        exact ⟨enters, nofun, fun _ => fetched⟩

end Sys2Proof.Machine
end
